-- ==== Sys2Proof/Word.lean ====
section
/-! DEFINITION. The words of the Peltier Controller Core's ports: 32-bit words, bytes, and binary32 bit patterns
(30_encoding.md R60 to R62; 00_scope.md R11, R12). -/

namespace Sys2Proof

/-- A header, operand or result word (30_encoding.md R60, R68). -/
abbrev Word := BitVec 32

/-- An 8-bit unsigned byte, `u8` (00_scope.md R11). -/
abbrev Byte := BitVec 8

/-- The IEEE 754 bit pattern of a binary32 value: bit 31 the sign, bits 30 to 23 the biased exponent, bits 22 to 0 the
fraction (30_encoding.md R62, 20_memory.md R48). Its arithmetic stands in Machine/Float.lean. -/
abbrev F32 := BitVec 32

end Sys2Proof
end

