-- ==== Sys2Proof/Config.lean ====
section
/-! DEFINITION. The configuration of the PCC (00_scope.md R9), the example configuration EX of 95_test_vectors.md, and the free
values that stand for the answers of the external agents (30_encoding.md R79, R80). The constraints of R9 stand in
Machine/Admission.lean. -/

namespace Sys2Proof

/-- The beyond-the-table policy `BOOT_BEYOND` (43_pid.md R143). -/
inductive BootBeyond where
  | zero
  | clampLast
  deriving DecidableEq, Repr

/-- The byte order of a multi-byte payload, `PAYLOAD_ORDER` (30_encoding.md R78). -/
inductive PayloadOrder where
  | msbFirst
  | lsbFirst
  deriving DecidableEq, Repr

/-- The four AMUX channels (41_dac_codec.md R103). -/
inductive Channel where
  | vout
  | v1p25
  | iout
  | v1p65
  deriving DecidableEq, Repr

/-- One value for each AMUX channel. -/
structure PerChannel (α : Type) where
  vout : α
  v1p25 : α
  iout : α
  v1p65 : α
  deriving DecidableEq, Repr

/-- The value of channel `c`. -/
def PerChannel.get {α : Type} (p : PerChannel α) : Channel → α
  | .vout => p.vout
  | .v1p25 => p.v1p25
  | .iout => p.iout
  | .v1p65 => p.v1p65

/-- The driver's status, the answer to both of its requests (30_encoding.md R79). -/
inductive DriverStatus where
  | ok
  | transport
  | checksum
  | ack
  deriving DecidableEq, Repr, Inhabited

/-- One entry of the bootstrap table ROM (20_memory.md R44): `diff` in degrees Celsius, `contrib` in output units. -/
structure BootEntry where
  diff : F32
  contrib : F32
  deriving DecidableEq, Repr

/-- The implementation parameters of 00_scope.md R9, in the table's order. A parameter that the table marks OPEN has no value in
the source; a statement about every state holds for every value of it (log entry 1). -/
structure Config where
  kp : F32
  ki : F32
  kd : F32
  dt : F32
  integThresh : F32
  integMaxDev : F32
  bootTable : List BootEntry
  bootBeyond : BootBeyond
  codeMin : Int
  codeMax : Int
  amuxSel : PerChannel Byte
  amuxGain : PerChannel Rat
  amuxOffset : PerChannel Rat
  loadTol : F32
  loadAdcCh : Nat
  crcPoly : Byte
  crcInit : Byte
  crcRefIn : Bool
  crcRefOut : Bool
  crcXorOut : Byte
  cmdStatus : Byte
  cmdWrite : Byte
  cmdRead : Byte
  regCommand : Byte
  regStatus : Byte
  regIlimDac : Byte
  regVdac : Byte
  regAmux : Byte
  wCommand : Nat
  wStatus : Nat
  wIlimDac : Nat
  wVdac : Nat
  wAmux : Nat
  payloadOrder : PayloadOrder
  deriving DecidableEq, Repr

/-- `HIST_N`, the capacity of the derivative history and the constant `window_size` (R9; 43_pid.md R137). -/
abbrev histN : Nat := 50

/-- `V_MIN` = -21/2 volts exactly (R9). -/
def vMin : Rat := -21 / 2

/-- `V_MAX` = 507/50 volts exactly (R9). -/
def vMax : Rat := 507 / 50

/-- The bootstrap table of EX (95_test_vectors.md section 0): (0,0), (5,1), (10,3), (15,4), (20,6). -/
def Config.exTable : List BootEntry :=
  [⟨0x00000000#32, 0x00000000#32⟩, ⟨0x40A00000#32, 0x3F800000#32⟩, ⟨0x41200000#32, 0x40400000#32⟩,
   ⟨0x41700000#32, 0x40800000#32⟩, ⟨0x41A00000#32, 0x40C00000#32⟩]

/-- The example configuration EX of 95_test_vectors.md section 0, with the defaults of R9. The register widths that EX does not
list are set to 1. DESIGN CHOICE, log entry 1: it is the configuration `State.reset` is released with. -/
def Config.ex : Config where
  kp := 0x40000000#32
  ki := 0x3F000000#32
  kd := 0x40800000#32
  dt := 0x3F800000#32
  integThresh := 0x3DCCCCCD#32
  integMaxDev := 0x3F800000#32
  bootTable := Config.exTable
  bootBeyond := .clampLast
  codeMin := -1050
  codeMax := 1014
  amuxSel := ⟨0x00#8, 0x01#8, 0x02#8, 0x03#8⟩
  amuxGain := ⟨1 / 1000, 1 / 1000, 1 / 1000, 1 / 1000⟩
  amuxOffset := ⟨0, 0, 0, 0⟩
  loadTol := 0x3F000000#32
  loadAdcCh := 0
  crcPoly := 0x07#8
  crcInit := 0x00#8
  crcRefIn := false
  crcRefOut := false
  crcXorOut := 0x00#8
  cmdStatus := 0x01#8
  cmdWrite := 0x02#8
  cmdRead := 0x03#8
  regCommand := 0x00#8
  regStatus := 0x01#8
  regIlimDac := 0x03#8
  regVdac := 0x04#8
  regAmux := 0x05#8
  wCommand := 1
  wStatus := 1
  wIlimDac := 1
  wVdac := 4
  wAmux := 1
  payloadOrder := .msbFirst

/-- The status the driver answers at draw `n` when no answer is lined up for it: a free value, under no law
(30_encoding.md R79; 93_implementation_defined.md I6; log entry 3). -/
opaque Config.freeDriverStatus : Nat → DriverStatus

/-- The raw register value the driver answers at draw `n` when no answer is lined up for it: a free value (R79; I6; log entry 3). -/
opaque Config.freeRaw : Nat → Word

/-- The sample the ADC answers at draw `n` when no answer is lined up for it: a free value (R80; I7; log entry 3). -/
opaque Config.freeSample : Nat → F32

end Sys2Proof
end

