-- ==== Sys2Proof/Machine/Float.lean ====
section
/-! DEFINITION. IEEE 754 binary32 arithmetic with round to nearest, ties to even: the primitives of 00_scope.md R12. The definitions are
IEEE 754's own, which the spec supplies from general knowledge (93_implementation_defined.md G1; log entry 11). -/

namespace Sys2Proof.Machine

/-- The sign bit. -/
def signBit (x : F32) : Bool := x.msb

/-- The biased exponent field. -/
def expField (x : F32) : Nat := (x.extractLsb' 23 8).toNat

/-- The fraction field. -/
def fracField (x : F32) : Nat := (x.extractLsb' 0 23).toNat

/-- `finite(a)`: neither an infinity nor a NaN (R12). -/
def finite (x : F32) : Bool := expField x != 255

/-- A NaN. -/
def isNaN (x : F32) : Bool := expField x == 255 && fracField x != 0

/-- An infinity of either sign. -/
def isInf (x : F32) : Bool := expField x == 255 && fracField x == 0

/-- +0.0 or -0.0. -/
def isZero (x : F32) : Bool := expField x == 0 && fracField x == 0

/-- The magnitude of a finite value in units of 2^-149, the smallest subnormal. -/
def units (x : F32) : Nat :=
  if expField x = 0 then fracField x else (2 ^ 23 + fracField x) * 2 ^ (expField x - 1)

/-- `exact(a)`: the exact rational a finite binary32 value denotes (00_scope.md R13). -/
def exact (x : F32) : Rat :=
  mkRat (if signBit x then -(units x : Int) else (units x : Int)) (2 ^ 149)

/-- The pattern with sign `neg` and the 31 lower bits `m`. -/
def withSign (neg : Bool) (m : Nat) : F32 := BitVec.ofBool neg ++ BitVec.ofNat 31 m

/-- The 31 lower bits of the infinities. -/
def infBits : Nat := 0x7F800000

/-- The natural number nearest to `n / d`, ties to even. -/
def rneNat (n d : Nat) : Nat :=
  if 2 * (n % d) < d then n / d
  else if d < 2 * (n % d) then n / d + 1
  else n / d + (n / d) % 2

/-- The 31 lower bits of the binary32 value nearest to `n / d`, ties to even: the magnitude is rounded to 24 significant bits, to
whole units of 2^-149 below the normal range, and goes to infinity above the largest finite value. -/
def rneMag (n d : Nat) : Nat :=
  let drop := Nat.log2 (n * 2 ^ 149 / d) - 23
  min (drop * 2 ^ 23 + rneNat (n * 2 ^ 149) (d * 2 ^ drop)) infBits

/-- `rne32(q)`: the binary32 value nearest to the exact rational `q`, ties to even; a nonzero `q` keeps its sign when it rounds to
zero (R12; log entry 10). -/
def rne32 (q : Rat) : F32 := withSign (decide (q < 0)) (rneMag q.num.natAbs q.den)

/-- The NaN an invalid operation gives. Its bits reach no response and no state (log entry 9). -/
def nan : F32 := 0x7FC00000#32

/-- The infinity of sign `neg`. -/
def inf (neg : Bool) : F32 := withSign neg infBits

/-- `fabs(a)` clears the sign bit (R12). -/
def fabs (x : F32) : F32 := x &&& 0x7FFFFFFF#32

/-- The value with its sign bit flipped. -/
def fneg (x : F32) : F32 := x ^^^ 0x80000000#32

/-- `fadd(a, b)`: the exact sum rounded once (R12). An exact zero sum is -0.0 only when both operands are -0.0. -/
def fadd (a b : F32) : F32 :=
  if isNaN a || isNaN b then nan
  else if isInf a then (if isInf b && signBit a != signBit b then nan else a)
  else if isInf b then b
  else if exact a + exact b = 0 then withSign (signBit a && signBit b) 0
  else rne32 (exact a + exact b)

/-- `fsub(a, b)`: the exact difference rounded once (R12). -/
def fsub (a b : F32) : F32 := fadd a (fneg b)

/-- `fmul(a, b)`: the exact product rounded once (R12). The sign of the result is the exclusive or of the operands' signs. -/
def fmul (a b : F32) : F32 :=
  let neg := signBit a != signBit b
  if isNaN a || isNaN b then nan
  else if isInf a || isInf b then (if isZero a || isZero b then nan else inf neg)
  else if isZero a || isZero b then withSign neg 0
  else rne32 (exact a * exact b)

/-- `fdiv(a, b)`: the exact quotient rounded once (R12). The sign of the result is the exclusive or of the operands' signs. -/
def fdiv (a b : F32) : F32 :=
  let neg := signBit a != signBit b
  if isNaN a || isNaN b then nan
  else if isInf a then (if isInf b then nan else inf neg)
  else if isInf b then withSign neg 0
  else if isZero b then (if isZero a then nan else inf neg)
  else if isZero a then withSign neg 0
  else rne32 (exact a / exact b)

/-- A non-NaN value's place in the order of values: both zeros are 0, the infinities are the ends. -/
def orderKey (x : F32) : Int :=
  if signBit x then -((x.extractLsb' 0 31).toNat : Int) else ((x.extractLsb' 0 31).toNat : Int)

/-- `feq(a, b)`, the IEEE comparison: false on a NaN, true on +0.0 and -0.0 (R12). -/
def feq (a b : F32) : Bool := !isNaN a && !isNaN b && decide (orderKey a = orderKey b)

/-- `fle(a, b)` (R12). -/
def fle (a b : F32) : Bool := !isNaN a && !isNaN b && decide (orderKey a ≤ orderKey b)

/-- `fge(a, b)` (R12). -/
def fge (a b : F32) : Bool := fle b a

/-- `fgt(a, b)` (R12). -/
def fgt (a b : F32) : Bool := !isNaN a && !isNaN b && decide (orderKey b < orderKey a)

end Sys2Proof.Machine
end

