-- ==== Sys2Proof/Machine/Admission.lean ====
section
/-! DEFINITION. The constraints a configuration must meet (00_scope.md R9, the column "constraint"). "A configuration that violates a
listed constraint is refused as a whole (the model gives it no meaning)". -/

namespace Sys2Proof.Machine

/-- The largest code span a configuration may have (41_dac_codec.md R105). -/
def maxCodeSpan : Int := 21642608

/-- 5.0 as binary32, the bound of `LOAD_TOL`. -/
def five : F32 := 0x40A00000#32

/-- The one entry of the bootstrap table the source gives: diff 10.0, contribution 3.0 (20_memory.md R44). -/
def sourceEntry : BootEntry := ⟨0x41200000#32, 0x40400000#32⟩

/-- Consecutive entries have strictly increasing `diff` and non-decreasing `contrib` (R9). -/
def tableOrdered : List BootEntry → Bool
  | [] => true
  | [_] => true
  | a :: b :: rest => fgt b.diff a.diff && fle a.contrib b.contrib && tableOrdered (b :: rest)

/-- The constraints on `BOOT_TABLE` (R9; D15). -/
def tableAdmitted (t : List BootEntry) : Bool :=
  decide (1 ≤ t.length) && t.all (fun e => finite e.diff && finite e.contrib) && tableOrdered t && t.contains sourceEntry

/-- The constraints on the gains, the period and the PID bounds (R9; D21). -/
def gainsAdmitted (c : Config) : Bool :=
  finite c.kp && finite c.ki && !isZero c.ki && finite c.kd && finite c.dt && fgt c.dt 0#32 &&
  finite c.integThresh && fge c.integThresh 0#32 && finite c.integMaxDev && fge c.integMaxDev 0#32

/-- The constraints on `CODE_MIN` and `CODE_MAX`, which are int32 values (R9; D24). -/
def codesAdmitted (c : Config) : Bool :=
  decide (-2 ^ 31 ≤ c.codeMin) && decide (c.codeMax < 2 ^ 31) && decide (c.codeMin < c.codeMax) &&
  decide (c.codeMax - c.codeMin ≤ maxCodeSpan)

/-- The four AMUX selector codes are pairwise distinct (R9; D27). -/
def selectorsAdmitted (c : Config) : Bool :=
  decide [c.amuxSel.vout, c.amuxSel.v1p25, c.amuxSel.iout, c.amuxSel.v1p65].Nodup

/-- The constraints on the frame constants (R9; D31): bytes pairwise distinct, widths at least 1, `W_VDAC` at most 4 and wide enough
for every code in two's complement. -/
def frameAdmitted (c : Config) : Bool :=
  decide [c.cmdStatus, c.cmdWrite, c.cmdRead].Nodup &&
  decide [c.regCommand, c.regStatus, c.regIlimDac, c.regVdac, c.regAmux].Nodup &&
  [c.wCommand, c.wStatus, c.wIlimDac, c.wVdac, c.wAmux].all (fun w => decide (1 ≤ w)) &&
  decide (c.wVdac ≤ 4) &&
  decide (-2 ^ (8 * c.wVdac - 1) ≤ c.codeMin) && decide (c.codeMax < 2 ^ (8 * c.wVdac - 1))

/-- Every constraint of R9. -/
def admitted (c : Config) : Bool :=
  gainsAdmitted c && tableAdmitted c.bootTable && codesAdmitted c && selectorsAdmitted c &&
  finite c.loadTol && fge c.loadTol 0#32 && fgt five c.loadTol &&
  c.crcPoly.getLsbD 0 && frameAdmitted c

end Sys2Proof.Machine
end

