-- ==== Sys2Proof/Syntax.lean ====
section
/-! DEFINITION. The ten operations of the PCC with their operands, one constructor per row of spec/opcode_table.json
(00_scope.md R3; 30_encoding.md R63, R64). -/

namespace Sys2Proof

/-- One request's operation with the operands its form names (30_encoding.md R63). The operand words a form ignores, and the
header's length field (the length of the stream), are not part of the operation. -/
inductive Instr where
  /-- `PID_TICK <cur>, <set>, <out>` (43_pid.md R130). -/
  | pidTick (cur set out : F32)
  /-- `BOOT_LOOKUP <set>, <out>` (43_pid.md R144). -/
  | bootLookup (set out : F32)
  /-- `CRC8 [<bytes>]` (40_checksum.md R90). -/
  | crc8 (data : List Byte)
  /-- `CRC8_CHECK [<bytes>, <crc>]` (40_checksum.md R92). -/
  | crc8Check (data : List Byte)
  /-- `V2DAC <volts>` (41_dac_codec.md R100). -/
  | v2dac (volts : F32)
  /-- `DAC2V <code>` (41_dac_codec.md R102). -/
  | dac2v (code : Word)
  /-- `AMUX2V <sel>, <raw>` (41_dac_codec.md R103). -/
  | amux2v (sel : Byte) (raw : Word)
  /-- `SETV <volts>` (41_dac_codec.md R104). -/
  | setv (volts : F32)
  /-- `LOAD_CMP <v_act>, <v_ext>` (42_load_monitor.md R120). -/
  | loadCmp (vAct vExt : F32)
  /-- `LOAD_CHECK` (42_load_monitor.md R121). -/
  | loadCheck
  deriving DecidableEq, Repr

end Sys2Proof
end

