-- ==== Sys2Proof/WellFormed.lean ====
section
/-! DEFINITION. Which operations the request format can carry. -/

namespace Sys2Proof

/-- The largest byte count the 16-bit field `LEN` can name (30_encoding.md R61, R67). -/
def maxLen : Nat := 65535

/-- An operation is well-formed when the request format can carry it: a byte stream is at most 65535 bytes long, the width
of `LEN` (30_encoding.md R61, R67). Every other operand fills its word or field exactly. A stream shorter than its operation's
bound is a well-formed request that ends with `E_OPERAND` (R67), so it is not refused here. -/
def Instr.wf : Instr → Bool
  | .crc8 data => decide (data.length ≤ maxLen)
  | .crc8Check data => decide (data.length ≤ maxLen)
  | .pidTick _ _ _ => true
  | .bootLookup _ _ => true
  | .v2dac _ => true
  | .dac2v _ => true
  | .amux2v _ _ => true
  | .setv _ => true
  | .loadCmp _ _ => true
  | .loadCheck => true

end Sys2Proof
end

