-- ==== Sys2Proof/Decode.lean ====
section
/-! DEFINITION. The request format (30_encoding.md sections 1 and 2): the header's fields, the opcode map, the decoder and the
encoder. -/

namespace Sys2Proof

/-- The header field `OP` = `RQ0[7:0]` (30_encoding.md R61). -/
def opField (rq0 : Word) : Byte := rq0.extractLsb' 0 8

/-- The header field `SEL` = `RQ0[15:8]` (R61). -/
def selField (rq0 : Word) : Byte := rq0.extractLsb' 8 8

/-- The header field `LEN` = `RQ0[31:16]` (R61). -/
def lenField (rq0 : Word) : BitVec 16 := rq0.extractLsb' 16 16

/-- The header word with its three fields (R61). -/
def header (op : Byte) (sel : Byte) (len : BitVec 16) : Word := (len ++ sel) ++ op

@[simp] theorem opField_header (op sel : Byte) (len : BitVec 16) : opField (header op sel len) = op := by
  ext i hi
  have h0 : 0 + i < 8 := by omega
  simp only [opField, header, BitVec.getElem_extractLsb', BitVec.getLsbD_append, if_pos h0]
  simp [BitVec.getLsbD_eq_getElem hi]

@[simp] theorem selField_header (op sel : Byte) (len : BitVec 16) : selField (header op sel len) = sel := by
  ext i hi
  have h0 : ¬ 8 + i < 8 := by omega
  have h1 : 8 + i - 8 = i := by omega
  simp only [selField, header, BitVec.getElem_extractLsb', BitVec.getLsbD_append, if_neg h0, h1, if_pos hi]
  exact BitVec.getLsbD_eq_getElem hi

@[simp] theorem lenField_header (op sel : Byte) (len : BitVec 16) : lenField (header op sel len) = len := by
  ext i hi
  have h0 : ¬ 16 + i < 8 := by omega
  have h1 : ¬ 16 + i - 8 < 8 := by omega
  have h2 : 16 + i - 8 - 8 = i := by omega
  simp only [lenField, header, BitVec.getElem_extractLsb', BitVec.getLsbD_append, if_neg h0, if_neg h1, h2]
  exact BitVec.getLsbD_eq_getElem hi

/-- The closed enumeration of operations (30_encoding.md R64). -/
inductive Op where
  | pidTick
  | bootLookup
  | crc8
  | crc8Check
  | v2dac
  | dac2v
  | amux2v
  | setv
  | loadCmp
  | loadCheck
  deriving DecidableEq, Repr

/-- The operand forms (30_encoding.md R63). -/
inductive Form where
  | f0
  | f1f
  | f1i
  | f2f
  | f3f
  | fsel
  | fb
  deriving DecidableEq, Repr

/-- Every operation, in the order of the opcode map (R64). -/
def Op.all : List Op :=
  [.pidTick, .bootLookup, .crc8, .crc8Check, .v2dac, .dac2v, .amux2v, .setv, .loadCmp, .loadCheck]

/-- The operation codes (R64). -/
def Op.code : Op → Byte
  | .pidTick => 0x01#8
  | .bootLookup => 0x02#8
  | .crc8 => 0x10#8
  | .crc8Check => 0x11#8
  | .v2dac => 0x20#8
  | .dac2v => 0x21#8
  | .amux2v => 0x22#8
  | .setv => 0x23#8
  | .loadCmp => 0x30#8
  | .loadCheck => 0x31#8

/-- Each operation has exactly one form (R63). -/
def Op.form : Op → Form
  | .pidTick => .f3f
  | .bootLookup => .f2f
  | .crc8 => .fb
  | .crc8Check => .fb
  | .v2dac => .f1f
  | .dac2v => .f1i
  | .amux2v => .fsel
  | .setv => .f1f
  | .loadCmp => .f2f
  | .loadCheck => .f0

/-- The operation a code names, if any (R64); every other code is reserved (R66). -/
def Op.ofCode (b : Byte) : Option Op := Op.all.find? fun o => o.code == b

/-- Whether the form reads the field `SEL`; where it does not, `SEL` must be 0 (R61). -/
def Form.readsSel : Form → Bool
  | .fsel => true
  | .f0 | .f1f | .f1i | .f2f | .f3f | .fb => false

/-- Whether the form reads the field `LEN` and the stream; where it does not, `LEN` must be 0 (R61). -/
def Form.readsLen : Form → Bool
  | .fb => true
  | .f0 | .f1f | .f1i | .f2f | .f3f | .fsel => false

/-- Whether the header names an operation that takes bytes (30_encoding.md R61, R63). -/
def takesBytes (rq0 : Word) : Bool :=
  match Op.ofCode (opField rq0) with
  | some o => o.form.readsLen
  | none => false

/-- A request as the host issues it: the header word, the three operand words and the byte stream `D` (30_encoding.md R60). -/
structure Request where
  rq0 : Word
  w1 : Word
  w2 : Word
  w3 : Word
  data : List Byte
  /-- The stream has `LEN` bytes (R75); where the operation takes none, it may also be empty whatever `LEN` is (R60; log entry 5). -/
  data_length : data.length = (lenField rq0).toNat ∨ (takesBytes rq0 = false ∧ data = [])
  deriving DecidableEq, Repr

/-- `OP` of a request (R61). -/
def Request.op (r : Request) : Byte := opField r.rq0

/-- `SEL` of a request (R61). -/
def Request.sel (r : Request) : Byte := selField r.rq0

/-- `LEN` of a request (R61). -/
def Request.len (r : Request) : BitVec 16 := lenField r.rq0

/-- Why a request names no operation. -/
inductive DecodeError where
  /-- `OP` is a reserved code (R66): the PCC answers `E_ILLEGAL`. -/
  | reservedOp (op : Byte)
  /-- `SEL` is nonzero where it must be 0 (R61, R66): the PCC answers `E_ILLEGAL`. -/
  | nonzeroSel
  /-- `LEN` is nonzero where it must be 0 (R61, R66): the PCC answers `E_ILLEGAL`. -/
  | nonzeroLen
  deriving DecidableEq, Repr

/-- The operation with the operands its form names; the other words are ignored (R60, R63). -/
def Request.operands (r : Request) : Op → Instr
  | .pidTick => .pidTick r.w1 r.w2 r.w3
  | .bootLookup => .bootLookup r.w1 r.w2
  | .crc8 => .crc8 r.data
  | .crc8Check => .crc8Check r.data
  | .v2dac => .v2dac r.w1
  | .dac2v => .dac2v r.w1
  | .amux2v => .amux2v r.sel r.w1
  | .setv => .setv r.w1
  | .loadCmp => .loadCmp r.w1 r.w2
  | .loadCheck => .loadCheck

/-- Header decode, total, in the order of 30_encoding.md R65 (its first clause, `S.fatal`, belongs to the machine:
Machine/Ops.lean `serve`). -/
def decode (r : Request) : Except DecodeError Instr :=
  match Op.ofCode r.op with
  | none => .error (.reservedOp r.op)
  | some o =>
    if r.sel ≠ 0#8 ∧ o.form.readsSel = false then .error .nonzeroSel
    else if r.len ≠ 0#16 ∧ o.form.readsLen = false then .error .nonzeroLen
    else .ok (r.operands o)

/-- The operation of an instruction. -/
def Instr.op : Instr → Op
  | .pidTick _ _ _ => .pidTick
  | .bootLookup _ _ => .bootLookup
  | .crc8 _ => .crc8
  | .crc8Check _ => .crc8Check
  | .v2dac _ => .v2dac
  | .dac2v _ => .dac2v
  | .amux2v _ _ => .amux2v
  | .setv _ => .setv
  | .loadCmp _ _ => .loadCmp
  | .loadCheck => .loadCheck

/-- The request of an operation that takes no bytes: `LEN` is 0 (R61). -/
def wordRequest (o : Op) (sel : Byte) (w1 w2 w3 : Word) : Request :=
  ⟨header o.code sel 0#16, w1, w2, w3, [], .inl (by simp)⟩

/-- The request of an operation that takes bytes. `LEN` can name at most 65535 bytes: a longer stream, which no well-formed instruction
has, is cut to what its 16 bits name. -/
def byteRequest (o : Op) (data : List Byte) : Request :=
  ⟨header o.code 0#8 (BitVec.ofNat 16 data.length), 0#32, 0#32, 0#32, data.take (data.length % 2 ^ 16), .inl (by
    rw [lenField_header, List.length_take, BitVec.toNat_ofNat, Nat.min_eq_left (Nat.mod_le _ _)])⟩

/-- The request of an instruction (30_encoding.md R61 to R64), with 0 in every operand word its form ignores. -/
def encode : Instr → Request
  | .pidTick cur set out => wordRequest .pidTick 0#8 cur set out
  | .bootLookup set out => wordRequest .bootLookup 0#8 set out 0#32
  | .crc8 data => byteRequest .crc8 data
  | .crc8Check data => byteRequest .crc8Check data
  | .v2dac volts => wordRequest .v2dac 0#8 volts 0#32 0#32
  | .dac2v code => wordRequest .dac2v 0#8 code 0#32 0#32
  | .amux2v sel raw => wordRequest .amux2v sel raw 0#32 0#32
  | .setv volts => wordRequest .setv 0#8 volts 0#32 0#32
  | .loadCmp vAct vExt => wordRequest .loadCmp 0#8 vAct vExt 0#32
  | .loadCheck => wordRequest .loadCheck 0#8 0#32 0#32 0#32

/-- The request whose bits are `w`, numbered as spec/opcode_table.json numbers them (the header in bits 31 to 0, `W1` to `W3`
above it, then the stream's bytes), with every bit from `nbits` up 0. The stream has the `LEN` bytes its header names (R75; log entry
4). -/
def Request.ofBits (nbits w : Nat) : Request :=
  let v := w % 2 ^ nbits
  let rq0 := BitVec.ofNat 32 v
  { rq0 := rq0
    w1 := BitVec.ofNat 32 (v >>> 32)
    w2 := BitVec.ofNat 32 (v >>> 64)
    w3 := BitVec.ofNat 32 (v >>> 96)
    data := (List.range (lenField rq0).toNat).map fun k => BitVec.ofNat 8 (v >>> (128 + 8 * k))
    data_length := .inl (by simp) }

/-- The instruction the decoder reads from the request whose bits are `w`; none where it refuses. -/
def decodeTableWord (nbits w : Nat) : Option Instr :=
  match decode (Request.ofBits nbits w) with
  | .ok i => some i
  | .error _ => none

end Sys2Proof
end

