-- ==== Sys2Proof/Machine/State.lean ====
section
/-! DEFINITION. The state of the PCC (10_state.md R20), its configuration (00_scope.md R9) and its ports (30_encoding.md R60, R68,
R79, R80) as plain data, the reasons a step can stop, and reset (10_state.md R35). -/

namespace Sys2Proof.Machine

/-- The status of a response (30_encoding.md R70). The codes stand in Machine/Flags.lean. -/
inductive Status where
  | ok
  | transport
  | checksum
  | ack
  | illegal
  | operand
  | range
  | fatal
  deriving DecidableEq, Repr

/-- A response as the host reads it (30_encoding.md R68): the header word `RS0` and four result words. The fields of `RS0` are read
by the accessors of Machine/Flags.lean. -/
structure Response where
  rs0 : Word
  q1 : Word
  q2 : Word
  q3 : Word
  q4 : Word
  deriving DecidableEq, Repr

/-- The record `S` of 10_state.md R20: exactly these fields. -/
structure Control where
  /-- `S.prev_sp`, the last commanded set point (R21). -/
  prevSp : F32
  /-- `S.iacc`, the integral accumulator (R22). -/
  iacc : F32
  /-- `S.ien`, the integral term enabled (R23). -/
  ien : Bool
  /-- `S.iest`, the value `S.iacc` was seeded with at enable (R24). -/
  iest : F32
  /-- `S.hist[0..49]`, the error history, entry 49 the newest (R25; 20_memory.md R40). -/
  hist : Vector F32 histN
  /-- `S.ticks`, samples collected since the last set-point change (R26). -/
  ticks : Nat
  /-- `S.fatal`, the sticky fatal fault (R27). -/
  fatal : Bool
  deriving DecidableEq, Repr

/-- One request of the PCC to an external agent (30_encoding.md R79, R80). -/
inductive PortRequest where
  /-- `Drv.write(addr, bytes)`. -/
  | write (addr : Byte) (bytes : List Byte)
  /-- `Drv.read_amux(sel)`. -/
  | readAmux (sel : Byte)
  /-- `Adc.sample(ch)`. -/
  | sample (ch : Nat)
  deriving DecidableEq, Repr

/-- What the host can do to the PCC (00_scope.md R8; 70_reset_and_hazards.md R180, R184, R188). -/
inductive HostMove where
  /-- Issue a request (30_encoding.md R60). -/
  | request (r : Request)
  /-- Assert reset and release it with the configuration `c` (R180, R184). -/
  | reset (c : Config)
  /-- Issue a request and assert reset before its response is written (R180): `asked` of the external requests it makes have gone
  out by then; reset is released with the configuration `c` (log entry 12). -/
  | abandon (r : Request) (asked : Nat) (c : Config)
  deriving DecidableEq, Repr

/-- The whole machine: the record `S`, the configuration it runs with, and its ports. -/
structure State where
  /-- The record `S` (10_state.md R20). -/
  ctl : Control
  /-- The configuration, fixed between resets (00_scope.md R9; 70_reset_and_hazards.md R184; log entry 1). -/
  cfg : Config
  /-- The host's moves not yet taken, the next one first (log entry 4). -/
  inbox : List HostMove
  /-- The response last written since reset, if any (30_encoding.md R68; log entry 6). -/
  resp : Option Response
  /-- The external requests made so far, oldest first (20_memory.md R56; log entry 7). -/
  outbox : List PortRequest
  /-- The driver's answers lined up for `Drv.write`, the next one first (30_encoding.md R79; log entry 3). -/
  writeAnswers : List DriverStatus
  /-- The driver's answers lined up for `Drv.read_amux`, the next one first (R79; log entry 3). -/
  readAnswers : List (DriverStatus × Word)
  /-- The samples lined up for `Adc.sample`, the next one first (R80; log entry 3). -/
  adcAnswers : List F32
  /-- How many draws have been taken: the argument of the next free value (log entry 3). -/
  drawn : Nat
  deriving DecidableEq, Repr

/-- The reasons the machine stops with a fault: none. Every fault of the PCC is a response (60_exceptions.md R160), hence a next
state. -/
inductive Fault where
  deriving DecidableEq, Repr

/-- The reasons the model gives no meaning. -/
inductive Refusal where
  /-- Raised by an arm of `exec` whose instruction has no meaning yet. Safe. No arm raises it. -/
  | notModelled (mnemonic : String)
  /-- Raised by `serve`, `idle` and `takeReset` for a configuration that breaks a constraint of 00_scope.md R9, which "is refused as a
  whole (the model gives it no meaning)" (log entry 2). Safe. -/
  | configuration
  deriving DecidableEq, Repr

/-- The record `S` right after reset (10_state.md R35; 70_reset_and_hazards.md R180). -/
def Control.reset : Control where
  prevSp := 0#32
  iacc := 0#32
  ien := false
  iest := 0#32
  hist := Vector.replicate histN 0#32
  ticks := 0
  fatal := false

/-- The machine right after a power-up reset released with the configuration `c` (70_reset_and_hazards.md R180, R182, R184): the record
`S` at its reset values, no response, no external request made (log entries 3, 4, 6, 7). -/
def State.resetWith (c : Config) : State where
  ctl := Control.reset
  cfg := c
  inbox := []
  resp := none
  outbox := []
  writeAnswers := []
  readAnswers := []
  adcAnswers := []
  drawn := 0

/-- The machine right after reset, released with the example configuration EX of 95_test_vectors.md (DESIGN CHOICE, log entry 1). -/
def State.reset : State := State.resetWith Config.ex

end Sys2Proof.Machine
end

