-- ==== Sys2Proof/Machine/Flags.lean ====
section
/-! DEFINITION. Status codes and the response header with its flags `SAT` and `BOOL` (30_encoding.md R68 to R71; 10_state.md R32). The
PCC has no condition codes: these flags are fields of the response, not state. -/

namespace Sys2Proof.Machine

/-- The status codes (30_encoding.md R70). -/
def Status.code : Status → Byte
  | .ok => 0x00#8
  | .transport => 0x01#8
  | .checksum => 0x02#8
  | .ack => 0x03#8
  | .illegal => 0x10#8
  | .operand => 0x11#8
  | .range => 0x12#8
  | .fatal => 0x1F#8

/-- The status a driver's answer is passed through as (R70; 60_exceptions.md R164). -/
def driverStatus : DriverStatus → Status
  | .ok => .ok
  | .transport => .transport
  | .checksum => .checksum
  | .ack => .ack

/-- `RS0`: `ST` in bits 7 to 0, `SAT` in bit 8, `BOOL` in bit 9, bits 31 to 10 zero (R68). -/
def statusWord (st : Status) (sat bool : Bool) : Word :=
  ((0#22 ++ BitVec.ofBool bool) ++ BitVec.ofBool sat) ++ st.code

/-- A response; result words and flags not named are 0 (R68). -/
def response (st : Status) (q1 q2 q3 q4 : Word := 0#32) (sat bool : Bool := false) : Response :=
  ⟨statusWord st sat bool, q1, q2, q3, q4⟩

/-- The response to a PCC fault: the code, with every result word and flag 0 (R71). -/
def faultResponse (st : Status) : Response := response st

/-- `ST` = `RS0[7:0]`. -/
def Response.st (r : Response) : Byte := r.rs0.extractLsb' 0 8

/-- `SAT` = `RS0[8]`. -/
def Response.sat (r : Response) : Bool := r.rs0.getLsbD 8

/-- `BOOL` = `RS0[9]`. -/
def Response.bool (r : Response) : Bool := r.rs0.getLsbD 9

end Sys2Proof.Machine
end

