-- ==== Sys2Proof/Machine/Operands.lean ====
section
/-! DEFINITION. The operand kinds of 30_encoding.md R62 and the operand checks of 60_exceptions.md R162. An f32 operand is the word
itself, its bit pattern (R62); the other two kinds are read here. -/

namespace Sys2Proof.Machine

/-- An `i32` operand: the two's-complement value of the word (30_encoding.md R62). -/
def i32 (w : Word) : Int := w.toInt

/-- A `u32` operand: the unsigned value of the word (R62). -/
def u32 (w : Word) : Nat := w.toNat

/-- The word of an int32 result, in two's complement (R62, R69). -/
def ofI32 (n : Int) : Word := BitVec.ofInt 32 n

/-- Every f32 operand is finite; otherwise the request ends with `E_OPERAND` (60_exceptions.md R162). -/
def allFinite (xs : List F32) : Bool := xs.all finite

/-- The least `LEN` that `CRC8` takes (30_encoding.md R67). -/
def crc8MinLen : Nat := 1

/-- The least `LEN` that `CRC8_CHECK` takes (R67). -/
def crc8CheckMinLen : Nat := 2

end Sys2Proof.Machine
end

