-- ==== Sys2Proof/Machine/Ops.lean ====
section
/-! DEFINITION. The operations every request goes through: serving it, writing its response, raising a PCC fault (60_exceptions.md
R160 to R171), the driver and ADC ports (30_encoding.md R79, R80), the history window (20_memory.md R40 to R43), waiting and
reset (70_reset_and_hazards.md R180 to R185). -/

namespace Sys2Proof.Machine

/-- `respond(...)`: write the response and end the request (00_scope.md R14; 30_encoding.md R68). -/
def respond (r : Response) (s : State) : State := { s with resp := some r }

/-- `commit`: make the pending copy of `S` the state (00_scope.md R14). -/
def commit (ctl : Control) (s : State) : State := { s with ctl := ctl }

/-- Taking a PCC fault, `raise E`: the pending copy of `S` is abandoned, so the record `S` is as before the request, and the response
carries the code with results 0. Nothing is saved and nothing vectors (60_exceptions.md R160, R169; 00_scope.md R14). There is
no return from a fault: the next request is accepted at once (R170). -/
def raise (st : Status) (s : State) : State := respond (faultResponse st) s

/-- `E_FATAL` on an unrecognised selector: set `S.fatal`, commit, respond with results 0 (60_exceptions.md R166). -/
def raiseFatal (s : State) : State := raise .fatal (commit { s.ctl with fatal := true } s)

/-- Serve one request whose effect is `f`. A configuration that breaks a constraint has no meaning (00_scope.md R9); while `S.fatal` is
set every request ends at once with `E_FATAL`, results 0 and no state change, and makes no external request (60_exceptions.md
R166, R168; 30_encoding.md R65). -/
def serve (f : State → State) (s : State) : Host.Outcome State Fault Refusal :=
  if admitted s.cfg then .next (if s.ctl.fatal then raise .fatal s else f s)
  else .refused .configuration

/-- The operand check of 60_exceptions.md R162: when it fails the request ends with `E_OPERAND`, before any computation and with no
external request (R168). -/
def checkOperands (good : Bool) (f : State → State) (s : State) : State :=
  if good then f s else raise .operand s

/-- A request whose header names no operation: `E_ILLEGAL`, unless `S.fatal` is set (60_exceptions.md R161, R168; 30_encoding.md R65,
R66). -/
def rejectHeader (e : DecodeError) (s : State) : Host.Outcome State Fault Refusal :=
  match e with
  | .reservedOp _ => serve (raise .illegal) s
  | .nonzeroSel => serve (raise .illegal) s
  | .nonzeroLen => serve (raise .illegal) s

/-- `Drv.write(addr, bytes)`: the request goes out and the driver answers with the answer lined up for it, else with a free value
(30_encoding.md R79; log entries 3, 7). -/
def drvWrite (addr : Byte) (bytes : List Byte) (s : State) : DriverStatus × State :=
  (s.writeAnswers.head?.getD (Config.freeDriverStatus s.drawn),
   { s with outbox := s.outbox ++ [.write addr bytes], writeAnswers := s.writeAnswers.tail, drawn := s.drawn + 1 })

/-- `Drv.read_amux(sel)`: as `drvWrite`; the answer is a status and a raw value (30_encoding.md R79). -/
def drvReadAmux (sel : Byte) (s : State) : (DriverStatus × Word) × State :=
  (s.readAnswers.head?.getD (Config.freeDriverStatus s.drawn, Config.freeRaw s.drawn),
   { s with outbox := s.outbox ++ [.readAmux sel], readAnswers := s.readAnswers.tail, drawn := s.drawn + 1 })

/-- `Adc.sample(ch)`: as `drvWrite`; the answer is a binary32 value, which may be non-finite (30_encoding.md R80). -/
def adcSample (ch : Nat) (s : State) : F32 × State :=
  (s.adcAnswers.head?.getD (Config.freeSample s.drawn),
   { s with outbox := s.outbox ++ [.sample ch], adcAnswers := s.adcAnswers.tail, drawn := s.drawn + 1 })

/-- `zero_fill()` (20_memory.md R42). -/
def zeroFill : Vector F32 histN := Vector.replicate histN 0#32

/-- `push(v)`: entry `i` takes entry `i + 1`, entry 49 takes `v`; the oldest is discarded (20_memory.md R41). -/
def push (v : F32) (h : Vector F32 histN) : Vector F32 histN :=
  Vector.ofFn fun i => if hi : i.val + 1 < histN then h[i.val + 1] else v

/-- `earliest_valid = S.hist[49 - min(S.ticks, 49)]`, the oldest sample collected since the last set-point change (20_memory.md R43). -/
def earliestValid (h : Vector F32 histN) (ticks : Nat) : F32 := h[49 - min ticks 49]'(by unfold histN; omega)

/-- With no move of the host pending the PCC waits (70_reset_and_hazards.md R182). -/
def idle (s : State) : Host.Outcome State Fault Refusal :=
  if admitted s.cfg then .next s else .refused .configuration

/-- Reset, released with the configuration `c`: every field of `S` takes its reset value; no external request is made and the external
agents are not touched (70_reset_and_hazards.md R180 to R185). The response port is empty again (log entry 6). -/
def takeReset (c : Config) (s : State) : Host.Outcome State Fault Refusal :=
  if admitted c then .next { s with ctl := Control.reset, cfg := c, resp := none }
  else .refused .configuration

/-- Reset asserted while a request is in progress: the request is abandoned and its response is never written (R180). Of the external
requests that the request makes in `o`, the first `asked` have gone out (log entry 12). -/
def takeResetDuring (asked : Nat) (c : Config) (s : State) (o : Host.Outcome State Fault Refusal) :
    Host.Outcome State Fault Refusal :=
  match o with
  | .next t => takeReset c { t with outbox := s.outbox ++ (t.outbox.drop s.outbox.length).take asked }
  | .fault e => .fault e
  | .refused e => .refused e

end Sys2Proof.Machine
end

