-- ==== Sys2Proof/Machine/Checksum.lean ====
section
/-! DEFINITION. The Checksum Unit (40_checksum.md): the CRC, `CRC8`, `CRC8_CHECK`. -/

namespace Sys2Proof.Machine

/-- `reflect8(b)`: bit `i` moves to bit `7 - i` (40_checksum.md R91). -/
def reflect8 (b : Byte) : Byte := b.reverse

/-- One of the 8 shift steps of the CRC with the polynomial `poly` (R91). -/
def crcShift (poly : Byte) (c : Byte) : Byte :=
  if c.getLsbD 7 then (c <<< 1) ^^^ poly else c <<< 1

/-- `n` shift steps. -/
def crcShifts (poly : Byte) : Nat → Byte → Byte
  | 0, c => c
  | n + 1, c => crcShifts poly n (crcShift poly c)

/-- One byte of the stream: fold it in, then 8 shift steps (R91). -/
def crcByte (cfg : Config) (c b : Byte) : Byte :=
  crcShifts cfg.crcPoly 8 (c ^^^ (if cfg.crcRefIn then reflect8 b else b))

/-- `crc8(D)`, the bytes in stream order (R91). -/
def crc8 (cfg : Config) (d : List Byte) : Byte :=
  let c := d.foldl (crcByte cfg) cfg.crcInit
  (if cfg.crcRefOut then reflect8 c else c) ^^^ cfg.crcXorOut

/-- `zext_32` of a checksum. -/
def zext32 (b : Byte) : Word := b.setWidth 32

/-- The effect of `CRC8` (40_checksum.md R90). -/
def crc8Effect (data : List Byte) : State → State :=
  checkOperands (decide (crc8MinLen ≤ data.length)) fun s =>
    respond (response .ok (q1 := zext32 (crc8 s.cfg data))) s

/-- The effect of `CRC8_CHECK`: recompute over all bytes but the last and compare with the last (40_checksum.md R92). -/
def crc8CheckEffect (data : List Byte) : State → State :=
  checkOperands (decide (crc8CheckMinLen ≤ data.length)) fun s =>
    respond (response .ok (q1 := zext32 (crc8 s.cfg data.dropLast))
      (bool := data.getLast? == some (crc8 s.cfg data.dropLast))) s

/-- `CRC8` (40_checksum.md R90). -/
def execCrc8 (data : List Byte) (s : State) : Host.Outcome State Fault Refusal := serve (crc8Effect data) s

/-- `CRC8_CHECK` (40_checksum.md R92). -/
def execCrc8Check (data : List Byte) (s : State) : Host.Outcome State Fault Refusal := serve (crc8CheckEffect data) s

end Sys2Proof.Machine
end

