-- ==== Sys2Proof/Machine/Exact.lean ====
section
/-! DEFINITION. Exact rational arithmetic with one final rounding (00_scope.md R13). -/

namespace Sys2Proof.Machine

/-- `rha(q)`: the nearest integer, ties away from zero, as `sign(q) · floor(|q| + 1/2)` (R13; D23). -/
def rha (q : Rat) : Int :=
  if q < 0 then -(-q + 1 / 2).floor else (q + 1 / 2).floor

/-- `clamp(x, lo, hi) = min(max(x, lo), hi)` (R13). -/
def clamp (x lo hi : Rat) : Rat := min (max x lo) hi

end Sys2Proof.Machine
end

