-- ==== Sys2Proof/Machine/Frame.lean ====
section
/-! DEFINITION. The actuator command frame (30_encoding.md R76 to R78, R81). The PCC hands the driver a register address and a payload;
the driver frames them with the same checksum function (40_checksum.md R94). -/

namespace Sys2Proof.Machine

/-- The three command types of a frame (30_encoding.md R76). -/
inductive FrameCommand where
  | statusAcquisition
  | dataWrite
  | dataRead
  deriving DecidableEq, Repr

/-- The five named registers of the actuator (60_exceptions.md R176). -/
inductive ActuatorRegister where
  | command
  | status
  | ilimDac
  | vdac
  | amux
  deriving DecidableEq, Repr

/-- Byte 0 of a frame (R76). -/
def FrameCommand.byte (cfg : Config) : FrameCommand → Byte
  | .statusAcquisition => cfg.cmdStatus
  | .dataWrite => cfg.cmdWrite
  | .dataRead => cfg.cmdRead

/-- Byte 1 of a frame (R76). -/
def ActuatorRegister.address (cfg : Config) : ActuatorRegister → Byte
  | .command => cfg.regCommand
  | .status => cfg.regStatus
  | .ilimDac => cfg.regIlimDac
  | .vdac => cfg.regVdac
  | .amux => cfg.regAmux

/-- The width of a register in bytes (00_scope.md R9; R176). -/
def ActuatorRegister.width (cfg : Config) : ActuatorRegister → Nat
  | .command => cfg.wCommand
  | .status => cfg.wStatus
  | .ilimDac => cfg.wIlimDac
  | .vdac => cfg.wVdac
  | .amux => cfg.wAmux

/-- A byte sequence with its checksum appended: "checksum is an 8-bit CRC over all preceding bytes of the frame" (R77). -/
def withChecksum (cfg : Config) (d : List Byte) : List Byte := d ++ [crc8 cfg d]

/-- `[command_byte][register_address][payload bytes...][checksum_byte]` (R76, R77). -/
def frame (cfg : Config) (cmd addr : Byte) (payload : List Byte) : List Byte :=
  withChecksum cfg (cmd :: addr :: payload)

/-- A frame is valid when its last byte is the checksum of the bytes before it; inbound frames have the same layout (R77, R81). -/
def frameValid (cfg : Config) (f : List Byte) : Bool :=
  decide (2 ≤ f.length) && f.getLast? == some (crc8 cfg f.dropLast)

/-- Byte `k` of a word, byte 0 the least significant. -/
def byteOf (w : Word) (k : Nat) : Byte := w.extractLsb' (8 * k) 8

/-- The payload of a write to the Voltage DAC: the code as `W_VDAC` bytes of its two's complement, in `PAYLOAD_ORDER` (R78). -/
def payloadVdac (cfg : Config) (code : Word) : List Byte :=
  (List.range cfg.wVdac).map fun j =>
    match cfg.payloadOrder with
    | .msbFirst => byteOf code (cfg.wVdac - 1 - j)
    | .lsbFirst => byteOf code j

/-- The frame the driver puts on the transport for a write the PCC asks for, `[CMD_WRITE][addr][bytes][checksum]` (R78). The register
sequences of the driver's other requests are not given (91_not_in_source.md N22). -/
def writeFrame (cfg : Config) (addr : Byte) (bytes : List Byte) : List Byte :=
  frame cfg (FrameCommand.dataWrite.byte cfg) addr bytes

end Sys2Proof.Machine
end

