-- ==== Sys2Proof/Machine/Codec.lean ====
section
/-! DEFINITION. The Voltage/DAC Codec (41_dac_codec.md): `V2DAC`, `DAC2V`, `AMUX2V`, `SETV`. Its arithmetic is exact over the rationals
with one final rounding (00_scope.md R13). -/

namespace Sys2Proof.Machine

/-- The exact code of a voltage inside the clamp interval, before rounding: the affine map that sends `V_MIN` to `CODE_MIN` and `V_MAX`
to `CODE_MAX` (41_dac_codec.md R101). -/
def codeOfVolts (cfg : Config) (q : Rat) : Rat :=
  (cfg.codeMin : Rat) + (q - vMin) * ((cfg.codeMax : Rat) - cfg.codeMin) / (vMax - vMin)

/-- The inverse affine map, not clamped (41_dac_codec.md R102). -/
def voltsOfCode (cfg : Config) (c : Int) : Rat :=
  vMin + ((c : Rat) - cfg.codeMin) * (vMax - vMin) / ((cfg.codeMax : Rat) - cfg.codeMin)

/-- `sat` of `v2dac(v)`: the voltage lies outside [`V_MIN`, `V_MAX`] (R101). -/
def v2dacSat (v : F32) : Bool := decide (exact v < vMin) || decide (vMax < exact v)

/-- `code` of `v2dac(v)`: clamp, affine map, round to nearest with ties away from zero (R101). -/
def v2dacCode (cfg : Config) (v : F32) : Int := rha (codeOfVolts cfg (clamp (exact v) vMin vMax))

/-- The effect of `V2DAC` (41_dac_codec.md R100). -/
def v2dacEffect (volts : F32) : State → State :=
  checkOperands (allFinite [volts]) fun s =>
    respond (response .ok (q1 := ofI32 (v2dacCode s.cfg volts)) (sat := v2dacSat volts)) s

/-- The effect of `DAC2V`: always `OK`, the code is not clamped (41_dac_codec.md R102). -/
def dac2vEffect (code : Word) (s : State) : State :=
  respond (response .ok (q1 := rne32 (voltsOfCode s.cfg (i32 code)))) s

/-- The channel a selector code names, if any (41_dac_codec.md R103). -/
def channelOf (cfg : Config) (sel : Byte) : Option Channel :=
  if sel = cfg.amuxSel.vout then some .vout
  else if sel = cfg.amuxSel.v1p25 then some .v1p25
  else if sel = cfg.amuxSel.iout then some .iout
  else if sel = cfg.amuxSel.v1p65 then some .v1p65
  else none

/-- The quantity of a channel: `AMUX_OFFSET[c] + AMUX_GAIN[c] · raw`, exact, rounded once (R103). -/
def amuxVolts (cfg : Config) (ch : Channel) (raw : Word) : F32 :=
  rne32 (cfg.amuxOffset.get ch + cfg.amuxGain.get ch * (u32 raw : Rat))

/-- The effect of `AMUX2V` on a recognised channel (R103). -/
def amux2vChannel (ch : Channel) (raw : Word) (s : State) : State :=
  if finite (amuxVolts s.cfg ch raw) then respond (response .ok (q1 := amuxVolts s.cfg ch raw)) s else raise .range s

/-- The effect of `AMUX2V`: an unrecognised selector is fatal (41_dac_codec.md R103; 60_exceptions.md R166). -/
def amux2vEffect (sel : Byte) (raw : Word) (s : State) : State :=
  match channelOf s.cfg sel with
  | none => raiseFatal s
  | some ch => amux2vChannel ch raw s

/-- The word of the code that `SETV` hands to the driver and answers (R104). -/
def setvCode (cfg : Config) (volts : F32) : Word := ofI32 (v2dacCode cfg volts)

/-- The driver's answer to the one write of `SETV`, and the state after it (R104). -/
def setvWrite (volts : F32) (s : State) : DriverStatus × State :=
  drvWrite s.cfg.regVdac (payloadVdac s.cfg (setvCode s.cfg volts)) s

/-- The effect of `SETV`: one driver write of the clamped code; its status is passed through, and the code and `SAT` are reported also when
the write fails (41_dac_codec.md R104; 30_encoding.md R71). -/
def setvEffect (volts : F32) : State → State :=
  checkOperands (allFinite [volts]) fun s =>
    respond (response (driverStatus (setvWrite volts s).1) (q1 := setvCode s.cfg volts) (sat := v2dacSat volts))
      (setvWrite volts s).2

/-- `V2DAC` (41_dac_codec.md R100). -/
def execV2dac (volts : F32) (s : State) : Host.Outcome State Fault Refusal := serve (v2dacEffect volts) s

/-- `DAC2V` (41_dac_codec.md R102). -/
def execDac2v (code : Word) (s : State) : Host.Outcome State Fault Refusal := serve (dac2vEffect code) s

/-- `AMUX2V` (41_dac_codec.md R103). -/
def execAmux2v (sel : Byte) (raw : Word) (s : State) : Host.Outcome State Fault Refusal := serve (amux2vEffect sel raw) s

/-- `SETV` (41_dac_codec.md R104). -/
def execSetv (volts : F32) (s : State) : Host.Outcome State Fault Refusal := serve (setvEffect volts) s

end Sys2Proof.Machine
end

