-- ==== Sys2Proof/Machine/LoadMonitor.lean ====
section
/-! DEFINITION. The Load-Presence Monitor (42_load_monitor.md): `LOAD_CMP` and `LOAD_CHECK`. -/

namespace Sys2Proof.Machine

/-- `d`, the absolute binary32 difference (42_load_monitor.md R120). -/
def loadDiff (a b : F32) : F32 := fabs (fsub a b)

/-- `connected`: the difference does not exceed `LOAD_TOL` (R120). -/
def connected (cfg : Config) (d : F32) : Bool := !fgt d cfg.loadTol

/-- The effect of `LOAD_CMP` (42_load_monitor.md R120). -/
def loadCmpEffect (vAct vExt : F32) : State → State :=
  checkOperands (allFinite [vAct, vExt]) fun s =>
    if finite (loadDiff vAct vExt) then
      respond (response .ok (q1 := loadDiff vAct vExt) (bool := connected s.cfg (loadDiff vAct vExt))) s
    else raise .range s

/-- The part of `LOAD_CHECK` after the ADC has answered `b` to the converted Vout `a` (42_load_monitor.md R121). -/
def loadCheckCompare (a b : F32) (s : State) : State :=
  if finite b && finite (loadDiff a b) then
    respond (response .ok (q1 := loadDiff a b) (q2 := a) (q3 := b) (bool := connected s.cfg (loadDiff a b))) s
  else raise .range s

/-- The part of `LOAD_CHECK` after a Vout read that succeeded with the raw value `raw`: convert, and when the voltage is finite sample the
ADC and compare (42_load_monitor.md R121). -/
def loadCheckRead (raw : Word) (s : State) : State :=
  if finite (amuxVolts s.cfg .vout raw) then
    loadCheckCompare (amuxVolts s.cfg .vout raw) (adcSample s.cfg.loadAdcCh s).1 (adcSample s.cfg.loadAdcCh s).2
  else raise .range s

/-- The driver's answer to the Vout read of `LOAD_CHECK`, and the state after it (R121). -/
def voutRead (s : State) : (DriverStatus × Word) × State := drvReadAmux s.cfg.amuxSel.vout s

/-- The effect of `LOAD_CHECK`: read Vout through the AMUX; on a driver error answer its status, results 0, without sampling the ADC
(42_load_monitor.md R121; 30_encoding.md R71). -/
def loadCheckEffect (s : State) : State :=
  if (voutRead s).1.1 = .ok then loadCheckRead (voutRead s).1.2 (voutRead s).2
  else respond (response (driverStatus (voutRead s).1.1)) (voutRead s).2

/-- `LOAD_CMP` (42_load_monitor.md R120). -/
def execLoadCmp (vAct vExt : F32) (s : State) : Host.Outcome State Fault Refusal := serve (loadCmpEffect vAct vExt) s

/-- `LOAD_CHECK` (42_load_monitor.md R121). -/
def execLoadCheck (s : State) : Host.Outcome State Fault Refusal := serve loadCheckEffect s

end Sys2Proof.Machine
end

