-- ==== Sys2Proof/Machine/Pid.lean ====
section
/-! DEFINITION. The Adaptive PID Engine (43_pid.md): `PID_TICK`, its steps a definition each, and `BOOT_LOOKUP`. -/

namespace Sys2Proof.Machine

/-- 50.0, the constant `window_size` as binary32 (43_pid.md R137). -/
def windowSize : F32 := 0x42480000#32

/-- What the scan of the bootstrap table finds: the entry at which closeness stopped improving, with its index, if it did; the last entry
of the table with its index; and every binary32 value the scan computed. -/
structure BootScan where
  stopped : Option (BootEntry × Nat)
  last : BootEntry × Nat
  vals : List F32
  deriving DecidableEq, Repr

/-- The distance of an entry from `d` (43_pid.md R142). -/
def bootDist (d : F32) (e : BootEntry) : F32 := fabs (fsub e.diff d)

/-- The loop of `boot`, at the entry `p` of index `i` with the entries after it still ahead: stop at the first entry that is not strictly
closer than the one before it (R142). -/
def bootScan (d : F32) (i : Nat) (p : BootEntry) : List BootEntry → BootScan
  | [] => { stopped := none, last := (p, i), vals := [] }
  | e :: rest =>
    if fge (bootDist d e) (bootDist d p) then
      { stopped := some (p, i), last := (p, i), vals := [bootDist d e, bootDist d p] }
    else
      let r := bootScan d (i + 1) e rest
      { r with vals := bootDist d e :: bootDist d p :: r.vals }

/-- The result of `boot`: the seed, the index of the entry used if any, and every binary32 value computed (log entry 8). -/
structure BootResult where
  seed : F32
  idx : Option Nat
  vals : List F32
  deriving DecidableEq, Repr

/-- The entry `boot` uses: where the scan stopped, else what `BOOT_BEYOND` says (R142, R143). -/
def bootEntry (beyond : BootBeyond) (r : BootScan) : Option (BootEntry × Nat) :=
  match r.stopped with
  | some e => some e
  | none =>
    match beyond with
    | .zero => none
    | .clampLast => some r.last

/-- `boot(set, out)` (43_pid.md R142). An admitted table is never empty (00_scope.md R9). -/
def boot (cfg : Config) (set out : F32) : BootResult :=
  let d := fsub set out
  match cfg.bootTable with
  | [] => { seed := 0#32, idx := none, vals := [d] }
  | p :: rest =>
    let r := bootScan d 0 p rest
    match bootEntry cfg.bootBeyond r with
    | none => { seed := 0#32, idx := none, vals := d :: r.vals }
    | some (e, i) => { seed := fdiv e.contrib cfg.ki, idx := some i, vals := d :: fdiv e.contrib cfg.ki :: r.vals }

/-- Step 1, the set-point-change reset (43_pid.md R132). -/
def tickReset (set : F32) (c : Control) : Control :=
  if feq set c.prevSp then c
  else { c with hist := zeroFill, ticks := 0, ien := false, iacc := 0#32, iest := 0#32, prevSp := set }

/-- The relative deviation `rel` of step 3 (R134). -/
def relDeviation (e set : F32) : F32 := fabs (fdiv e set)

/-- Whether step 3 evaluates its gate: the integral is off and the set point is not zero (R134, R135). -/
def gateEvaluated (set : F32) (c : Control) : Bool := !c.ien && !feq set 0#32

/-- Whether the gate of step 3 opens (R134). -/
def gateOpens (cfg : Config) (e set : F32) (c : Control) : Bool :=
  gateEvaluated set c && fle (relDeviation e set) cfg.integThresh

/-- Step 3, the integral bootstrap gate (R134, R135). -/
def tickGate (cfg : Config) (e set out : F32) (c : Control) : Control :=
  if gateOpens cfg e set c then
    { c with iacc := (boot cfg set out).seed, iest := (boot cfg set out).seed, ien := true }
  else c

/-- The binary32 values step 3 computes. -/
def gateVals (cfg : Config) (e set out : F32) (c : Control) : List F32 :=
  (if gateEvaluated set c then [relDeviation e set] else []) ++
  (if gateOpens cfg e set c then (boot cfg set out).vals else [])

/-- The candidate of step 4 (43_pid.md R136). -/
def candidate (cfg : Config) (e : F32) (c : Control) : F32 := fadd c.iacc (fmul e cfg.dt)

/-- The deviation `dev` of step 4 (R136). -/
def deviation (cfg : Config) (e : F32) (c : Control) : F32 :=
  fabs (fsub (fmul cfg.ki (candidate cfg e c)) (fmul cfg.ki c.iest))

/-- Step 4, the integral accumulation gate: a candidate that deviates too far is discarded, not clipped (R136). -/
def tickAccumulate (cfg : Config) (e : F32) (c : Control) : Control :=
  if c.ien && fle (deviation cfg e c) cfg.integMaxDev then { c with iacc := candidate cfg e c } else c

/-- The binary32 values step 4 computes. -/
def accumulateVals (cfg : Config) (e : F32) (c : Control) : List F32 :=
  if c.ien then
    [fmul e cfg.dt, candidate cfg e c, fmul cfg.ki (candidate cfg e c), fmul cfg.ki c.iest, deviation cfg e c]
  else []

/-- Step 5's push (43_pid.md R137). -/
def tickPush (e : F32) (c : Control) : Control := { c with hist := push e c.hist }

/-- Step 5's difference between the newest and the earliest valid sample, after the push and before the tick count (R137; 20_memory.md
R43). -/
def windowDiff (c : Control) : F32 := fsub c.hist[49] (earliestValid c.hist c.ticks)

/-- The derivative term's divisor (R137). -/
def windowSpan (cfg : Config) : F32 := fmul windowSize cfg.dt

/-- Step 5's derivative (R137). -/
def derivative (cfg : Config) (c : Control) : F32 := fdiv (windowDiff c) (windowSpan cfg)

/-- Step 6's tick count, saturating at 50 (43_pid.md R139). -/
def tickCount (c : Control) : Control := { c with ticks := min (c.ticks + 1) 50 }

/-- The four results of a tick (43_pid.md R138). -/
structure PidOutput where
  total : F32
  kp : F32
  ki : F32
  kd : F32
  deriving DecidableEq, Repr

/-- Step 6's output, from the error and the record after step 5 (R138). -/
def pidOutput (cfg : Config) (e : F32) (c : Control) : PidOutput :=
  let kp := fmul cfg.kp e
  let ki := fmul cfg.ki c.iacc
  let kd := fmul cfg.kd (derivative cfg c)
  { total := fadd (fadd kp ki) kd, kp := kp, ki := ki, kd := kd }

/-- The binary32 values steps 5 and 6 compute. -/
def outputVals (cfg : Config) (e : F32) (c : Control) : List F32 :=
  let o := pidOutput cfg e c
  [windowDiff c, windowSpan cfg, derivative cfg c, o.kp, o.ki, o.kd, fadd o.kp o.ki, o.total]

/-- Step 2, the error (43_pid.md R133). -/
def tickError (cur set : F32) : F32 := fsub set cur

/-- The record after steps 1 to 5, before the tick count (43_pid.md R130). -/
def tickToPush (cfg : Config) (cur set out : F32) (c : Control) : Control :=
  let e := tickError cur set
  tickPush e (tickAccumulate cfg e (tickGate cfg e set out (tickReset set c)))

/-- The record a tick commits. -/
def tickNext (cfg : Config) (cur set out : F32) (c : Control) : Control := tickCount (tickToPush cfg cur set out c)

/-- The results of a tick. -/
def tickOutput (cfg : Config) (cur set out : F32) (c : Control) : PidOutput :=
  pidOutput cfg (tickError cur set) (tickToPush cfg cur set out c)

/-- Every binary32 value a tick computes; `E_RANGE` when one is not finite (43_pid.md R140; log entry 8). -/
def tickVals (cfg : Config) (cur set out : F32) (c : Control) : List F32 :=
  let e := tickError cur set
  let c1 := tickReset set c
  let c3 := tickGate cfg e set out c1
  e :: (gateVals cfg e set out c1 ++ accumulateVals cfg e c3 ++ outputVals cfg e (tickToPush cfg cur set out c))

/-- The response of a completed tick (30_encoding.md R69). -/
def tickResponse (o : PidOutput) : Response := response .ok (q1 := o.total) (q2 := o.kp) (q3 := o.ki) (q4 := o.kd)

/-- The effect of `PID_TICK`: all six steps and commit, or a fault that leaves `S` as it was (43_pid.md R130, R140). -/
def pidTickEffect (cur set out : F32) : State → State :=
  checkOperands (allFinite [cur, set, out]) fun s =>
    if allFinite (tickVals s.cfg cur set out s.ctl) then
      respond (tickResponse (tickOutput s.cfg cur set out s.ctl)) (commit (tickNext s.cfg cur set out s.ctl) s)
    else raise .range s

/-- The word of the table index `BOOT_LOOKUP` answers: 0xFFFFFFFF when no entry was used (30_encoding.md R69). -/
def indexWord : Option Nat → Word
  | some i => BitVec.ofNat 32 i
  | none => 0xFFFFFFFF#32

/-- The effect of `BOOT_LOOKUP`: the seed and the index of the entry used (43_pid.md R144). -/
def bootLookupEffect (set out : F32) : State → State :=
  checkOperands (allFinite [set, out]) fun s =>
    if allFinite (boot s.cfg set out).vals then
      respond (response .ok (q1 := (boot s.cfg set out).seed) (q2 := indexWord (boot s.cfg set out).idx)) s
    else raise .range s

/-- `PID_TICK` (43_pid.md R130). -/
def execPidTick (cur set out : F32) (s : State) : Host.Outcome State Fault Refusal := serve (pidTickEffect cur set out) s

/-- `BOOT_LOOKUP` (43_pid.md R144). -/
def execBootLookup (set out : F32) (s : State) : Host.Outcome State Fault Refusal := serve (bootLookupEffect set out) s

end Sys2Proof.Machine
end

