-- ==== Sys2Proof/Machine/Dispatch.lean ====
section
/-! DEFINITION. One arm per operation of the PCC (30_encoding.md R64). -/

namespace Sys2Proof.Machine

def exec (i : Instr) (s : State) : Host.Outcome State Fault Refusal :=
  match i with
  | .pidTick cur set out => Sys2Proof.Machine.execPidTick cur set out s
  | .bootLookup set out => Sys2Proof.Machine.execBootLookup set out s
  | .crc8 data => Sys2Proof.Machine.execCrc8 data s
  | .crc8Check data => Sys2Proof.Machine.execCrc8Check data s
  | .v2dac volts => Sys2Proof.Machine.execV2dac volts s
  | .dac2v code => Sys2Proof.Machine.execDac2v code s
  | .amux2v sel raw => Sys2Proof.Machine.execAmux2v sel raw s
  | .setv volts => Sys2Proof.Machine.execSetv volts s
  | .loadCmp vAct vExt => Sys2Proof.Machine.execLoadCmp vAct vExt s
  | .loadCheck => Sys2Proof.Machine.execLoadCheck s

end Sys2Proof.Machine
end

