-- ==== Sys2Proof/Machine/Step.lean ====
section
/-! DEFINITION. One step of the PCC: it takes the host's next move (00_scope.md R7, R8). A request runs to completion in one step
(20_memory.md R50, R51; 70_reset_and_hazards.md R188). -/

namespace Sys2Proof.Machine

/-- Serve a request: header decode, then the operation's rule (30_encoding.md R65). -/
def runRequest (r : Request) (s : State) : Host.Outcome State Fault Refusal :=
  match decode r with
  | .ok i => exec i s
  | .error e => rejectHeader e s

/-- Take the host's next move; with none pending, wait (70_reset_and_hazards.md R180, R182). -/
def step (s : State) : Host.Outcome State Fault Refusal :=
  match s.inbox with
  | [] => idle s
  | .request r :: rest => runRequest r { s with inbox := rest }
  | .reset c :: rest => takeReset c { s with inbox := rest }
  | .abandon r asked c :: rest =>
    takeResetDuring asked c { s with inbox := rest } (runRequest r { s with inbox := rest })

/-- The state in which the host's next move is the request whose bits are `w` (log entry 4). -/
def State.withFetchWord (s : State) (nbits w : Nat) : State :=
  { s with inbox := .request (Request.ofBits nbits w) :: s.inbox }

end Sys2Proof.Machine
end

