-- ==== Sys2Proof/Machine/Asm.lean ====
section
/-! DEFINITION. The text form of a request (30_encoding.md R72, R73): one line, the mnemonic, operands separated by commas, an
optional comment after `;`. What R72 and R73 leave open is fixed in log entry 14. -/

namespace Sys2Proof.Machine

/-- The mnemonics of the opcode map (30_encoding.md R64). -/
def mnemonic : Op → String
  | .pidTick => "PID_TICK"
  | .bootLookup => "BOOT_LOOKUP"
  | .crc8 => "CRC8"
  | .crc8Check => "CRC8_CHECK"
  | .v2dac => "V2DAC"
  | .dac2v => "DAC2V"
  | .amux2v => "AMUX2V"
  | .setv => "SETV"
  | .loadCmp => "LOAD_CMP"
  | .loadCheck => "LOAD_CHECK"

/-- A blank of the text form. -/
def isBlank (c : Char) : Bool := c == ' ' || c == '\t'

/-- Text without the blanks at its two ends. -/
def trimBlanks (l : List Char) : List Char := ((l.dropWhile isBlank).reverse.dropWhile isBlank).reverse

/-- The pieces of a text between commas; a text without a comma is one piece. -/
def splitCommas : List Char → List (List Char)
  | [] => [[]]
  | c :: rest =>
    if c == ',' then [] :: splitCommas rest
    else
      match splitCommas rest with
      | [] => [[c]]
      | p :: ps => (c :: p) :: ps

/-- The decimal digits, each at the place of its value. -/
def decSymbols : List Char := "0123456789".toList

/-- The hexadecimal digits, each at the place of its value. -/
def hexSymbols : List Char := "0123456789ABCDEF".toList

/-- The value of a decimal digit. -/
def decDigit (c : Char) : Option Nat := decSymbols.findIdx? fun d => d == c

/-- The value of a hexadecimal digit of either case. -/
def hexDigit (c : Char) : Option Nat := hexSymbols.findIdx? fun d => d == c.toUpper

/-- The value of the digits of a text in the given base after those already read; none on a character that is no digit. -/
def digitsFrom (base : Nat) (digit : Char → Option Nat) (acc : Nat) : List Char → Option Nat
  | [] => some acc
  | c :: rest =>
    match digit c with
    | none => none
    | some v => digitsFrom base digit (acc * base + v) rest

/-- The value of a nonempty text of digits. -/
def digits (base : Nat) (digit : Char → Option Nat) (l : List Char) : Option Nat :=
  if l.isEmpty then none else digitsFrom base digit 0 l

/-- A natural number, decimal or `0x` hexadecimal (R73). -/
def natLiteral : List Char → Option Nat
  | '0' :: 'x' :: rest => digits 16 hexDigit rest
  | l => digits 10 decDigit l

/-- A natural number within `bound` (R73: "a literal out of its range does not assemble"). -/
def boundedLiteral (bound : Nat) (l : List Char) : Option Nat :=
  match natLiteral l with
  | some n => if n ≤ bound then some n else none
  | none => none

/-- A `u32` operand (R73). -/
def u32Literal (l : List Char) : Option Word := (boundedLiteral 0xFFFFFFFF l).map (BitVec.ofNat 32)

/-- A byte of a stream (R73). -/
def byteLiteral (l : List Char) : Option Byte := (boundedLiteral 255 l).map (BitVec.ofNat 8)

/-- An `i32` operand: decimal in [-2^31, 2^31 - 1], or a hexadecimal bit pattern (R73; log entry 14). -/
def i32Literal (l : List Char) : Option Word :=
  match l with
  | '0' :: 'x' :: _ => u32Literal l
  | '-' :: rest =>
    match digits 10 decDigit rest with
    | some n => if n ≤ 2 ^ 31 then some (BitVec.ofInt 32 (-(n : Int))) else none
    | none => none
  | _ =>
    match digits 10 decDigit l with
    | some n => if n < 2 ^ 31 then some (BitVec.ofNat 32 n) else none
    | none => none

/-- An unsigned decimal literal as a numerator and a power of ten: digits, and optionally a point and more digits. -/
def decimalLiteral (l : List Char) : Option (Nat × Nat) :=
  let whole := l.takeWhile (fun c => c != '.')
  match l.dropWhile (fun c => c != '.') with
  | [] => (digits 10 decDigit whole).map fun n => (n, 1)
  | _ :: part =>
    if whole.isEmpty then none
    else (digits 10 decDigit part).bind fun _ =>
      (digits 10 decDigit (whole ++ part)).map fun n => (n, 10 ^ part.length)

/-- The binary32 value of sign `neg` nearest to `n / d`; none when it is not finite (log entry 14). -/
def roundedLiteral (neg : Bool) (v : Nat × Nat) : Option F32 :=
  if finite (withSign neg (rneMag v.1 v.2)) then some (withSign neg (rneMag v.1 v.2)) else none

/-- An f32 operand: a decimal literal, meaning `rne32` of its exact value, or `f:0xHHHHHHHH`, meaning those raw bits (R73). -/
def f32Literal (l : List Char) : Option F32 :=
  match l with
  | 'f' :: ':' :: '0' :: 'x' :: bits =>
    if bits.length = 8 then (digits 16 hexDigit bits).map (BitVec.ofNat 32) else none
  | '-' :: rest => (decimalLiteral rest).bind (roundedLiteral true)
  | _ => (decimalLiteral l).bind (roundedLiteral false)

/-- A selector: one of the four names, meaning the parameter codes, or an integer in [0, 255] (R73). -/
def selectorLiteral (cfg : Config) (l : List Char) : Option Byte :=
  if l == "VOUT".toList then some cfg.amuxSel.vout
  else if l == "V1P25".toList then some cfg.amuxSel.v1p25
  else if l == "IOUT".toList then some cfg.amuxSel.iout
  else if l == "V1P65".toList then some cfg.amuxSel.v1p65
  else byteLiteral l

/-- Every element of a list through a partial function, or none. -/
def mapOption {α β : Type} (f : α → Option β) : List α → Option (List β)
  | [] => some []
  | a :: rest =>
    match f a, mapOption f rest with
    | some b, some bs => some (b :: bs)
    | _, _ => none

/-- The stream of a checksum operation, `[<b0>, <b1>, ...]` (R72); it may be empty. -/
def streamLiteral (l : List Char) : Option (List Byte) :=
  match l with
  | '[' :: rest =>
    if rest.getLast? = some ']' then
      let inside := trimBlanks rest.dropLast
      if inside.isEmpty then some [] else mapOption (fun p => byteLiteral (trimBlanks p)) (splitCommas inside)
    else none
  | _ => none

/-- The operands of an operation from the text after its mnemonic (R63, R72, R73). -/
def parseOperands (cfg : Config) (o : Op) (text : List Char) : Option Instr :=
  let pieces := (splitCommas text).map trimBlanks
  match o, pieces with
  | .pidTick, [a, b, c] =>
    match f32Literal a, f32Literal b, f32Literal c with
    | some cur, some set, some out => some (.pidTick cur set out)
    | _, _, _ => none
  | .bootLookup, [a, b] =>
    match f32Literal a, f32Literal b with
    | some set, some out => some (.bootLookup set out)
    | _, _ => none
  | .crc8, _ => (streamLiteral text).map .crc8
  | .crc8Check, _ => (streamLiteral text).map .crc8Check
  | .v2dac, [a] => (f32Literal a).map .v2dac
  | .dac2v, [a] => (i32Literal a).map .dac2v
  | .amux2v, [a, b] =>
    match selectorLiteral cfg a, u32Literal b with
    | some sel, some raw => some (.amux2v sel raw)
    | _, _ => none
  | .setv, [a] => (f32Literal a).map .setv
  | .loadCmp, [a, b] =>
    match f32Literal a, f32Literal b with
    | some vAct, some vExt => some (.loadCmp vAct vExt)
    | _, _ => none
  | .loadCheck, [[]] => some .loadCheck
  | _, _ => none

/-- The instruction of a line of text, if the line assembles (R72, R73). -/
def assembleInstr (cfg : Config) (line : List Char) : Option Instr :=
  let body := trimBlanks (line.takeWhile fun c => c != ';')
  let name := body.takeWhile fun c => !isBlank c
  match Op.all.find? fun o => (mnemonic o).toList == name with
  | none => none
  | some o =>
    match parseOperands cfg o (trimBlanks (body.dropWhile fun c => !isBlank c)) with
    | some i => if i.wf then some i else none
    | none => none

/-- The request of a line of text, if the line assembles (R72). -/
def assemble (cfg : Config) (line : String) : Option Request := (assembleInstr cfg line.toList).map encode

end Sys2Proof.Machine
end

