-- ==== Sys2Proof/Safety.lean ====
section
/-! DEFINITION. What the claims about the PCC are stated in: the invariants of 10_state.md R28, the responses 30_encoding.md R68 to R71
allow, the host's moves the spec admits, and runs of control ticks (43_pid.md R141). -/

namespace Sys2Proof.Machine

/-- The invariant of the record `S` between requests (10_state.md R28): `S.ticks` is in [0, 50]; an entry of the history not written by a
push since the last zero fill is +0.0; while the integral is off, the accumulator and the estimate are +0.0. -/
structure ControlInv (c : Control) : Prop where
  ticks_le : c.ticks ≤ 50
  unfilled_zero : ∀ i : Fin histN, i.val + c.ticks < 50 → c.hist[i.val] = 0#32
  off_zero : c.ien = false → c.iacc = 0#32 ∧ c.iest = 0#32

/-- Every binary32 value the record `S` holds is finite: no request commits an infinity or a NaN (43_pid.md R140). -/
structure ControlFinite (c : Control) : Prop where
  prevSp : finite c.prevSp = true
  iacc : finite c.iacc = true
  iest : finite c.iest = true
  hist : ∀ i : Fin histN, finite c.hist[i.val] = true

/-- A PCC fault, as opposed to `OK` and the driver statuses (60_exceptions.md R160). -/
def Status.isPccFault : Status → Bool
  | .illegal | .operand | .range | .fatal => true
  | .ok | .transport | .checksum | .ack => false

/-- A response the format allows (30_encoding.md R68, R70, R71): a status of R70 with the two flags and zeros above them, and nothing but
the status on a PCC fault. -/
def LegalResponse (r : Response) : Prop :=
  ∃ st sat bool, r.rs0 = statusWord st sat bool ∧ (st.isPccFault = true → r = faultResponse st)

/-- The invariant of the whole machine: the configuration is one R9 admits, the record `S` satisfies R28 and holds finite values, and the
response port holds a legal response or none. -/
structure StateInv (s : State) : Prop where
  cfg : admitted s.cfg = true
  ctl : ControlInv s.ctl
  fin : ControlFinite s.ctl
  resp : ∀ r, s.resp = some r → LegalResponse r

/-- The core serves requests by their rules: its configuration is admitted and the fatal bit is clear (00_scope.md R9; 60_exceptions.md
R166). -/
abbrev Live (s : State) : Prop := admitted s.cfg = true ∧ s.ctl.fatal = false

/-- A move the spec admits: any request, a reset released with a configuration that R9 admits (93_implementation_defined.md I8 to I20). -/
def HostMove.proper : HostMove → Bool
  | .request _ => true
  | .reset c => admitted c
  | .abandon _ _ c => admitted c

/-- Whether a move asserts reset. -/
def HostMove.asserts : HostMove → Bool
  | .request _ => false
  | .reset _ => true
  | .abandon _ _ _ => true

/-- One completed control tick with the error `e`, from `s` to `t`; `fresh` says whether it changes the set point (43_pid.md R130,
R132). -/
def ErrorTick (e : F32) (fresh : Bool) (s t : State) : Prop :=
  ∃ cur set out r, feq set s.ctl.prevSp = !fresh ∧ fsub set cur = e ∧ exec (.pidTick cur set out) s = .next t ∧
    t.resp = some r ∧ r.st = 0x00#8

/-- `n` consecutive completed control ticks from `s` to `t` with the same error `e` and no set-point change (43_pid.md R141). Before each
tick the host may do what leaves the record `S` and the configuration alone, such as the `SETV` that follows a tick. -/
def ConstantErrorTicks (e : F32) : Nat → State → State → Prop
  | 0, s, t => s = t
  | n + 1, s, t => ∃ s' m, s'.ctl = s.ctl ∧ s'.cfg = s.cfg ∧ ErrorTick e false s' m ∧ ConstantErrorTicks e n m t

/-- Every binary32 value that the pseudocode of `boot` computes is finite (43_pid.md R142): the difference, the distances of the entries
the loop reaches before it returns, and the quotient when an entry is used. -/
def BootFinite (cfg : Config) (set out : F32) : Prop :=
  let entry (k : Nat) : BootEntry := cfg.bootTable.getD k ⟨0#32, 0#32⟩
  let d := fsub set out
  let dist (k : Nat) : F32 := fabs (fsub (entry k).diff d)
  let n := cfg.bootTable.length
  finite d = true ∧
  (∀ k, 2 ≤ n → k < n → (∀ j, j + 1 < k → fge (dist (j + 1)) (dist j) = false) → finite (dist k) = true) ∧
  (∀ k, (boot cfg set out).idx = some k → finite (fdiv (entry k).contrib cfg.ki) = true)

/-- Every binary32 value that the pseudocode of `PID_TICK` computes from the record `c` is finite (43_pid.md R130, R140; that the values of
the table search count is DEDUCED, log entry 8): `rel` when the gate is evaluated, the values of `boot` when it opens, the values
of step 4 when the integral is on, and the error, the values of step 5 and the output. -/
def TickFinite (cfg : Config) (cur set out : F32) (c : Control) : Prop :=
  let c1 : Control :=
    if feq set c.prevSp = true then c
    else { c with hist := Vector.replicate 50 0#32, ticks := 0, ien := false, iacc := 0#32, iest := 0#32, prevSp := set }
  let e := fsub set cur
  let evaluated := !c1.ien && !feq set 0#32
  let rel := fabs (fdiv e set)
  let opens := evaluated && fle rel cfg.integThresh
  let seed := (boot cfg set out).seed
  let c3 : Control := if opens = true then { c1 with iacc := seed, iest := seed, ien := true } else c1
  let step4 := fmul e cfg.dt
  let cand := fadd c3.iacc step4
  let p := fmul cfg.ki cand
  let q := fmul cfg.ki c3.iest
  let dev := fabs (fsub p q)
  let iacc := if (c3.ien && fle dev cfg.integMaxDev) = true then cand else c3.iacc
  let hist := push e c3.hist
  let diff := fsub hist[49] (hist[49 - min c3.ticks 49]'(by unfold histN; omega))
  let span := fmul 0x42480000#32 cfg.dt
  let deriv := fdiv diff span
  let kp := fmul cfg.kp e
  let ki := fmul cfg.ki iacc
  let kd := fmul cfg.kd deriv
  (evaluated = true → finite rel = true) ∧ (opens = true → BootFinite cfg set out) ∧
  (c3.ien = true → ∀ v ∈ [step4, cand, p, q, dev], finite v = true) ∧
  (∀ v ∈ [e, diff, span, deriv, kp, ki, kd, fadd kp ki, fadd (fadd kp ki) kd], finite v = true)

end Sys2Proof.Machine
end

