-- ==== Sys2Proof/Certificates/Slice0/Obligations.lean ====
section
/-! DEFINITION. The statements about the PCC for the provers, from the numbered rules of spec/. -/

open Sys2Proof Sys2Proof.Machine

/-! ## Requests: decode and encode (30_encoding.md) -/

/-- Every well-formed instruction is what its own request decodes to, whatever its operands (R60 to R64). -/
def Obligations.EncodedInstructionDecodesToItself : Prop :=
  ∀ i : Instr, i.wf = true → decode (encode i) = .ok i

/-- A request that decodes re-encodes to its own header and stream and to the operand words its form reads; nothing a form reads is
dropped, and the words it ignores become 0 (R60, R61, R63). -/
def Obligations.DecodedRequestReencodesWhatItsFormReads : Prop :=
  ∀ (r : Request) (i : Instr), decode r = .ok i →
    (encode i).rq0 = r.rq0 ∧ (encode i).data = r.data ∧
    match i with
    | .pidTick _ _ _ => (encode i).w1 = r.w1 ∧ (encode i).w2 = r.w2 ∧ (encode i).w3 = r.w3
    | .bootLookup _ _ => (encode i).w1 = r.w1 ∧ (encode i).w2 = r.w2 ∧ (encode i).w3 = 0#32
    | .loadCmp _ _ => (encode i).w1 = r.w1 ∧ (encode i).w2 = r.w2 ∧ (encode i).w3 = 0#32
    | .v2dac _ => (encode i).w1 = r.w1 ∧ (encode i).w2 = 0#32 ∧ (encode i).w3 = 0#32
    | .dac2v _ => (encode i).w1 = r.w1 ∧ (encode i).w2 = 0#32 ∧ (encode i).w3 = 0#32
    | .amux2v _ _ => (encode i).w1 = r.w1 ∧ (encode i).w2 = 0#32 ∧ (encode i).w3 = 0#32
    | .setv _ => (encode i).w1 = r.w1 ∧ (encode i).w2 = 0#32 ∧ (encode i).w3 = 0#32
    | .crc8 _ => (encode i).w1 = 0#32 ∧ (encode i).w2 = 0#32 ∧ (encode i).w3 = 0#32
    | .crc8Check _ => (encode i).w1 = 0#32 ∧ (encode i).w2 = 0#32 ∧ (encode i).w3 = 0#32
    | .loadCheck => (encode i).w1 = 0#32 ∧ (encode i).w2 = 0#32 ∧ (encode i).w3 = 0#32

/-- Headers written out from R61 and R64 decode to the operation they stand for, one for each row of the opcode map. -/
def Obligations.WrittenOutHeadersDecodeToTheirOperations : Prop :=
  decode ⟨0x00000001#32, 0x41900000#32, 0x41A00000#32, 0x41200000#32, [], by decide⟩
      = .ok (.pidTick 0x41900000#32 0x41A00000#32 0x41200000#32) ∧
  decode ⟨0x00000002#32, 0x41A00000#32, 0x41200000#32, 7#32, [], by decide⟩ = .ok (.bootLookup 0x41A00000#32 0x41200000#32) ∧
  decode ⟨0x00020010#32, 7#32, 7#32, 7#32, [0xAB#8, 0xCD#8], by decide⟩ = .ok (.crc8 [0xAB#8, 0xCD#8]) ∧
  decode ⟨0x00020011#32, 7#32, 7#32, 7#32, [0x01#8, 0x07#8], by decide⟩ = .ok (.crc8Check [0x01#8, 0x07#8]) ∧
  decode ⟨0x00000020#32, 0x41400000#32, 7#32, 7#32, [], by decide⟩ = .ok (.v2dac 0x41400000#32) ∧
  decode ⟨0x00000021#32, 0xFFFFFBE6#32, 7#32, 7#32, [], by decide⟩ = .ok (.dac2v 0xFFFFFBE6#32) ∧
  decode ⟨0x00000722#32, 0x00000064#32, 7#32, 7#32, [], by decide⟩ = .ok (.amux2v 0x07#8 0x00000064#32) ∧
  decode ⟨0x00000023#32, 0x41000000#32, 7#32, 7#32, [], by decide⟩ = .ok (.setv 0x41000000#32) ∧
  decode ⟨0x00000030#32, 0x40A00000#32, 0x00000000#32, 7#32, [], by decide⟩ = .ok (.loadCmp 0x40A00000#32 0x00000000#32) ∧
  decode ⟨0x00000031#32, 7#32, 7#32, 7#32, [], by decide⟩ = .ok .loadCheck

/-- The words an operation's form does not name have no effect on what is decoded, whatever the rest of the request holds (R60, R63). -/
def Obligations.IgnoredOperandWordsHaveNoEffect : Prop :=
  ∀ (r : Request) (w1 w2 w3 : Word),
    (r.op ∈ [0x10#8, 0x11#8, 0x31#8] → decode { r with w1 := w1, w2 := w2, w3 := w3 } = decode r) ∧
    (r.op ∈ [0x20#8, 0x21#8, 0x22#8, 0x23#8] → decode { r with w2 := w2, w3 := w3 } = decode r) ∧
    (r.op ∈ [0x02#8, 0x30#8] → decode { r with w3 := w3 } = decode r)

/-- A request whose header names no operation, or carries a nonzero `SEL` or `LEN` where it must be 0, ends with `E_ILLEGAL` and changes
nothing; every other request names an operation (R66, R161). -/
def Obligations.IllegalHeadersAnswerIllegalAndChangeNothing : Prop :=
  ∀ (s : State) (r : Request) (rest : List HostMove), Live s → s.inbox = .request r :: rest →
    let illegal := r.op ∉ [0x01#8, 0x02#8, 0x10#8, 0x11#8, 0x20#8, 0x21#8, 0x22#8, 0x23#8, 0x30#8, 0x31#8] ∨
      (r.sel ≠ 0#8 ∧ r.op ≠ 0x22#8) ∨ (r.len ≠ 0#16 ∧ r.op ≠ 0x10#8 ∧ r.op ≠ 0x11#8)
    (illegal → step s = .next { s with inbox := rest, resp := some ⟨0x00000010#32, 0#32, 0#32, 0#32, 0#32⟩ }) ∧
    (¬illegal → ∃ i, decode r = .ok i)

/-- A line of text gives, for each mnemonic, that operation with the values of its operand literals, and nothing when an operand is no
literal of its kind; an instruction a line gives is the one its first word names; and the request of a line decodes to that
instruction (R72; blanks and case are the model's choice, log entry 14). -/
def Obligations.AssembledLinesDecodeToTheirInstruction : Prop :=
  (∀ (cfg : Config) (line : String) (r : Request), assemble cfg line = some r →
    ∃ i, assembleInstr cfg line.toList = some i ∧ i.wf = true ∧ r = encode i ∧ decode r = .ok i) ∧
  (∀ (cfg : Config) (text : List Char) (i : Instr), assembleInstr cfg text = some i →
    let name := match i with
      | .pidTick _ _ _ => "PID_TICK"
      | .bootLookup _ _ => "BOOT_LOOKUP"
      | .crc8 _ => "CRC8"
      | .crc8Check _ => "CRC8_CHECK"
      | .v2dac _ => "V2DAC"
      | .dac2v _ => "DAC2V"
      | .amux2v _ _ => "AMUX2V"
      | .setv _ => "SETV"
      | .loadCmp _ _ => "LOAD_CMP"
      | .loadCheck => "LOAD_CHECK"
    ∃ pre post, text = pre ++ name.toList ++ post ∧ (∀ c ∈ pre, c = ' ' ∨ c = '\t') ∧
      (∀ c, post.head? = some c → c = ' ' ∨ c = '\t' ∨ c = ';')) ∧
  (∀ (cfg : Config) (comment : Option (List Char)),
    let line (name : String) (operands : List (List Char)) : List Char :=
      name.toList ++ ' ' :: (List.intercalate [',', ' '] operands ++ comment.elim [] (fun c => ' ' :: ';' :: c))
    let plain (a : List Char) : Prop := ∀ c ∈ a, c ∉ [',', ';', ' ', '\t']
    (∀ a b c, plain a → plain b → plain c → assembleInstr cfg (line "PID_TICK" [a, b, c])
      = (f32Literal a).bind fun x => (f32Literal b).bind fun y => (f32Literal c).map fun z => .pidTick x y z) ∧
    (∀ a b, plain a → plain b → assembleInstr cfg (line "BOOT_LOOKUP" [a, b])
      = (f32Literal a).bind fun x => (f32Literal b).map fun y => .bootLookup x y) ∧
    (∀ a b, plain a → plain b → assembleInstr cfg (line "LOAD_CMP" [a, b])
      = (f32Literal a).bind fun x => (f32Literal b).map fun y => .loadCmp x y) ∧
    (∀ a, plain a → assembleInstr cfg (line "V2DAC" [a]) = (f32Literal a).map .v2dac) ∧
    (∀ a, plain a → assembleInstr cfg (line "SETV" [a]) = (f32Literal a).map .setv) ∧
    (∀ a, plain a → assembleInstr cfg (line "DAC2V" [a]) = (i32Literal a).map .dac2v) ∧
    (∀ a b, plain a → plain b → assembleInstr cfg (line "AMUX2V" [a, b])
      = (selectorLiteral cfg a).bind fun x => (u32Literal b).map fun y => .amux2v x y) ∧
    assembleInstr cfg (line "LOAD_CHECK" []) = some .loadCheck ∧
    (∀ (name : String) (op : List Byte → Instr), (name, op) ∈ [("CRC8", Instr.crc8), ("CRC8_CHECK", Instr.crc8Check)] →
      ∀ texts : List (List Char), (∀ a ∈ texts, plain a ∧ a ≠ []) →
        let stream := line name ['[' :: (List.intercalate [',', ' '] texts ++ [']'])]
        (∀ d : List Byte, texts.map byteLiteral = d.map some →
          assembleInstr cfg stream = if d.length ≤ 65535 then some (op d) else none) ∧
        (none ∈ texts.map byteLiteral → assembleInstr cfg stream = none)))

/-- What each kind of literal means: a u32, i32 or byte literal its number, decimal or hexadecimal, none out of its range; an f32 literal
`rne32` of its exact decimal value or the raw bits after `f:0x`; a selector a parameter code or a byte (R73; the value of -0.0,
overflow of a decimal and a hexadecimal i32 are the model's choice, log entry 14). -/
def Obligations.LiteralsMeanTheirValues : Prop :=
  let dec (l : List (Fin 10)) : List Char := l.map fun k => Nat.digitChar k.val
  let hex (l : List (Fin 16 × Bool)) : List Char :=
    l.map fun k => if k.2 = true then (Nat.digitChar k.1.val).toUpper else Nat.digitChar k.1.val
  let num (l : List (Fin 10)) : Nat := l.foldl (fun n k => 10 * n + k.val) 0
  let num16 (l : List (Fin 16 × Bool)) : Nat := l.foldl (fun n k => 16 * n + k.1.val) 0
  (∀ l, l ≠ [] →
    u32Literal (dec l) = (if num l < 2 ^ 32 then some (BitVec.ofNat 32 (num l)) else none) ∧
    byteLiteral (dec l) = (if num l < 256 then some (BitVec.ofNat 8 (num l)) else none) ∧
    i32Literal (dec l) = (if num l < 2 ^ 31 then some (BitVec.ofNat 32 (num l)) else none) ∧
    i32Literal ('-' :: dec l) = (if num l ≤ 2 ^ 31 then some (BitVec.ofInt 32 (-(num l : Int))) else none)) ∧
  (∀ l, l ≠ [] →
    u32Literal ('0' :: 'x' :: hex l) = (if num16 l < 2 ^ 32 then some (BitVec.ofNat 32 (num16 l)) else none) ∧
    byteLiteral ('0' :: 'x' :: hex l) = (if num16 l < 256 then some (BitVec.ofNat 8 (num16 l)) else none) ∧
    i32Literal ('0' :: 'x' :: hex l) = (if num16 l < 2 ^ 32 then some (BitVec.ofNat 32 (num16 l)) else none) ∧
    (l.length = 8 → f32Literal ('f' :: ':' :: '0' :: 'x' :: hex l) = some (BitVec.ofNat 32 (num16 l)))) ∧
  (∀ w p, w ≠ [] →
    let text := if p = [] then dec w else dec w ++ '.' :: dec p
    let q : Rat := (num (w ++ p) : Rat) / 10 ^ p.length
    let inRange (x : F32) : Option F32 := if finite x = true then some x else none
    f32Literal text = inRange (rne32 q) ∧
    f32Literal ('-' :: text) = if q = 0 then some 0x80000000#32 else inRange (rne32 (-q))) ∧
  (∀ cfg : Config,
    selectorLiteral cfg "VOUT".toList = some cfg.amuxSel.vout ∧ selectorLiteral cfg "V1P25".toList = some cfg.amuxSel.v1p25 ∧
    selectorLiteral cfg "IOUT".toList = some cfg.amuxSel.iout ∧ selectorLiteral cfg "V1P65".toList = some cfg.amuxSel.v1p65 ∧
    (∀ l, selectorLiteral cfg (dec l) = byteLiteral (dec l)) ∧
    (∀ l, selectorLiteral cfg ('0' :: 'x' :: hex l) = byteLiteral ('0' :: 'x' :: hex l)))

/-! ## A step (00_scope.md R7, 70_reset_and_hazards.md) -/

/-- When the host's next move is a request that decodes to an instruction, that instruction is well-formed and the step is its meaning,
with the move taken (R65). -/
def Obligations.StepRunsTheDecodedInstruction : Prop :=
  ∀ (s : State) (r : Request) (rest : List HostMove) (i : Instr), s.inbox = .request r :: rest → decode r = .ok i →
    i.wf = true ∧ step s = exec i { s with inbox := rest }

/-- With no move pending the core waits for the first request (R182); that a waiting step answers the same state is the model's choice (log
entry 4). -/
def Obligations.WithNoMovePendingTheCoreWaits : Prop :=
  ∀ s : State, admitted s.cfg = true → s.inbox = [] → step s = .next s

/-- The stream of a request has the `LEN` bytes of its header (R75), and an operation that takes bytes takes exactly that stream (R60,
R61, R63). For any other header the stream has no effect on what is decoded, and it may also be empty, whatever `LEN` is: this
clause is the model's reading, which allows both R60's empty stream and R75's `LEN` bytes (DEDUCED, log entry 5). -/
def Obligations.ByteOperationsTakeTheLenBytesOfTheStream : Prop :=
  (∀ r : Request,
    (r.op ∈ [0x10#8, 0x11#8] → r.data.length = r.len.toNat) ∧
    (r.op ∉ [0x10#8, 0x11#8] → (r.data = [] ∨ r.data.length = r.len.toNat) ∧
      ∀ r' : Request, r'.rq0 = r.rq0 → r'.w1 = r.w1 → r'.w2 = r.w2 → r'.w3 = r.w3 → decode r' = decode r) ∧
    (r.op = 0x10#8 → r.sel = 0#8 → decode r = .ok (.crc8 r.data)) ∧
    (r.op = 0x11#8 → r.sel = 0#8 → decode r = .ok (.crc8Check r.data))) ∧
  (∀ (rq0 w1 w2 w3 : Word) (d : List Byte),
    (d.length = (rq0.extractLsb' 16 16).toNat ∨ (rq0.extractLsb' 0 8 ∉ [0x10#8, 0x11#8] ∧ d = [])) →
    ∃ r : Request, r.rq0 = rq0 ∧ r.w1 = w1 ∧ r.w2 = w2 ∧ r.w3 = w3 ∧ r.data = d)

/-- After reset every field of `S` has the value of R35, at power-up, on a reset, and on a reset that abandons a request. -/
def Obligations.ResetGivesEveryFieldItsValue : Prop :=
  let zero : Control := { prevSp := 0x00000000#32, iacc := 0x00000000#32, ien := false, iest := 0x00000000#32,
                          hist := Vector.replicate 50 0x00000000#32, ticks := 0, fatal := false }
  (∀ c : Config, (State.resetWith c).ctl = zero) ∧
  (∀ (s : State) (c : Config) (rest : List HostMove), admitted c = true → s.inbox = .reset c :: rest →
    ∃ t, step s = .next t ∧ t.ctl = zero) ∧
  (∀ (s : State) (r : Request) (n : Nat) (c : Config) (rest : List HostMove), admitted s.cfg = true → admitted c = true →
    s.inbox = .abandon r n c :: rest → ∃ t, step s = .next t ∧ t.ctl = zero)

/-- A reset makes no external request and consumes no answer (R182, R183). A reset that abandons a request leaves no response; the external
requests that stand are the first `n` of those the abandoned request makes, and its answers are consumed (R180). What the response
port, the record of external requests and the answer lists hold after a reset, and how a request is abandoned, are the model's
choice (log entries 3, 6, 7, 12). -/
def Obligations.ResetLeavesTheExternalAgentsAlone : Prop :=
  (∀ (s : State) (c : Config) (rest : List HostMove), admitted c = true → s.inbox = .reset c :: rest →
    ∃ t, step s = .next t ∧ t.cfg = c ∧ t.inbox = rest ∧ t.resp = none ∧ t.outbox = s.outbox ∧
      t.writeAnswers = s.writeAnswers ∧ t.readAnswers = s.readAnswers ∧ t.adcAnswers = s.adcAnswers ∧ t.drawn = s.drawn) ∧
  (∀ (s : State) (r : Request) (n : Nat) (c : Config) (rest : List HostMove), admitted s.cfg = true → admitted c = true →
    s.inbox = .abandon r n c :: rest →
    ∃ t u, step s = .next t ∧ runRequest r { s with inbox := rest } = .next u ∧
      t.cfg = c ∧ t.inbox = rest ∧ t.resp = none ∧ t.outbox = s.outbox ++ (u.outbox.drop s.outbox.length).take n ∧
      t.writeAnswers = u.writeAnswers ∧ t.readAnswers = u.readAnswers ∧ t.adcAnswers = u.adcAnswers ∧ t.drawn = u.drawn)

/-- The configuration changes only on a reset, to the one the reset is released with (R184). -/
def Obligations.ConfigurationChangesOnlyAcrossReset : Prop :=
  (∀ s t : State, step s = .next t → t.cfg ≠ s.cfg →
    ∃ m rest, s.inbox = m :: rest ∧ (m = .reset t.cfg ∨ ∃ r n, m = .abandon r n t.cfg)) ∧
  (∀ (s t : State) (c : Config) (rest : List HostMove), s.inbox = .reset c :: rest → step s = .next t → t.cfg = c) ∧
  (∀ (s t : State) (r : Request) (n : Nat) (c : Config) (rest : List HostMove), s.inbox = .abandon r n c :: rest →
    step s = .next t → t.cfg = c)

/-- A configuration that breaks a constraint of R9 is refused as a whole: under it no operation, no request whatever its header, no
abandoned request and no waiting has a meaning, and no reset is released with it. That each of these is refused by name is DEDUCED
(log entry 2). -/
def Obligations.InadmissibleConfigurationIsRefused : Prop :=
  (∀ (s : State) (i : Instr), admitted s.cfg = false → exec i s = .refused .configuration) ∧
  (∀ s : State, admitted s.cfg = false → s.inbox = [] → step s = .refused .configuration) ∧
  (∀ (s : State) (r : Request) (rest : List HostMove), admitted s.cfg = false → s.inbox = .request r :: rest →
    step s = .refused .configuration) ∧
  (∀ (s : State) (r : Request) (n : Nat) (c : Config) (rest : List HostMove), admitted s.cfg = false ∨ admitted c = false →
    s.inbox = .abandon r n c :: rest → step s = .refused .configuration) ∧
  (∀ (s : State) (c : Config) (rest : List HostMove), admitted c = false → s.inbox = .reset c :: rest →
    step s = .refused .configuration)

/-- What an admitted configuration is, in the values of its parameters (R9). -/
def Obligations.AdmittedConfigurationMeetsEveryConstraint : Prop :=
  ∀ c : Config, admitted c = true ↔
    (finite c.kp = true ∧ finite c.kd = true ∧ (finite c.ki = true ∧ exact c.ki ≠ 0) ∧ (finite c.dt = true ∧ 0 < exact c.dt) ∧
      (finite c.integThresh = true ∧ 0 ≤ exact c.integThresh) ∧ (finite c.integMaxDev = true ∧ 0 ≤ exact c.integMaxDev)) ∧
    ((∀ e ∈ c.bootTable, finite e.diff = true ∧ finite e.contrib = true) ∧
      c.bootTable.Pairwise (fun a b => exact a.diff < exact b.diff ∧ exact a.contrib ≤ exact b.contrib) ∧
      (⟨0x41200000#32, 0x40400000#32⟩ : BootEntry) ∈ c.bootTable) ∧
    (-2147483648 ≤ c.codeMin ∧ c.codeMin < c.codeMax ∧ c.codeMax ≤ 2147483647 ∧ c.codeMax - c.codeMin ≤ 21642608) ∧
    [c.amuxSel.vout, c.amuxSel.v1p25, c.amuxSel.iout, c.amuxSel.v1p65].Nodup ∧
    (finite c.loadTol = true ∧ 0 ≤ exact c.loadTol ∧ exact c.loadTol < 5) ∧
    c.crcPoly.getLsbD 0 = true ∧
    ([c.cmdStatus, c.cmdWrite, c.cmdRead].Nodup ∧
      [c.regCommand, c.regStatus, c.regIlimDac, c.regVdac, c.regAmux].Nodup ∧
      (1 ≤ c.wCommand ∧ 1 ≤ c.wStatus ∧ 1 ≤ c.wIlimDac ∧ 1 ≤ c.wVdac ∧ 1 ≤ c.wAmux) ∧ c.wVdac ≤ 4 ∧
      -2 ^ (8 * c.wVdac - 1) ≤ c.codeMin ∧ c.codeMax < 2 ^ (8 * c.wVdac - 1))

/-! ## Faults (60_exceptions.md) -/

/-- An unrecognised selector sets the fatal bit and answers `E_FATAL`; while the bit is set every request, whatever its header, ends with
`E_FATAL`, changes nothing and reaches no external agent; only a reset clears it (R166). -/
def Obligations.FatalBitEndsEveryRequestUntilReset : Prop :=
  (∀ (s : State) (sel : Byte) (raw : Word), Live s →
    sel ∉ [s.cfg.amuxSel.vout, s.cfg.amuxSel.v1p25, s.cfg.amuxSel.iout, s.cfg.amuxSel.v1p65] →
    exec (.amux2v sel raw) s
      = .next { s with ctl := { s.ctl with fatal := true }, resp := some ⟨0x0000001F#32, 0#32, 0#32, 0#32, 0#32⟩ }) ∧
  (∀ (s : State) (r : Request) (rest : List HostMove), admitted s.cfg = true → s.ctl.fatal = true →
    s.inbox = .request r :: rest →
    step s = .next { s with inbox := rest, resp := some ⟨0x0000001F#32, 0#32, 0#32, 0#32, 0#32⟩ }) ∧
  (∀ s t : State, s.ctl.fatal = true → step s = .next t → t.ctl.fatal = false →
    ∃ m rest, s.inbox = m :: rest ∧ m.asserts = true)

/-- A non-finite f32 operand, or a stream below its operation's bound, ends the request with `E_OPERAND`: state unchanged, results 0, no
external request (R162). -/
def Obligations.BadOperandsAnswerOperandFault : Prop :=
  ∀ s : State, Live s →
    let faulted : Host.Outcome State Fault Refusal := .next { s with resp := some ⟨0x00000011#32, 0#32, 0#32, 0#32, 0#32⟩ }
    (∀ cur set out, (finite cur = false ∨ finite set = false ∨ finite out = false) → exec (.pidTick cur set out) s = faulted) ∧
    (∀ set out, (finite set = false ∨ finite out = false) → exec (.bootLookup set out) s = faulted) ∧
    (∀ v, finite v = false → exec (.v2dac v) s = faulted) ∧
    (∀ v, finite v = false → exec (.setv v) s = faulted) ∧
    (∀ a b, (finite a = false ∨ finite b = false) → exec (.loadCmp a b) s = faulted) ∧
    exec (.crc8 []) s = faulted ∧
    (∀ d, d.length < 2 → exec (.crc8Check d) s = faulted)

/-- A non-finite intermediate or result ends the request with `E_RANGE`: the record `S` unchanged, results 0 (R163, R140). The values of
`PID_TICK` and of the table search are those `TickFinite` and `BootFinite` write out; that the search's values count for `PID_TICK`
is DEDUCED (log entry 8). -/
def Obligations.NonFiniteValuesAnswerRangeFault : Prop :=
  ∀ s : State, Live s →
    let range : Response := ⟨0x00000012#32, 0#32, 0#32, 0#32, 0#32⟩
    (∀ cur set out, finite cur = true → finite set = true → finite out = true →
      ¬TickFinite s.cfg cur set out s.ctl →
      exec (.pidTick cur set out) s = .next { s with resp := some range }) ∧
    (∀ set out, finite set = true → finite out = true → ¬BootFinite s.cfg set out →
      exec (.bootLookup set out) s = .next { s with resp := some range }) ∧
    (∀ ch sel raw, sel = s.cfg.amuxSel.get ch → finite (amuxVolts s.cfg ch raw) = false →
      exec (.amux2v sel raw) s = .next { s with resp := some range }) ∧
    (∀ a b, finite a = true → finite b = true → finite (fabs (fsub a b)) = false →
      exec (.loadCmp a b) s = .next { s with resp := some range }) ∧
    (∀ raw, (drvReadAmux s.cfg.amuxSel.vout s).1 = (.ok, raw) → finite (amuxVolts s.cfg .vout raw) = false →
      exec .loadCheck s = .next { (drvReadAmux s.cfg.amuxSel.vout s).2 with resp := some range }) ∧
    (∀ raw, (drvReadAmux s.cfg.amuxSel.vout s).1 = (.ok, raw) → finite (amuxVolts s.cfg .vout raw) = true →
      let sample := adcSample s.cfg.loadAdcCh (drvReadAmux s.cfg.amuxSel.vout s).2
      (finite sample.1 = false ∨ finite (fabs (fsub (amuxVolts s.cfg .vout raw) sample.1)) = false) →
      exec .loadCheck s = .next { sample.2 with resp := some range })

/-- A PCC fault is precise: when an operation answers one, every result word and flag is 0 and the record `S` is as before, but for the
fatal bit on `E_FATAL` (R169, R71). -/
def Obligations.PccFaultsLeaveTheRecordAndZeroResults : Prop :=
  ∀ (i : Instr) (s t : State) (r : Response), exec i s = .next t → t.resp = some r →
    r.st ∈ [0x10#8, 0x11#8, 0x12#8, 0x1F#8] →
    (t.ctl = s.ctl ∨ (r.st = 0x1F#8 ∧ t.ctl = { s.ctl with fatal := true })) ∧
    r.q1 = 0#32 ∧ r.q2 = 0#32 ∧ r.q3 = 0#32 ∧ r.q4 = 0#32 ∧ r.sat = false ∧ r.bool = false

/-- The response header: the status in bits 7 to 0, `SAT` in bit 8, `BOOL` in bit 9, zeros above, with the codes of R70 (R68, R70). -/
def Obligations.ResponseHeaderHasItsFields : Prop :=
  (∀ (st : Status) (sat bool : Bool) (q1 q2 q3 q4 : Word),
    let r := response st q1 q2 q3 q4 sat bool
    r.st = st.code ∧ r.sat = sat ∧ r.bool = bool ∧ r.rs0.extractLsb' 10 22 = 0#22 ∧
      r.q1 = q1 ∧ r.q2 = q2 ∧ r.q3 = q3 ∧ r.q4 = q4) ∧
  [Status.ok, .transport, .checksum, .ack, .illegal, .operand, .range, .fatal].map Status.code
    = [0x00#8, 0x01#8, 0x02#8, 0x03#8, 0x10#8, 0x11#8, 0x12#8, 0x1F#8]

/-! ## Checksum Unit (40_checksum.md) -/

/-- `CRC8` of a nonempty stream answers its checksum and changes nothing else (R90). -/
def Obligations.Crc8AnswersTheChecksum : Prop :=
  ∀ (s : State) (d : List Byte), Live s → 1 ≤ d.length →
    exec (.crc8 d) s = .next { s with resp := some ⟨0#32, (crc8 s.cfg d).setWidth 32, 0#32, 0#32, 0#32⟩ }

/-- The checksum of R91 is the bit-serial shift register: the bits of the stream enter one at a time, each byte's most significant bit
first, or its least significant bit first when `CRC_REFIN` is set. -/
def Obligations.ChecksumIsTheBitSerialRegister : Prop :=
  ∀ (cfg : Config) (d : List Byte),
    let enter (c : Byte) (b : Bool) : Byte := if c.getLsbD 7 ^^ b then (c <<< 1) ^^^ cfg.crcPoly else c <<< 1
    let bits (b : Byte) : List Bool :=
      (List.range 8).map fun k => if cfg.crcRefIn then b.getLsbD k else b.getLsbD (7 - k)
    let c := (d.flatMap bits).foldl enter cfg.crcInit
    crc8 cfg d = (if cfg.crcRefOut then c.reverse else c) ^^^ cfg.crcXorOut

/-- Flipping one bit of the stream changes its checksum, for every polynomial with bit 0 set (R93). -/
def Obligations.SingleBitFlipChangesTheChecksum : Prop :=
  ∀ (cfg : Config), cfg.crcPoly.getLsbD 0 = true → ∀ (d : List Byte) (k j : Nat) (hk : k < d.length), j < 8 →
    crc8 cfg (d.set k (d[k] ^^^ (1#8 <<< j))) ≠ crc8 cfg d

/-- `CRC8_CHECK` recomputes the checksum of all bytes but the last, answers it, and sets `BOOL` exactly when the last byte is equal to it;
a mismatch is no fault (R92). -/
def Obligations.Crc8CheckComparesTheLastByte : Prop :=
  ∀ (s : State) (d : List Byte) (last : Byte), Live s → 1 ≤ d.length →
    exec (.crc8Check (d ++ [last])) s
      = .next { s with resp := some ⟨if crc8 s.cfg d = last then 0x00000200#32 else 0x00000000#32,
                                     (crc8 s.cfg d).setWidth 32, 0#32, 0#32, 0#32⟩ }

/-- The frame of a command ends with the checksum of the bytes before it, so `CRC8_CHECK` finds it valid; with one bit of those bytes
flipped it does not (R76, R77, R93). -/
def Obligations.CommandFramesPassTheCheckAndCorruptedOnesFail : Prop :=
  ∀ (s : State) (cmd addr : Byte) (payload : List Byte), Live s →
    let covered := cmd :: addr :: payload
    frame s.cfg cmd addr payload = covered ++ [crc8 s.cfg covered] ∧
    (∃ t r, exec (.crc8Check (frame s.cfg cmd addr payload)) s = .next t ∧ t.resp = some r ∧ r.st = 0x00#8 ∧ r.bool = true) ∧
    (∀ (k j : Nat) (hk : k < covered.length), j < 8 →
      ∃ t r, exec (.crc8Check (covered.set k (covered[k] ^^^ (1#8 <<< j)) ++ [crc8 s.cfg covered])) s = .next t ∧
        t.resp = some r ∧ r.st = 0x00#8 ∧ r.bool = false)

/-! ## Voltage/DAC Codec (41_dac_codec.md) -/

/-- `V2DAC` of a finite voltage: clamp to [-21/2, 507/50], affine map onto [`CODE_MIN`, `CODE_MAX`], round with ties away from zero; `SAT`
exactly when the voltage was clamped; nothing else changes (R100, R101). -/
def Obligations.V2dacAnswersTheRoundedAffineCode : Prop :=
  ∀ (s : State) (v : F32), Live s → finite v = true →
    let q := exact v
    let qc := min (max q (-21 / 2)) (507 / 50)
    let x := (s.cfg.codeMin : Rat) + (qc + 21 / 2) * ((s.cfg.codeMax : Rat) - s.cfg.codeMin) / (516 / 25)
    let code : Int := if x < 0 then -(-x + 1 / 2).floor else (x + 1 / 2).floor
    exec (.v2dac v) s
      = .next { s with resp := some ⟨if q < -21 / 2 ∨ 507 / 50 < q then 0x00000100#32 else 0x00000000#32,
                                     BitVec.ofInt 32 code, 0#32, 0#32, 0#32⟩ }

/-- The code of any finite voltage lies in [`CODE_MIN`, `CODE_MAX`], is the boundary code at and beyond the ends of the clamp interval, and
survives its 32-bit word (R101). -/
def Obligations.V2dacCodeStaysWithinTheBounds : Prop :=
  ∀ (cfg : Config) (v : F32), admitted cfg = true → finite v = true →
    cfg.codeMin ≤ v2dacCode cfg v ∧ v2dacCode cfg v ≤ cfg.codeMax ∧
    (507 / 50 ≤ exact v → v2dacCode cfg v = cfg.codeMax) ∧
    (exact v ≤ -21 / 2 → v2dacCode cfg v = cfg.codeMin) ∧
    i32 (ofI32 (v2dacCode cfg v)) = v2dacCode cfg v

/-- A higher voltage never gives a lower code (R101: the map is affine and increasing, clamping and rounding keep the order). -/
def Obligations.V2dacIsMonotone : Prop :=
  ∀ (cfg : Config) (v w : F32), admitted cfg = true → exact v ≤ exact w → v2dacCode cfg v ≤ v2dacCode cfg w

/-- `DAC2V` of every code, in the bounds or not, answers the inverse affine map rounded once, which is finite; nothing else changes
(R102). -/
def Obligations.Dac2vAnswersTheInverseMapForEveryCode : Prop :=
  ∀ (s : State) (w : Word), Live s →
    let x : Rat := -21 / 2 + ((w.toInt : Rat) - s.cfg.codeMin) * (516 / 25) / ((s.cfg.codeMax : Rat) - s.cfg.codeMin)
    finite (rne32 x) = true ∧ exec (.dac2v w) s = .next { s with resp := some ⟨0#32, rne32 x, 0#32, 0#32, 0#32⟩ }

/-- Every code of the valid range comes back exactly through `DAC2V` and `V2DAC`; the rounded voltage is within 2^-21 V of the exact one;
a span too wide for that is no admitted configuration (R105). -/
def Obligations.DacCodeRoundTripsThroughVolts : Prop :=
  (∀ (cfg : Config) (c : Int), admitted cfg = true → cfg.codeMin ≤ c → c ≤ cfg.codeMax →
    |exact (rne32 (voltsOfCode cfg c)) - voltsOfCode cfg c| ≤ 1 / 2 ^ 21 ∧
    v2dacCode cfg (rne32 (voltsOfCode cfg c)) = c) ∧
  (∀ cfg : Config, 21642608 < cfg.codeMax - cfg.codeMin → admitted cfg = false)

/-- `AMUX2V` with the selector code of a channel answers that channel's offset plus gain times the unsigned raw value, rounded once, when
it is finite; nothing else changes (R103). -/
def Obligations.Amux2vScalesARecognisedChannel : Prop :=
  ∀ (s : State) (ch : Channel) (raw : Word), Live s →
    let v := rne32 (s.cfg.amuxOffset.get ch + s.cfg.amuxGain.get ch * (raw.toNat : Rat))
    finite v = true → exec (.amux2v (s.cfg.amuxSel.get ch) raw) s = .next { s with resp := some ⟨0#32, v, 0#32, 0#32, 0#32⟩ }

/-- `SETV` of a finite voltage makes exactly one write, of the payload of the clamped code to the Voltage DAC, and passes the driver's
answer through, with the code and `SAT` whatever that answer is; the record `S` is unchanged (R104, R71, R164). -/
def Obligations.SetvWritesTheClampedCodeOnce : Prop :=
  ∀ (s : State) (v : F32), Live s → finite v = true →
    let code := BitVec.ofInt 32 (v2dacCode s.cfg v)
    let answer := s.writeAnswers.head?.getD (Config.freeDriverStatus s.drawn)
    let st : Nat := match answer with | .ok => 0 | .transport => 1 | .checksum => 2 | .ack => 3
    let sat : Nat := if exact v < -21 / 2 ∨ 507 / 50 < exact v then 256 else 0
    exec (.setv v) s
      = .next { s with resp := some ⟨BitVec.ofNat 32 (st + sat), code, 0#32, 0#32, 0#32⟩
                       outbox := s.outbox ++ [.write s.cfg.regVdac (payloadVdac s.cfg code)]
                       writeAnswers := s.writeAnswers.tail
                       drawn := s.drawn + 1 }

/-- The payload of a Voltage-DAC write: `W_VDAC` bytes of the code in `PAYLOAD_ORDER`; the frame around it (R78). -/
def Obligations.PayloadHoldsTheCodeInPayloadOrder : Prop :=
  ∀ (cfg : Config) (code : Word),
    let p := payloadVdac cfg code
    p.length = cfg.wVdac ∧
    (∀ (j : Nat) (hj : j < p.length),
      (cfg.payloadOrder = .msbFirst → p[j] = code.extractLsb' (8 * (cfg.wVdac - 1 - j)) 8) ∧
      (cfg.payloadOrder = .lsbFirst → p[j] = code.extractLsb' (8 * j) 8)) ∧
    writeFrame cfg cfg.regVdac p
      = cfg.cmdWrite :: cfg.regVdac :: (p ++ [crc8 cfg (cfg.cmdWrite :: cfg.regVdac :: p)])

/-- No bit of a code is lost in its payload: the payload's bytes, most significant first, are the code's two's complement (R78, R9). -/
def Obligations.PayloadDeterminesTheCode : Prop :=
  ∀ (cfg : Config) (c : Int), admitted cfg = true → cfg.codeMin ≤ c → c ≤ cfg.codeMax →
    let p := payloadVdac cfg (ofI32 c)
    let msbFirst := match cfg.payloadOrder with | .msbFirst => p | .lsbFirst => p.reverse
    let n : Nat := msbFirst.foldl (fun a b => 256 * a + b.toNat) 0
    c = if n < 2 ^ (8 * cfg.wVdac - 1) then (n : Int) else (n : Int) - 2 ^ (8 * cfg.wVdac)

/-! ## Load-Presence Monitor (42_load_monitor.md) -/

/-- `LOAD_CMP` of finite voltages whose difference is finite answers the absolute difference, and `BOOL` exactly when it does not exceed
`LOAD_TOL`; nothing else changes (R120). -/
def Obligations.LoadCmpAnswersTheDifferenceAndVerdict : Prop :=
  ∀ (s : State) (a b : F32), Live s → finite a = true → finite b = true →
    let d := fabs (fsub a b)
    finite d = true →
    exec (.loadCmp a b) s
      = .next { s with resp := some ⟨if fgt d s.cfg.loadTol = true then 0x00000000#32 else 0x00000200#32, d, 0#32, 0#32, 0#32⟩ }

/-- The comparison is symmetric in its operands (R120). -/
def Obligations.LoadCmpIsSymmetric : Prop :=
  ∀ (s : State) (a b : F32), exec (.loadCmp a b) s = exec (.loadCmp b a) s

/-- `LOAD_CHECK` whose Vout read succeeds, with finite values, reads Vout through the AMUX, then samples the ADC, and answers the difference,
both voltages and the verdict; the record `S` is unchanged (R121). -/
def Obligations.LoadCheckComparesVoutWithTheSample : Prop :=
  ∀ (s : State) (raw : Word), Live s →
    s.readAnswers.head?.getD (Config.freeDriverStatus s.drawn, Config.freeRaw s.drawn) = (.ok, raw) →
    let a := rne32 (s.cfg.amuxOffset.vout + s.cfg.amuxGain.vout * (raw.toNat : Rat))
    let b := s.adcAnswers.head?.getD (Config.freeSample (s.drawn + 1))
    let d := fabs (fsub a b)
    finite a = true → finite b = true → finite d = true →
    exec .loadCheck s
      = .next { s with resp := some ⟨if fgt d s.cfg.loadTol = true then 0x00000000#32 else 0x00000200#32, d, a, b, 0#32⟩
                       outbox := s.outbox ++ [.readAmux s.cfg.amuxSel.vout, .sample s.cfg.loadAdcCh]
                       readAnswers := s.readAnswers.tail
                       adcAnswers := s.adcAnswers.tail
                       drawn := s.drawn + 2 }

/-- `LOAD_CHECK` whose Vout read fails answers the driver's status with results 0 and does not sample the ADC (R121, R71, R164). -/
def Obligations.LoadCheckPassesTheDriverErrorThrough : Prop :=
  ∀ (s : State) (st : DriverStatus) (raw : Word), Live s →
    s.readAnswers.head?.getD (Config.freeDriverStatus s.drawn, Config.freeRaw s.drawn) = (st, raw) → st ≠ .ok →
    exec .loadCheck s
      = .next { s with resp := some ⟨BitVec.ofNat 32 (match st with | .ok => 0 | .transport => 1 | .checksum => 2 | .ack => 3),
                                     0#32, 0#32, 0#32, 0#32⟩
                       outbox := s.outbox ++ [.readAmux s.cfg.amuxSel.vout]
                       readAnswers := s.readAnswers.tail
                       drawn := s.drawn + 1 }

/-- The external requests of every operation: `SETV` at most one write to the Voltage DAC, `LOAD_CHECK` at most one Vout read and then, only
if it succeeded, at most one sample; no other operation reaches an external agent (R56). -/
def Obligations.ExternalRequestsAreMadeAsTheRulesWriteThem : Prop :=
  ∀ (i : Instr) (s t : State), exec i s = .next t →
    ∃ made, t.outbox = s.outbox ++ made ∧
      match i with
      | .setv _ => made = [] ∨ ∃ bytes, made = [.write s.cfg.regVdac bytes]
      | .loadCheck => made = [] ∨ made = [.readAmux s.cfg.amuxSel.vout] ∨
          (made = [.readAmux s.cfg.amuxSel.vout, .sample s.cfg.loadAdcCh] ∧
            (drvReadAmux s.cfg.amuxSel.vout s).1.1 = .ok)
      | .pidTick _ _ _ | .bootLookup _ _ | .crc8 _ | .crc8Check _ | .v2dac _ | .dac2v _ | .amux2v _ _ | .loadCmp _ _ => made = []

/-! ## Bootstrap lookup (43_pid.md section 2) -/

/-- The scan of R142 takes the entry before the first one that is not strictly closer; when there is none, `BOOT_BEYOND` decides between the
seed +0.0 with no entry and the last entry (R142, R143). -/
def Obligations.BootTakesTheEntryWhereClosenessStops : Prop :=
  ∀ (cfg : Config) (set out : F32), cfg.bootTable ≠ [] →
    let entry (k : Nat) : BootEntry := cfg.bootTable.getD k ⟨0#32, 0#32⟩
    let d := fsub set out
    let dist (k : Nat) : F32 := fabs (fsub (entry k).diff d)
    let n := cfg.bootTable.length
    (∀ k, k + 1 < n → fge (dist (k + 1)) (dist k) = true → (∀ j, j < k → fge (dist (j + 1)) (dist j) = false) →
      (boot cfg set out).seed = fdiv (entry k).contrib cfg.ki ∧ (boot cfg set out).idx = some k) ∧
    ((∀ k, k + 1 < n → fge (dist (k + 1)) (dist k) = false) →
      (cfg.bootBeyond = .zero → (boot cfg set out).seed = 0#32 ∧ (boot cfg set out).idx = none) ∧
      (cfg.bootBeyond = .clampLast →
        (boot cfg set out).seed = fdiv (entry (n - 1)).contrib cfg.ki ∧ (boot cfg set out).idx = some (n - 1)))

/-- Under `CLAMP_LAST` and with exact distances, the seed comes from the entry closest to `set - out`, a tie going to the lower entry
(R141). -/
def Obligations.BootSeedComesFromTheClosestEntry : Prop :=
  ∀ (cfg : Config) (set out : F32), admitted cfg = true → cfg.bootBeyond = .clampLast →
    let d := fsub set out
    finite d = true →
    (∀ e ∈ cfg.bootTable, finite (fsub e.diff d) = true ∧ exact (fsub e.diff d) = exact e.diff - exact d) →
    ∃ (k : Nat) (hk : k < cfg.bootTable.length),
      (boot cfg set out).idx = some k ∧ (boot cfg set out).seed = fdiv cfg.bootTable[k].contrib cfg.ki ∧
      ∀ (j : Nat) (hj : j < cfg.bootTable.length),
        |exact cfg.bootTable[k].diff - exact d| ≤ |exact cfg.bootTable[j].diff - exact d| ∧
        (j < k → |exact cfg.bootTable[k].diff - exact d| < |exact cfg.bootTable[j].diff - exact d|)

/-- `BOOT_LOOKUP` of finite operands, when every value the lookup computes is finite, answers the seed and the index of the entry used, or
0xFFFFFFFF when none; nothing else changes, and a zero set point is no exception (R144). -/
def Obligations.BootLookupAnswersSeedAndIndex : Prop :=
  ∀ (s : State) (set out : F32), Live s → finite set = true → finite out = true →
    BootFinite s.cfg set out →
    exec (.bootLookup set out) s
      = .next { s with resp := some ⟨0#32, (boot s.cfg set out).seed,
                                     match (boot s.cfg set out).idx with | some k => BitVec.ofNat 32 k | none => 0xFFFFFFFF#32,
                                     0#32, 0#32⟩ }

/-! ## Control ticks (43_pid.md section 1) -/

/-- `PID_TICK` of finite operands, when every value it computes is finite (`TickFinite`), runs the six steps of R130 in order and commits their state; the
results are `(total, kp, ki, kd)` and nothing but the record and the response changes (R130 to R140). -/
def Obligations.PidTickCommitsTheSixSteps : Prop :=
  ∀ (s : State) (cur set out : F32), Live s → finite cur = true → finite set = true → finite out = true →
    let cfg := s.cfg
    let c1 : Control :=
      if feq set s.ctl.prevSp = true then s.ctl
      else { s.ctl with hist := Vector.replicate 50 0#32, ticks := 0, ien := false, iacc := 0#32, iest := 0#32, prevSp := set }
    let e := fsub set cur
    let evaluated := !c1.ien && !feq set 0#32
    let rel := fabs (fdiv e set)
    let opens := evaluated && fle rel cfg.integThresh
    let b := boot cfg set out
    let c3 : Control := if opens = true then { c1 with iacc := b.seed, iest := b.seed, ien := true } else c1
    let step4 := fmul e cfg.dt
    let cand := fadd c3.iacc step4
    let p := fmul cfg.ki cand
    let q := fmul cfg.ki c3.iest
    let dev := fabs (fsub p q)
    let iacc := if (c3.ien && fle dev cfg.integMaxDev) = true then cand else c3.iacc
    let hist := push e c3.hist
    let diff := fsub e (hist[49 - min c3.ticks 49]'(by unfold histN; omega))
    let span := fmul 0x42480000#32 cfg.dt
    let deriv := fdiv diff span
    let kp := fmul cfg.kp e
    let ki := fmul cfg.ki iacc
    let kd := fmul cfg.kd deriv
    let total := fadd (fadd kp ki) kd
    TickFinite s.cfg cur set out s.ctl →
    exec (.pidTick cur set out) s
      = .next { s with ctl := { prevSp := c1.prevSp, iacc := iacc, ien := c3.ien, iest := c3.iest, hist := hist,
                                ticks := min (c1.ticks + 1) 50, fatal := s.ctl.fatal }
                       resp := some ⟨0#32, total, kp, ki, kd⟩ }

/-- A tick either completes and commits, or ends with `E_OPERAND` or `E_RANGE` and leaves every field of `S` as it was (R140). -/
def Obligations.PidTickIsAtomic : Prop :=
  ∀ (s t : State) (cur set out : F32), Live s → exec (.pidTick cur set out) s = .next t →
    ∃ r, t.resp = some r ∧
      ((r.st = 0x00#8 ∧ t.ctl = tickNext s.cfg cur set out s.ctl) ∨
       ((r.st = 0x11#8 ∨ r.st = 0x12#8) ∧ t.ctl = s.ctl))

/-- A completed tick pushes its error exactly once: with the set point unchanged every entry moves one place and the oldest is evicted;
with a new set point the entries before the newest are +0.0; the tick count follows (R41, R42, R132, R139). -/
def Obligations.HistoryShiftsOncePerCompletedTick : Prop :=
  ∀ (s t : State) (cur set out : F32) (r : Response), Live s → exec (.pidTick cur set out) s = .next t → t.resp = some r →
    r.st = 0x00#8 →
    t.ctl.hist[49] = fsub set cur ∧
    (feq set s.ctl.prevSp = true →
      (∀ (i : Nat) (hi : i + 1 < histN), t.ctl.hist[i] = s.ctl.hist[i + 1]) ∧ t.ctl.ticks = min (s.ctl.ticks + 1) 50 ∧
      t.ctl.prevSp = s.ctl.prevSp) ∧
    (feq set s.ctl.prevSp = false →
      (∀ (i : Nat) (hi : i + 1 < histN), t.ctl.hist[i] = 0#32) ∧ t.ctl.ticks = 1 ∧ t.ctl.prevSp = set)

/-- The tick that changes the set point has the derivative +0.0, whatever the history held before (R132, R137; 90_conflicts.md C2). -/
def Obligations.NewSetPointGivesZeroDerivative : Prop :=
  ∀ (s t : State) (cur set out : F32) (r : Response), Live s → exec (.pidTick cur set out) s = .next t → t.resp = some r →
    r.st = 0x00#8 → feq set s.ctl.prevSp = false → r.q4 = fmul s.cfg.kd 0#32

/-- With a set point of +0.0 or -0.0 no tick enables the integral: it stays off, and a completed tick that changes the set point to zero
leaves it off (R135). -/
def Obligations.ZeroSetPointNeverEnablesTheIntegral : Prop :=
  ∀ (s t : State) (cur set out : F32), feq set 0#32 = true → exec (.pidTick cur set out) s = .next t →
    (s.ctl.ien = false ∨ (feq set s.ctl.prevSp = false ∧ ∃ r, t.resp = some r ∧ r.st = 0x00#8)) →
    s.ctl.fatal = false → t.ctl.ien = false

/-- The integral is enabled only by a tick whose gate opens, and once enabled it stays enabled until a tick changes the set point or reset
is asserted (R23, R134, R141). -/
def Obligations.IntegralEnableFollowsItsRules : Prop :=
  ∀ s t : State, step s = .next t →
    (s.ctl.ien = false → t.ctl.ien = true →
      ∃ r rest cur set out, s.inbox = .request r :: rest ∧ decode r = .ok (.pidTick cur set out) ∧
        feq set 0#32 = false ∧ fle (fabs (fdiv (fsub set cur) set)) s.cfg.integThresh = true) ∧
    (s.ctl.ien = true → t.ctl.ien = false →
      (∃ m rest, s.inbox = m :: rest ∧ m.asserts = true) ∨
      ∃ r rest cur set out, s.inbox = .request r :: rest ∧ decode r = .ok (.pidTick cur set out) ∧
        feq set s.ctl.prevSp = false)

/-- After 50 or more consecutive completed ticks with the same error and no set-point change, the history holds 50 copies of the error and
the derivative is +0.0; if the ticks start at a reset or with the tick that changes the set point, it is +0.0 on every one of them
(R141, R137). -/
def Obligations.ConstantErrorFillsTheWindow : Prop :=
  ∀ (e : F32) (n : Nat),
    (∀ s t : State, ConstantErrorTicks e n s t →
      (50 ≤ n → t.ctl.hist = Vector.replicate 50 e) ∧
      (50 ≤ n ∨ (1 ≤ n ∧ s.ctl.ticks = 0) → ∃ r, t.resp = some r ∧ r.q4 = fmul t.cfg.kd 0#32)) ∧
    (∀ s m t : State, ErrorTick e true s m → ConstantErrorTicks e n m t →
      (49 ≤ n → t.ctl.hist = Vector.replicate 50 e) ∧ ∃ r, t.resp = some r ∧ r.q4 = fmul t.cfg.kd 0#32)

/-- No output can tell a tick count beyond the window from one at its end: the counter's saturation is unobservable (R26). -/
def Obligations.TicksBeyondTheWindowAreUnobservable : Prop :=
  ∀ (cfg : Config) (cur set out : F32) (c : Control) (n : Nat), 49 ≤ c.ticks → 49 ≤ n →
    tickOutput cfg cur set out { c with ticks := n } = tickOutput cfg cur set out c ∧
    tickVals cfg cur set out { c with ticks := n } = tickVals cfg cur set out c

/-! ## The whole machine -/

/-- Every step keeps the invariant of 10_state.md R28, the finiteness of what `S` holds (R140), the legality of the response (R68 to R71) and
the admission of the configuration (R9). -/
def Obligations.StepKeepsTheInvariant : Prop :=
  ∀ s t : State, StateInv s → step s = .next t → StateInv t

/-- The invariant holds right after reset, for every admitted configuration and for the machine's own reset state (the configuration of
`State.reset` is the model's choice, log entry 1). -/
def Obligations.ResetMeetsTheInvariant : Prop :=
  StateInv State.reset ∧ ∀ c : Config, admitted c = true → StateInv (State.resetWith c)

/-- From every state that meets the invariant, every admitted sequence of host moves is answered, one move a step, whatever the external
agents answer: nothing blocks (R190). -/
def Obligations.EveryAdmittedMoveIsAnswered : Prop :=
  ∀ (k : Nat) (s : State), StateInv s → (∀ m ∈ s.inbox, m.proper = true) →
    ∃ t : State, Host.Core.run Sys2Proof.core k s = .next t ∧ StateInv t ∧ t.inbox = s.inbox.drop k

/-- Only a tick changes the PID fields of the record `S`, only an unrecognised selector sets the fatal bit; no operation changes the
configuration or the pending moves (R20 to R27, R184). -/
def Obligations.OnlyTicksAndBadSelectorsChangeTheRecord : Prop :=
  ∀ (i : Instr) (s t : State), exec i s = .next t →
    t.cfg = s.cfg ∧ t.inbox = s.inbox ∧
    (t.ctl = s.ctl ∨
     (∃ cur set out, i = .pidTick cur set out ∧ t.ctl.fatal = s.ctl.fatal) ∨
     (∃ sel raw, i = .amux2v sel raw ∧
        sel ∉ [s.cfg.amuxSel.vout, s.cfg.amuxSel.v1p25, s.cfg.amuxSel.iout, s.cfg.amuxSel.v1p65] ∧
        t.ctl = { s.ctl with fatal := true }))

/-- No operation but `PID_TICK` observes the PID fields of the record `S`: with any others in their place it answers the same response and
makes the same external requests (R34). -/
def Obligations.OtherOperationsAreBlindToThePidFields : Prop :=
  ∀ (i : Instr) (s t : State) (c : Control), i.op ≠ .pidTick → c.fatal = s.ctl.fatal → exec i s = .next t →
    exec i { s with ctl := c } = .next { t with ctl := { c with fatal := t.ctl.fatal } }

/-! ## Binary32 (00_scope.md R12) -/

/-- `rne32(q)` is finite exactly when `q` is nearer to the range than the halfway point above the largest value, 2^128 - 2^103; it is then
a binary32 value nearest to `q`, with last fraction bit 0 when another is as near; else it is an infinity; a nonzero `q` gives its sign
and 0 gives +0.0 (R12 for the rounding; the format's limits are PRESUMED from IEEE 754, log entry 11, and the sign of a zero log
entry 10). -/
def Obligations.RoundedRationalIsTheNearestBinary32 : Prop :=
  ∀ q : Rat,
    (finite (rne32 q) = true ↔ |q| < 2 ^ 128 - 2 ^ 103) ∧
    (finite (rne32 q) = false → rne32 q = 0x7F800000#32 ∨ rne32 q = 0xFF800000#32) ∧
    ((rne32 q).getLsbD 31 = true ↔ q < 0) ∧
    (finite (rne32 q) = true → ∀ x : F32, finite x = true →
      |exact (rne32 q) - q| ≤ |exact x - q| ∧
      (|exact x - q| = |exact (rne32 q) - q| → exact x = exact (rne32 q) ∨ (rne32 q).getLsbD 0 = false))

/-- The four operations on finite values are the exact result rounded once (R12). The sign of a zero result is PRESUMED from IEEE 754 (log
entry 10), as are a division by zero and the operations on infinities and NaNs (log entry 11). -/
def Obligations.Binary32OperationsRoundTheExactResultOnce : Prop :=
  let sign (x : F32) : Bool := x.getLsbD 31
  let zero (neg : Bool) : F32 := if neg = true then 0x80000000#32 else 0x00000000#32
  let inf (neg : Bool) : F32 := if neg = true then 0xFF800000#32 else 0x7F800000#32
  (∀ a b : F32, finite a = true → finite b = true →
    fadd a b = (if exact a + exact b = 0 then zero (sign a && sign b) else rne32 (exact a + exact b)) ∧
    fsub a b = (if exact a - exact b = 0 then zero (sign a && !sign b) else rne32 (exact a - exact b)) ∧
    fmul a b = (if exact a = 0 ∨ exact b = 0 then zero (sign a ^^ sign b) else rne32 (exact a * exact b)) ∧
    (exact b ≠ 0 → fdiv a b = if exact a = 0 then zero (sign a ^^ sign b) else rne32 (exact a / exact b)) ∧
    (exact b = 0 → exact a ≠ 0 → fdiv a b = inf (sign a ^^ sign b)) ∧
    (exact b = 0 → exact a = 0 → isNaN (fdiv a b) = true)) ∧
  (∀ a b : F32, isNaN a = true ∨ isNaN b = true →
    isNaN (fadd a b) = true ∧ isNaN (fsub a b) = true ∧ isNaN (fmul a b) = true ∧ isNaN (fdiv a b) = true) ∧
  (∀ (a : F32) (m n : Bool), finite a = true →
    fadd (inf m) a = inf m ∧ fadd a (inf m) = inf m ∧ fsub (inf m) a = inf m ∧ fsub a (inf m) = inf (!m) ∧
    (exact a ≠ 0 → fmul (inf m) a = inf (m ^^ sign a) ∧ fmul a (inf m) = inf (m ^^ sign a)) ∧
    (exact a = 0 → isNaN (fmul (inf m) a) = true ∧ isNaN (fmul a (inf m)) = true) ∧
    fdiv (inf m) a = inf (m ^^ sign a) ∧ fdiv a (inf m) = zero (m ^^ sign a) ∧
    (if m = n then fadd (inf m) (inf n) = inf m else isNaN (fadd (inf m) (inf n)) = true) ∧
    (if m = n then isNaN (fsub (inf m) (inf n)) = true else fsub (inf m) (inf n) = inf m) ∧
    fmul (inf m) (inf n) = inf (m ^^ n) ∧ isNaN (fdiv (inf m) (inf n)) = true)

/-- The comparisons of finite values are those of their exact values, so +0.0 and -0.0 are equal (R12). That the infinities stand at the
ends of the order and that a NaN compares false is PRESUMED from IEEE 754 (log entry 11). -/
def Obligations.Binary32ComparisonsFollowTheExactValues : Prop :=
  (∀ a b : F32, finite a = true → finite b = true →
    (feq a b = true ↔ exact a = exact b) ∧ (fle a b = true ↔ exact a ≤ exact b) ∧
    (fge a b = true ↔ exact b ≤ exact a) ∧ (fgt a b = true ↔ exact b < exact a)) ∧
  (∀ a b : F32, fge a b = fle b a ∧ (isNaN a = false → isNaN b = false → fgt a b = !fle a b ∧ feq a b = (fle a b && fle b a))) ∧
  (∀ a : F32, isNaN a = false →
    fle a 0x7F800000#32 = true ∧ fle 0xFF800000#32 a = true ∧
    (feq a 0x7F800000#32 = true ↔ a = 0x7F800000#32) ∧ (feq a 0xFF800000#32 = true ↔ a = 0xFF800000#32)) ∧
  (∀ a b : F32, isNaN a = true ∨ isNaN b = true → feq a b = false ∧ fle a b = false ∧ fge a b = false ∧ fgt a b = false)
end

