-- ==== Sys2Proof/Laws/Checksum.lean ====
section
/-! SUPPORT. The checksum's shift step loses no information when the polynomial's bit 0 is set (40_checksum.md R93). -/

namespace Sys2Proof.Machine

@[simp] theorem crcShifts_zero (poly c : Byte) : crcShifts poly 0 c = c := rfl

theorem crcShifts_succ (poly : Byte) (n : Nat) (c : Byte) :
    crcShifts poly (n + 1) c = crcShifts poly n (crcShift poly c) := rfl

/-- Bit 0 of a shifted checksum tells the bit shifted out. -/
theorem crcShift_bit_zero {poly : Byte} (h : poly.getLsbD 0 = true) (c : Byte) :
    (crcShift poly c).getLsbD 0 = c.getLsbD 7 := by
  unfold crcShift
  split
  · simp_all
  · simp_all

/-- The other bits of a shifted checksum are the lower bits, exclusive-ored with the polynomial when a 1 was shifted out. -/
theorem crcShift_bit_succ (poly c : Byte) {i : Nat} (hi : i < 7) :
    (crcShift poly c).getLsbD (i + 1) = (c.getLsbD i ^^ (c.getLsbD 7 && poly.getLsbD (i + 1))) := by
  unfold crcShift
  split
  · simp_all
    omega
  · simp_all
    omega

@[simp] theorem crc8_nil (cfg : Config) :
    crc8 cfg [] = (if cfg.crcRefOut then reflect8 cfg.crcInit else cfg.crcInit) ^^^ cfg.crcXorOut := rfl

end Sys2Proof.Machine
end

