-- ==== Sys2Proof/Laws/Decode.lean ====
section
/-! SUPPORT. The opcode map, the decoder and the request of an instruction. -/

namespace Sys2Proof

/-- Every code names the operation that has it (30_encoding.md R64). -/
@[simp] theorem ofCode_code (o : Op) : Op.ofCode o.code = some o := by cases o <;> decide

/-- A code that names an operation is that operation's code (R64). -/
theorem code_of_ofCode {b : Byte} {o : Op} (h : Op.ofCode b = some o) : o.code = b := by
  simpa using List.find?_some h

/-- A length that fits `LEN` survives the field. -/
theorem len_of_le {n : Nat} (h : n ≤ maxLen) : (BitVec.ofNat 16 n).toNat = n := by
  simp only [BitVec.toNat_ofNat]
  exact Nat.mod_eq_of_lt (by unfold maxLen at h; omega)

@[simp] theorem wordRequest_op (o : Op) (sel : Byte) (w1 w2 w3 : Word) :
    (wordRequest o sel w1 w2 w3).op = o.code := opField_header ..

@[simp] theorem wordRequest_sel (o : Op) (sel : Byte) (w1 w2 w3 : Word) :
    (wordRequest o sel w1 w2 w3).sel = sel := selField_header ..

@[simp] theorem wordRequest_len (o : Op) (sel : Byte) (w1 w2 w3 : Word) :
    (wordRequest o sel w1 w2 w3).len = 0#16 := lenField_header ..

@[simp] theorem byteRequest_op (o : Op) (d : List Byte) : (byteRequest o d).op = o.code :=
  opField_header ..

@[simp] theorem byteRequest_sel (o : Op) (d : List Byte) : (byteRequest o d).sel = 0#8 :=
  selField_header ..

/-- A stream that `LEN` can name is carried whole (R67). -/
theorem byteRequest_data (o : Op) {d : List Byte} (hd : d.length ≤ maxLen) :
    (byteRequest o d).data = d := by
  have hlt : d.length < 2 ^ 16 := by unfold maxLen at hd; omega
  simp only [byteRequest, Nat.mod_eq_of_lt hlt, List.take_length]

/-- What `decode` answers, said once: an error under each of its conditions, else the operands of the operation the code names. -/
theorem decode_eq_ok_iff {r : Request} {i : Instr} :
    decode r = .ok i ↔
      ∃ o, Op.ofCode r.op = some o ∧ (o.form.readsSel = true ∨ r.sel = 0#8) ∧ (o.form.readsLen = true ∨ r.len = 0#16) ∧
        r.operands o = i := by
  unfold decode
  cases ho : Op.ofCode r.op with
  | none => simp
  | some o =>
    by_cases hs : r.sel = 0#8 <;> by_cases hn : r.len = 0#16 <;>
      cases hfs : o.form.readsSel <;> cases hfl : o.form.readsLen <;> simp_all

/-- The stream of a request of an operation that takes bytes has `LEN` bytes (R60, R75). -/
theorem data_length_of_bytes {r : Request} {o : Op} (ho : Op.ofCode r.op = some o) (h : o.form.readsLen = true) :
    r.data.length = r.len.toNat := by
  rcases r.data_length with hl | ⟨ht, _⟩
  · exact hl
  · simp [takesBytes, show opField r.rq0 = r.op from rfl, ho, h] at ht

/-- The stream of a request whose `LEN` is 0 is empty (R60, R75). -/
theorem data_nil_of_len {r : Request} (h : r.len = 0#16) : r.data = [] := by
  rcases r.data_length with hl | ⟨_, hd⟩
  · rw [show lenField r.rq0 = r.len from rfl, h] at hl
    exact List.length_eq_zero_iff.mp hl
  · exact hd

/-- Where the operation takes no bytes, the stream has no effect on what is decoded (R60). -/
theorem decode_eq_of_words {r r' : Request} (ht : takesBytes r.rq0 = false) (h0 : r'.rq0 = r.rq0) (h1 : r'.w1 = r.w1)
    (h2 : r'.w2 = r.w2) (h3 : r'.w3 = r.w3) : decode r' = decode r := by
  unfold takesBytes at ht
  unfold decode Request.op Request.sel Request.len
  rw [h0]
  cases ho : Op.ofCode (opField r.rq0) with
  | none => rfl
  | some o =>
    have hops : r'.operands o = r.operands o := by
      cases o <;> simp_all [Request.operands, Request.sel, Op.form, Form.readsLen]
    simp only [hops]

end Sys2Proof
end

