-- ==== Sys2Proof/Laws/State.lean ====
section
/-! SUPPORT. What each update of the state leaves in each field, by definition, so that no proof unfolds a record update. -/

namespace Sys2Proof.Machine

@[simp] theorem respond_ctl (r : Response) (s : State) : (respond r s).ctl = s.ctl := rfl
@[simp] theorem respond_cfg (r : Response) (s : State) : (respond r s).cfg = s.cfg := rfl
@[simp] theorem respond_inbox (r : Response) (s : State) : (respond r s).inbox = s.inbox := rfl
@[simp] theorem respond_resp (r : Response) (s : State) : (respond r s).resp = some r := rfl
@[simp] theorem respond_outbox (r : Response) (s : State) : (respond r s).outbox = s.outbox := rfl
@[simp] theorem respond_writeAnswers (r : Response) (s : State) : (respond r s).writeAnswers = s.writeAnswers := rfl
@[simp] theorem respond_readAnswers (r : Response) (s : State) : (respond r s).readAnswers = s.readAnswers := rfl
@[simp] theorem respond_adcAnswers (r : Response) (s : State) : (respond r s).adcAnswers = s.adcAnswers := rfl
@[simp] theorem respond_drawn (r : Response) (s : State) : (respond r s).drawn = s.drawn := rfl

@[simp] theorem commit_ctl (c : Control) (s : State) : (commit c s).ctl = c := rfl
@[simp] theorem commit_cfg (c : Control) (s : State) : (commit c s).cfg = s.cfg := rfl
@[simp] theorem commit_inbox (c : Control) (s : State) : (commit c s).inbox = s.inbox := rfl
@[simp] theorem commit_resp (c : Control) (s : State) : (commit c s).resp = s.resp := rfl
@[simp] theorem commit_outbox (c : Control) (s : State) : (commit c s).outbox = s.outbox := rfl
@[simp] theorem commit_writeAnswers (c : Control) (s : State) : (commit c s).writeAnswers = s.writeAnswers := rfl
@[simp] theorem commit_readAnswers (c : Control) (s : State) : (commit c s).readAnswers = s.readAnswers := rfl
@[simp] theorem commit_adcAnswers (c : Control) (s : State) : (commit c s).adcAnswers = s.adcAnswers := rfl
@[simp] theorem commit_drawn (c : Control) (s : State) : (commit c s).drawn = s.drawn := rfl

@[simp] theorem raise_ctl (st : Status) (s : State) : (raise st s).ctl = s.ctl := rfl
@[simp] theorem raise_cfg (st : Status) (s : State) : (raise st s).cfg = s.cfg := rfl
@[simp] theorem raise_inbox (st : Status) (s : State) : (raise st s).inbox = s.inbox := rfl
@[simp] theorem raise_resp (st : Status) (s : State) : (raise st s).resp = some (faultResponse st) := rfl
@[simp] theorem raise_outbox (st : Status) (s : State) : (raise st s).outbox = s.outbox := rfl
@[simp] theorem raise_writeAnswers (st : Status) (s : State) : (raise st s).writeAnswers = s.writeAnswers := rfl
@[simp] theorem raise_readAnswers (st : Status) (s : State) : (raise st s).readAnswers = s.readAnswers := rfl
@[simp] theorem raise_adcAnswers (st : Status) (s : State) : (raise st s).adcAnswers = s.adcAnswers := rfl
@[simp] theorem raise_drawn (st : Status) (s : State) : (raise st s).drawn = s.drawn := rfl

@[simp] theorem raiseFatal_ctl (s : State) : (raiseFatal s).ctl = { s.ctl with fatal := true } := rfl
@[simp] theorem raiseFatal_cfg (s : State) : (raiseFatal s).cfg = s.cfg := rfl
@[simp] theorem raiseFatal_inbox (s : State) : (raiseFatal s).inbox = s.inbox := rfl
@[simp] theorem raiseFatal_resp (s : State) : (raiseFatal s).resp = some (faultResponse .fatal) := rfl
@[simp] theorem raiseFatal_outbox (s : State) : (raiseFatal s).outbox = s.outbox := rfl
@[simp] theorem raiseFatal_writeAnswers (s : State) : (raiseFatal s).writeAnswers = s.writeAnswers := rfl
@[simp] theorem raiseFatal_readAnswers (s : State) : (raiseFatal s).readAnswers = s.readAnswers := rfl
@[simp] theorem raiseFatal_adcAnswers (s : State) : (raiseFatal s).adcAnswers = s.adcAnswers := rfl
@[simp] theorem raiseFatal_drawn (s : State) : (raiseFatal s).drawn = s.drawn := rfl

@[simp] theorem drvWrite_ctl (addr : Byte) (bytes : List Byte) (s : State) : (drvWrite addr bytes s).2.ctl = s.ctl := rfl
@[simp] theorem drvWrite_cfg (addr : Byte) (bytes : List Byte) (s : State) : (drvWrite addr bytes s).2.cfg = s.cfg := rfl
@[simp] theorem drvWrite_inbox (addr : Byte) (bytes : List Byte) (s : State) : (drvWrite addr bytes s).2.inbox = s.inbox := rfl
@[simp] theorem drvWrite_resp (addr : Byte) (bytes : List Byte) (s : State) : (drvWrite addr bytes s).2.resp = s.resp := rfl
@[simp] theorem drvWrite_outbox (addr : Byte) (bytes : List Byte) (s : State) : (drvWrite addr bytes s).2.outbox = s.outbox ++ [.write addr bytes] := rfl
@[simp] theorem drvWrite_writeAnswers (addr : Byte) (bytes : List Byte) (s : State) : (drvWrite addr bytes s).2.writeAnswers = s.writeAnswers.tail := rfl
@[simp] theorem drvWrite_readAnswers (addr : Byte) (bytes : List Byte) (s : State) : (drvWrite addr bytes s).2.readAnswers = s.readAnswers := rfl
@[simp] theorem drvWrite_adcAnswers (addr : Byte) (bytes : List Byte) (s : State) : (drvWrite addr bytes s).2.adcAnswers = s.adcAnswers := rfl
@[simp] theorem drvWrite_drawn (addr : Byte) (bytes : List Byte) (s : State) : (drvWrite addr bytes s).2.drawn = s.drawn + 1 := rfl

@[simp] theorem drvReadAmux_ctl (sel : Byte) (s : State) : (drvReadAmux sel s).2.ctl = s.ctl := rfl
@[simp] theorem drvReadAmux_cfg (sel : Byte) (s : State) : (drvReadAmux sel s).2.cfg = s.cfg := rfl
@[simp] theorem drvReadAmux_inbox (sel : Byte) (s : State) : (drvReadAmux sel s).2.inbox = s.inbox := rfl
@[simp] theorem drvReadAmux_resp (sel : Byte) (s : State) : (drvReadAmux sel s).2.resp = s.resp := rfl
@[simp] theorem drvReadAmux_outbox (sel : Byte) (s : State) : (drvReadAmux sel s).2.outbox = s.outbox ++ [.readAmux sel] := rfl
@[simp] theorem drvReadAmux_writeAnswers (sel : Byte) (s : State) : (drvReadAmux sel s).2.writeAnswers = s.writeAnswers := rfl
@[simp] theorem drvReadAmux_readAnswers (sel : Byte) (s : State) : (drvReadAmux sel s).2.readAnswers = s.readAnswers.tail := rfl
@[simp] theorem drvReadAmux_adcAnswers (sel : Byte) (s : State) : (drvReadAmux sel s).2.adcAnswers = s.adcAnswers := rfl
@[simp] theorem drvReadAmux_drawn (sel : Byte) (s : State) : (drvReadAmux sel s).2.drawn = s.drawn + 1 := rfl

@[simp] theorem adcSample_ctl (ch : Nat) (s : State) : (adcSample ch s).2.ctl = s.ctl := rfl
@[simp] theorem adcSample_cfg (ch : Nat) (s : State) : (adcSample ch s).2.cfg = s.cfg := rfl
@[simp] theorem adcSample_inbox (ch : Nat) (s : State) : (adcSample ch s).2.inbox = s.inbox := rfl
@[simp] theorem adcSample_resp (ch : Nat) (s : State) : (adcSample ch s).2.resp = s.resp := rfl
@[simp] theorem adcSample_outbox (ch : Nat) (s : State) : (adcSample ch s).2.outbox = s.outbox ++ [.sample ch] := rfl
@[simp] theorem adcSample_writeAnswers (ch : Nat) (s : State) : (adcSample ch s).2.writeAnswers = s.writeAnswers := rfl
@[simp] theorem adcSample_readAnswers (ch : Nat) (s : State) : (adcSample ch s).2.readAnswers = s.readAnswers := rfl
@[simp] theorem adcSample_adcAnswers (ch : Nat) (s : State) : (adcSample ch s).2.adcAnswers = s.adcAnswers.tail := rfl
@[simp] theorem adcSample_drawn (ch : Nat) (s : State) : (adcSample ch s).2.drawn = s.drawn + 1 := rfl

@[simp] theorem resetWith_ctl (c : Config) : (State.resetWith c).ctl = Control.reset := rfl
@[simp] theorem resetWith_cfg (c : Config) : (State.resetWith c).cfg = c := rfl
@[simp] theorem resetWith_inbox (c : Config) : (State.resetWith c).inbox = [] := rfl
@[simp] theorem resetWith_resp (c : Config) : (State.resetWith c).resp = none := rfl
@[simp] theorem resetWith_outbox (c : Config) : (State.resetWith c).outbox = [] := rfl
@[simp] theorem resetWith_writeAnswers (c : Config) : (State.resetWith c).writeAnswers = [] := rfl
@[simp] theorem resetWith_readAnswers (c : Config) : (State.resetWith c).readAnswers = [] := rfl
@[simp] theorem resetWith_adcAnswers (c : Config) : (State.resetWith c).adcAnswers = [] := rfl
@[simp] theorem resetWith_drawn (c : Config) : (State.resetWith c).drawn = 0 := rfl

@[simp] theorem controlReset_prevSp : Control.reset.prevSp = 0#32 := rfl
@[simp] theorem controlReset_iacc : Control.reset.iacc = 0#32 := rfl
@[simp] theorem controlReset_ien : Control.reset.ien = false := rfl
@[simp] theorem controlReset_iest : Control.reset.iest = 0#32 := rfl
@[simp] theorem controlReset_hist : Control.reset.hist = Vector.replicate histN 0#32 := rfl
@[simp] theorem controlReset_ticks : Control.reset.ticks = 0 := rfl
@[simp] theorem controlReset_fatal : Control.reset.fatal = false := rfl

end Sys2Proof.Machine
end

