-- ==== Sys2Proof/Laws/Ops.lean ====
section
/-! SUPPORT. What each shared operation can do, said once: serving a request, the operand check, the history window, reset. -/

namespace Sys2Proof.Machine

/-- Serving under an admitted configuration always answers a next state. -/
theorem serve_admitted (f : State → State) {s : State} (h : admitted s.cfg = true) :
    serve f s = .next (if s.ctl.fatal then raise .fatal s else f s) := by
  simp [serve, h]

/-- Serving a request that is not stopped by the fatal bit. -/
theorem serve_live (f : State → State) {s : State} (h : admitted s.cfg = true) (hf : s.ctl.fatal = false) :
    serve f s = .next (f s) := by
  simp [serve, h, hf]

/-- Serving with the fatal bit set. -/
theorem serve_fatal (f : State → State) {s : State} (h : admitted s.cfg = true) (hf : s.ctl.fatal = true) :
    serve f s = .next (raise .fatal s) := by
  simp [serve, h, hf]

/-- A configuration that is not admitted has no meaning. -/
theorem serve_refused (f : State → State) {s : State} (h : admitted s.cfg = false) :
    serve f s = .refused .configuration := by
  simp [serve, h]

/-- Everything `serve` can do when it answers a next state. -/
theorem serve_next {f : State → State} {s t : State} (h : serve f s = .next t) :
    admitted s.cfg = true ∧
      ((s.ctl.fatal = true ∧ t = raise .fatal s) ∨ (s.ctl.fatal = false ∧ t = f s)) := by
  cases ha : admitted s.cfg with
  | false => simp [serve, ha] at h
  | true =>
    cases hf : s.ctl.fatal with
    | true => simp_all [serve]
    | false => simp_all [serve]

@[simp] theorem checkOperands_true (f : State → State) (s : State) : checkOperands true f s = f s := rfl

@[simp] theorem checkOperands_false (f : State → State) (s : State) : checkOperands false f s = raise .operand s := rfl

/-- Everything the operand check can do. -/
theorem checkOperands_cases (good : Bool) (f : State → State) (s : State) :
    (good = true ∧ checkOperands good f s = f s) ∨ (good = false ∧ checkOperands good f s = raise .operand s) := by
  cases good <;> simp

@[simp] theorem allFinite_nil : allFinite [] = true := rfl

@[simp] theorem allFinite_cons (x : F32) (xs : List F32) : allFinite (x :: xs) = (finite x && allFinite xs) := rfl

/-- `allFinite` says that every value of the list is finite. -/
theorem allFinite_iff (xs : List F32) : allFinite xs = true ↔ ∀ x ∈ xs, finite x = true := by simp [allFinite]

/-- `allFinite` fails exactly when some value of the list is not finite. -/
theorem allFinite_eq_false_iff (xs : List F32) : allFinite xs = false ↔ ∃ x ∈ xs, finite x = false := by
  simp [allFinite]

@[simp] theorem allFinite_append (xs ys : List F32) : allFinite (xs ++ ys) = (allFinite xs && allFinite ys) := by
  simp [allFinite]

/-- Entry 49 after a push is the value pushed (20_memory.md R41). -/
@[simp] theorem push_newest (v : F32) (h : Vector F32 histN) : (push v h)[49] = v := by
  simp [push]

/-- Every other entry after a push is the next newer one before it (20_memory.md R41). -/
theorem push_older (v : F32) (h : Vector F32 histN) {i : Nat} (hi : i + 1 < histN) :
    (push v h)[i] = h[i + 1] := by
  simp [push, hi]

@[simp] theorem zeroFill_get {i : Nat} (hi : i < histN) : zeroFill[i] = 0#32 := by
  simp [zeroFill]

/-- Everything a reset can do when it answers a next state. -/
theorem takeReset_next {c : Config} {s t : State} (h : takeReset c s = .next t) :
    admitted c = true ∧ t = { s with ctl := Control.reset, cfg := c, resp := none } := by
  cases ha : admitted c with
  | false => simp [takeReset, ha] at h
  | true => simp_all [takeReset]

/-- Everything a reset during a request can do when it answers a next state. -/
theorem takeResetDuring_next {n : Nat} {c : Config} {s t : State} {o : Host.Outcome State Fault Refusal}
    (h : takeResetDuring n c s o = .next t) :
    ∃ m, o = .next m ∧ admitted c = true ∧
      t = { m with ctl := Control.reset, cfg := c, resp := none,
                   outbox := s.outbox ++ (m.outbox.drop s.outbox.length).take n } := by
  cases o with
  | next m =>
    obtain ⟨ha, rfl⟩ := takeReset_next h
    exact ⟨m, rfl, ha, rfl⟩
  | fault e => simp [takeResetDuring] at h
  | refused e => simp [takeResetDuring] at h

end Sys2Proof.Machine
end

