-- ==== Sys2Proof/Laws/Exec.lean ====
section
/-! SUPPORT. What the meanings can do, said once: each serves its effect, and each effect ends in one of a few named ways. -/

namespace Sys2Proof.Machine

/-- The effect each operation has when it is served. -/
def effectOf : Instr → State → State
  | .pidTick cur set out => pidTickEffect cur set out
  | .bootLookup set out => bootLookupEffect set out
  | .crc8 data => crc8Effect data
  | .crc8Check data => crc8CheckEffect data
  | .v2dac volts => v2dacEffect volts
  | .dac2v code => dac2vEffect code
  | .amux2v sel raw => amux2vEffect sel raw
  | .setv volts => setvEffect volts
  | .loadCmp vAct vExt => loadCmpEffect vAct vExt
  | .loadCheck => loadCheckEffect

/-- Every meaning serves its effect. -/
theorem exec_eq_serve (i : Instr) (s : State) : exec i s = serve (effectOf i) s := by cases i <;> rfl

/-- Under an admitted configuration every operation answers a next state. -/
theorem exec_admitted (i : Instr) {s : State} (h : admitted s.cfg = true) :
    exec i s = .next (if s.ctl.fatal then raise .fatal s else effectOf i s) := by
  rw [exec_eq_serve, serve_admitted _ h]

/-- Everything an operation can do when it answers a next state. -/
theorem exec_next {i : Instr} {s t : State} (h : exec i s = .next t) :
    admitted s.cfg = true ∧
      ((s.ctl.fatal = true ∧ t = raise .fatal s) ∨ (s.ctl.fatal = false ∧ t = effectOf i s)) := by
  rw [exec_eq_serve] at h
  exact serve_next h

theorem pidTickEffect_cases (cur set out : F32) (s : State) :
    (allFinite [cur, set, out] = true ∧ allFinite (tickVals s.cfg cur set out s.ctl) = true ∧
      pidTickEffect cur set out s
        = respond (tickResponse (tickOutput s.cfg cur set out s.ctl)) (commit (tickNext s.cfg cur set out s.ctl) s)) ∨
    (allFinite [cur, set, out] = true ∧ allFinite (tickVals s.cfg cur set out s.ctl) = false ∧
      pidTickEffect cur set out s = raise .range s) ∨
    (allFinite [cur, set, out] = false ∧ pidTickEffect cur set out s = raise .operand s) := by
  unfold pidTickEffect
  cases hf : allFinite [cur, set, out] with
  | false => simp
  | true => cases hv : allFinite (tickVals s.cfg cur set out s.ctl) <;> simp [hv]

theorem bootLookupEffect_cases (set out : F32) (s : State) :
    (allFinite [set, out] = true ∧ allFinite (boot s.cfg set out).vals = true ∧
      bootLookupEffect set out s
        = respond (response .ok (q1 := (boot s.cfg set out).seed) (q2 := indexWord (boot s.cfg set out).idx)) s) ∨
    (allFinite [set, out] = true ∧ allFinite (boot s.cfg set out).vals = false ∧
      bootLookupEffect set out s = raise .range s) ∨
    (allFinite [set, out] = false ∧ bootLookupEffect set out s = raise .operand s) := by
  unfold bootLookupEffect
  cases hf : allFinite [set, out] with
  | false => simp
  | true => cases hv : allFinite (boot s.cfg set out).vals <;> simp [hv]

theorem amux2vEffect_cases (sel : Byte) (raw : Word) (s : State) :
    (channelOf s.cfg sel = none ∧ amux2vEffect sel raw s = raiseFatal s) ∨
    (∃ ch, channelOf s.cfg sel = some ch ∧ finite (amuxVolts s.cfg ch raw) = true ∧
      amux2vEffect sel raw s = respond (response .ok (q1 := amuxVolts s.cfg ch raw)) s) ∨
    (∃ ch, channelOf s.cfg sel = some ch ∧ finite (amuxVolts s.cfg ch raw) = false ∧
      amux2vEffect sel raw s = raise .range s) := by
  unfold amux2vEffect
  cases hc : channelOf s.cfg sel with
  | none => simp
  | some ch => cases hv : finite (amuxVolts s.cfg ch raw) <;> simp [amux2vChannel, hv]

theorem loadCmpEffect_cases (a b : F32) (s : State) :
    (allFinite [a, b] = true ∧ finite (loadDiff a b) = true ∧
      loadCmpEffect a b s
        = respond (response .ok (q1 := loadDiff a b) (bool := connected s.cfg (loadDiff a b))) s) ∨
    (allFinite [a, b] = true ∧ finite (loadDiff a b) = false ∧ loadCmpEffect a b s = raise .range s) ∨
    (allFinite [a, b] = false ∧ loadCmpEffect a b s = raise .operand s) := by
  unfold loadCmpEffect
  cases hf : allFinite [a, b] with
  | false => simp
  | true => cases hv : finite (loadDiff a b) <;> simp

theorem loadCheckCompare_cases (a b : F32) (s : State) :
    (finite b = true ∧ finite (loadDiff a b) = true ∧
      loadCheckCompare a b s
        = respond (response .ok (q1 := loadDiff a b) (q2 := a) (q3 := b) (bool := connected s.cfg (loadDiff a b))) s) ∨
    ((finite b = false ∨ finite (loadDiff a b) = false) ∧ loadCheckCompare a b s = raise .range s) := by
  unfold loadCheckCompare
  cases hb : finite b <;> cases hd : finite (loadDiff a b) <;> simp

/-- The three ways `LOAD_CHECK` can go: a driver error, a Vout that is not finite, or a comparison after a sample (42_load_monitor.md R121). -/
theorem loadCheckEffect_cases (s : State) :
    ((voutRead s).1.1 ≠ .ok ∧ loadCheckEffect s = respond (response (driverStatus (voutRead s).1.1)) (voutRead s).2) ∨
    ((voutRead s).1.1 = .ok ∧ finite (amuxVolts s.cfg .vout (voutRead s).1.2) = false ∧
      loadCheckEffect s = raise .range (voutRead s).2) ∨
    ((voutRead s).1.1 = .ok ∧ finite (amuxVolts s.cfg .vout (voutRead s).1.2) = true ∧
      loadCheckEffect s
        = loadCheckCompare (amuxVolts s.cfg .vout (voutRead s).1.2) (adcSample s.cfg.loadAdcCh (voutRead s).2).1
            (adcSample s.cfg.loadAdcCh (voutRead s).2).2) := by
  by_cases hok : (voutRead s).1.1 = .ok
  · have hcfg : (voutRead s).2.cfg = s.cfg := rfl
    simp only [loadCheckEffect, if_pos hok, loadCheckRead, hcfg]
    cases hv : finite (amuxVolts s.cfg .vout (voutRead s).1.2) <;> simp [hok]
  · exact .inl ⟨hok, by simp [loadCheckEffect, hok]⟩

end Sys2Proof.Machine
end

