-- ==== Sys2Proof/Laws/Pid.lean ====
section
/-! SUPPORT. What each step of a tick leaves in each field of the record `S`. -/

namespace Sys2Proof.Machine

variable (cfg : Config) (cur e set out : F32) (c : Control)

@[simp] theorem tickReset_fatal : (tickReset set c).fatal = c.fatal := by unfold tickReset; split <;> rfl

/-- A tick with the set point unchanged resets nothing (43_pid.md R132). -/
theorem tickReset_same (h : feq set c.prevSp = true) : tickReset set c = c := by simp [tickReset, h]

/-- A tick with a new set point resets the record and takes the set point (R132). -/
theorem tickReset_new (h : feq set c.prevSp = false) :
    tickReset set c = { c with hist := zeroFill, ticks := 0, ien := false, iacc := 0#32, iest := 0#32, prevSp := set } := by
  simp [tickReset, h]

@[simp] theorem tickGate_fatal : (tickGate cfg e set out c).fatal = c.fatal := by unfold tickGate; split <;> rfl
@[simp] theorem tickGate_prevSp : (tickGate cfg e set out c).prevSp = c.prevSp := by unfold tickGate; split <;> rfl
@[simp] theorem tickGate_hist : (tickGate cfg e set out c).hist = c.hist := by unfold tickGate; split <;> rfl
@[simp] theorem tickGate_ticks : (tickGate cfg e set out c).ticks = c.ticks := by unfold tickGate; split <;> rfl

/-- The gate only ever enables the integral (R134). -/
@[simp] theorem tickGate_ien : (tickGate cfg e set out c).ien = (c.ien || gateOpens cfg e set c) := by
  unfold tickGate
  split
  · simp_all
  · simp_all

@[simp] theorem tickAccumulate_fatal : (tickAccumulate cfg e c).fatal = c.fatal := by unfold tickAccumulate; split <;> rfl
@[simp] theorem tickAccumulate_prevSp : (tickAccumulate cfg e c).prevSp = c.prevSp := by unfold tickAccumulate; split <;> rfl
@[simp] theorem tickAccumulate_hist : (tickAccumulate cfg e c).hist = c.hist := by unfold tickAccumulate; split <;> rfl
@[simp] theorem tickAccumulate_ticks : (tickAccumulate cfg e c).ticks = c.ticks := by unfold tickAccumulate; split <;> rfl
@[simp] theorem tickAccumulate_ien : (tickAccumulate cfg e c).ien = c.ien := by unfold tickAccumulate; split <;> rfl
@[simp] theorem tickAccumulate_iest : (tickAccumulate cfg e c).iest = c.iest := by unfold tickAccumulate; split <;> rfl

/-- While the integral is off the accumulation gate does nothing (R136). -/
theorem tickAccumulate_off (h : c.ien = false) : tickAccumulate cfg e c = c := by simp [tickAccumulate, h]

@[simp] theorem tickNext_fatal : (tickNext cfg cur set out c).fatal = c.fatal := by
  simp [tickNext, tickCount, tickToPush, tickPush]

@[simp] theorem tickNext_prevSp : (tickNext cfg cur set out c).prevSp = (tickReset set c).prevSp := by
  simp [tickNext, tickCount, tickToPush, tickPush]

@[simp] theorem tickNext_ticks : (tickNext cfg cur set out c).ticks = min ((tickReset set c).ticks + 1) 50 := by
  simp [tickNext, tickCount, tickToPush, tickPush]

@[simp] theorem tickNext_hist :
    (tickNext cfg cur set out c).hist = push (tickError cur set) (tickReset set c).hist := by
  simp [tickNext, tickCount, tickToPush, tickPush]

@[simp] theorem tickNext_ien :
    (tickNext cfg cur set out c).ien
      = ((tickReset set c).ien || gateOpens cfg (tickError cur set) set (tickReset set c)) := by
  simp [tickNext, tickCount, tickToPush, tickPush]

end Sys2Proof.Machine
end

