-- ==== Sys2Proof/Laws/Finite.lean ====
section
/-! SUPPORT. The values a table search and a tick compute, as the lists the meanings test and as the conditions the statements write
out. -/

namespace Sys2Proof.Machine

/-- The distances a scan from the entry `p` computes are those of the entries it reaches before it stops (43_pid.md R142). -/
theorem bootScan_vals (d : F32) (z : BootEntry) (rest : List BootEntry) : ∀ (i : Nat) (p : BootEntry),
    allFinite (bootScan d i p rest).vals = true ↔
      ∀ k, 2 ≤ (p :: rest).length → k < (p :: rest).length →
        (∀ j, j + 1 < k → fge (bootDist d ((p :: rest).getD (j + 1) z)) (bootDist d ((p :: rest).getD j z)) = false) →
        finite (bootDist d ((p :: rest).getD k z)) = true := by
  induction rest with
  | nil => intro i p; simp [bootScan]
  | cons e rest ih =>
    intro i p
    unfold bootScan
    cases hstop : fge (bootDist d e) (bootDist d p) with
    | true =>
      simp only [if_true, allFinite_cons, allFinite_nil, Bool.and_true, Bool.and_eq_true]
      constructor
      · rintro ⟨he, hp⟩ k _ hk hgo
        match k with
        | 0 => simpa using hp
        | 1 => simpa using he
        | k + 2 => have := hgo 0 (by omega); simp [hstop] at this
      · intro h
        exact ⟨by simpa using h 1 (by simp) (by simp) (by omega), by simpa using h 0 (by simp) (by simp) (by omega)⟩
    | false =>
      simp only [Bool.false_eq_true, if_false, allFinite_cons, Bool.and_eq_true, ih (i + 1) e]
      constructor
      · rintro ⟨he, hp, hrest⟩ k _ hk hgo
        match k with
        | 0 => simpa using hp
        | 1 => simpa using he
        | k + 2 =>
          simp only [List.length_cons] at hk
          have := hrest (k + 1) (by simp only [List.length_cons]; omega) (by simp only [List.length_cons]; omega)
            (fun j hj => by simpa using hgo (j + 1) (by omega))
          simpa using this
      · intro h
        refine ⟨by simpa using h 1 (by simp) (by simp) (by omega), by simpa using h 0 (by simp) (by simp) (by omega), ?_⟩
        intro k _ hk hgo
        have := h (k + 1) (by simp) (by simp only [List.length_cons] at hk ⊢; omega) (fun j hj => by
          match j with
          | 0 => simpa using hstop
          | j + 1 => simpa using hgo j (by omega))
        simpa using this

/-- What a scan finds are entries of the table, each with its index. -/
theorem bootScan_entry (d : F32) (z : BootEntry) (rest : List BootEntry) : ∀ (i : Nat) (p : BootEntry),
    (∀ e k, (bootScan d i p rest).stopped = some (e, k) → ∃ m, k = i + m ∧ (p :: rest).getD m z = e) ∧
    (∃ m, (bootScan d i p rest).last.2 = i + m ∧ (p :: rest).getD m z = (bootScan d i p rest).last.1) := by
  induction rest with
  | nil => intro i p; exact ⟨by simp [bootScan], 0, by simp [bootScan]⟩
  | cons e rest ih =>
    intro i p
    unfold bootScan
    cases hstop : fge (bootDist d e) (bootDist d p) with
    | true =>
      refine ⟨fun e' k h => ⟨0, ?_⟩, 0, by simp⟩
      simp only [if_true, Option.some.injEq, Prod.mk.injEq] at h
      simp [h.1, h.2]
    | false =>
      obtain ⟨hs, m, hl, he⟩ := ih (i + 1) e
      refine ⟨fun e' k h => ?_, m + 1, ?_⟩
      · obtain ⟨n, hk, hn⟩ := hs e' k (by simpa using h)
        exact ⟨n + 1, by omega, by simpa using hn⟩
      · simp only [Bool.false_eq_true, if_false]
        exact ⟨by omega, by simpa using he⟩

/-- The entry `boot` uses is the entry of the table at the index it answers. -/
theorem bootEntry_entry {d : F32} {p : BootEntry} {rest : List BootEntry} {beyond : BootBeyond} {e : BootEntry} {k : Nat}
    (z : BootEntry) (h : bootEntry beyond (bootScan d 0 p rest) = some (e, k)) : (p :: rest).getD k z = e := by
  obtain ⟨hs, m, hl, he⟩ := bootScan_entry d z rest 0 p
  unfold bootEntry at h
  split at h
  · next e' hstop =>
    cases h
    obtain ⟨n, hk, hn⟩ := hs e k hstop
    rw [hk, Nat.zero_add, hn]
  · split at h
    · cases h
    · have hlast : (bootScan d 0 p rest).last = (e, k) := Option.some.inj h
      rw [hlast] at hl he
      rw [show k = m by simpa using hl, he]

/-- The list of the values `boot` computes holds finite values exactly when those that R142 writes down are finite. -/
theorem allFinite_boot_iff (cfg : Config) (set out : F32) :
    allFinite (boot cfg set out).vals = true ↔ BootFinite cfg set out := by
  unfold boot BootFinite
  cases ht : cfg.bootTable with
  | nil => simp [boot, ht]
  | cons p rest =>
    have hidx : (boot cfg set out).idx = (bootEntry cfg.bootBeyond (bootScan (fsub set out) 0 p rest)).map (·.2) := by
      simp only [boot, ht]
      split <;> simp_all
    have hvals := bootScan_vals (fsub set out) ⟨0#32, 0#32⟩ rest 0 p
    simp only [bootDist] at hvals
    dsimp only
    split
    · next hnone =>
      simp only [hidx, hnone, Option.map_none, allFinite_cons, Bool.and_eq_true, hvals]
      simp
    · next e k hsome =>
      have he := bootEntry_entry ⟨0#32, 0#32⟩ hsome
      simp only [hidx, hsome, Option.map_some, allFinite_cons, Bool.and_eq_true, hvals, Option.some.injEq]
      constructor
      · rintro ⟨hd, hq, hv⟩
        exact ⟨hd, hv, by rintro j rfl; rw [he]; exact hq⟩
      · rintro ⟨hd, hv, hq⟩
        exact ⟨hd, by have := hq k rfl; rwa [he] at this, hv⟩

/-- The list of the values a tick computes holds finite values exactly when those that R130 writes down are finite. -/
theorem allFinite_tickVals_iff (cfg : Config) (cur set out : F32) (c : Control) :
    allFinite (tickVals cfg cur set out c) = true ↔ TickFinite cfg cur set out c := by
  unfold TickFinite
  extract_lets c1 e evaluated rel opens seed c3 step4 cand p q dev iacc hist diff span deriv kp ki kd
  have hc1 : tickReset set c = c1 := by unfold tickReset zeroFill; rfl
  have hc3 : tickGate cfg e set out c1 = c3 := rfl
  have hacc : tickAccumulate cfg e c3 = { c3 with iacc := iacc } := by
    have hi : iacc = if (c3.ien && fle (deviation cfg e c3) cfg.integMaxDev) = true then candidate cfg e c3 else c3.iacc := rfl
    rw [hi]
    unfold tickAccumulate
    split <;> rfl
  have hpush : tickToPush cfg cur set out c = { c3 with iacc := iacc, hist := hist } := by
    change tickPush e (tickAccumulate cfg e (tickGate cfg e set out (tickReset set c))) = _
    rw [hc1, hc3, hacc]
    rfl
  have hgate : allFinite (gateVals cfg e set out c1) = true ↔
      (evaluated = true → finite rel = true) ∧ (opens = true → BootFinite cfg set out) := by
    have h : gateVals cfg e set out c1
        = (if evaluated = true then [rel] else []) ++ (if opens = true then (boot cfg set out).vals else []) := rfl
    rw [h, allFinite_append, Bool.and_eq_true, ← allFinite_boot_iff]
    cases evaluated <;> cases opens <;> simp
  have hstep4 : allFinite (accumulateVals cfg e c3) = true ↔
      (c3.ien = true → ∀ v ∈ [step4, cand, p, q, dev], finite v = true) := by
    have h : accumulateVals cfg e c3 = if c3.ien = true then [step4, cand, p, q, dev] else [] := rfl
    rw [h, ← allFinite_iff]
    cases c3.ien <;> simp
  have hout : outputVals cfg e (tickToPush cfg cur set out c)
      = [diff, span, deriv, kp, ki, kd, fadd kp ki, fadd (fadd kp ki) kd] := by
    rw [hpush]
    rfl
  have hall : allFinite (tickVals cfg cur set out c) = true ↔
      finite e = true ∧ ((allFinite (gateVals cfg e set out c1) = true ∧ allFinite (accumulateVals cfg e c3) = true) ∧
        allFinite (outputVals cfg e (tickToPush cfg cur set out c)) = true) := by
    have h : tickVals cfg cur set out c = e :: (gateVals cfg e set out (tickReset set c)
        ++ accumulateVals cfg e (tickGate cfg e set out (tickReset set c)) ++ outputVals cfg e (tickToPush cfg cur set out c)) := rfl
    rw [h, hc1, hc3, allFinite_cons, allFinite_append, allFinite_append]
    simp only [Bool.and_eq_true]
  have hlast : allFinite (outputVals cfg e (tickToPush cfg cur set out c)) = true ↔
      ∀ v ∈ [diff, span, deriv, kp, ki, kd, fadd kp ki, fadd (fadd kp ki) kd], finite v = true := by
    rw [hout, allFinite_iff]
  have hcons (l : List F32) : (∀ v ∈ e :: l, finite v = true) ↔ finite e = true ∧ ∀ v ∈ l, finite v = true :=
    List.forall_mem_cons
  rw [hall, hgate, hstep4, hlast, hcons]
  exact ⟨fun ⟨he, ⟨⟨hr, hb⟩, h4⟩, h6⟩ => ⟨hr, hb, h4, he, h6⟩, fun ⟨hr, hb, h4, he, h6⟩ => ⟨he, ⟨⟨hr, hb⟩, h4⟩, h6⟩⟩

end Sys2Proof.Machine
end

