-- ==== Sys2Proof/Laws/Float.lean ====
section
/-! SUPPORT. The small laws of the binary32 definitions: the rounding of a quotient, the fields of a built pattern, signs. -/

namespace Sys2Proof.Machine

/-- `rneNat n d` is within half of `n / d`. -/
theorem rneNat_near (n : Nat) {d : Nat} (hd : 0 < d) :
    2 * n ≤ 2 * (d * rneNat n d) + d ∧ 2 * (d * rneNat n d) ≤ 2 * n + d := by
  have h := Nat.div_add_mod n d
  have hlt := Nat.mod_lt n hd
  unfold rneNat
  split
  · constructor <;> omega
  · split
    · rw [Nat.mul_add]; constructor <;> omega
    · have h2 : 2 * (n % d) = d := by omega
      rcases Nat.mod_two_eq_zero_or_one (n / d) with h0 | h1
      · rw [h0, Nat.add_zero]; constructor <;> omega
      · rw [h1, Nat.mul_add]; constructor <;> omega

/-- A quotient that is a whole number is its own rounding. -/
@[simp] theorem rneNat_mul_left (m : Nat) {d : Nat} (hd : 0 < d) : rneNat (d * m) d = m := by
  simp [rneNat, hd]

/-- The 31 lower bits of a rounding never exceed the infinities'. -/
theorem rneMag_le (n d : Nat) : rneMag n d ≤ infBits := Nat.min_le_right _ _

@[simp] theorem signBit_withSign (neg : Bool) (m : Nat) : signBit (withSign neg m) = neg := by
  change (BitVec.ofBool neg ++ BitVec.ofNat 31 m : BitVec (1 + 31)).msb = neg
  rw [BitVec.msb_append]
  cases neg <;> simp

theorem fneg_fneg (x : F32) : fneg (fneg x) = x := by
  simp [fneg]

theorem finite_fneg (x : F32) : finite (fneg x) = finite x := by
  have : (fneg x).extractLsb' 23 8 = x.extractLsb' 23 8 := by
    ext i hi
    simp only [fneg, BitVec.getElem_extractLsb', BitVec.getLsbD_xor]
    have : (0x80000000#32).getLsbD (23 + i) = false := by
      interval_cases i <;> decide
    simp [this]
  simp [finite, expField, this]

theorem finite_fabs (x : F32) : finite (fabs x) = finite x := by
  have : (fabs x).extractLsb' 23 8 = x.extractLsb' 23 8 := by
    ext i hi
    simp only [fabs, BitVec.getElem_extractLsb', BitVec.getLsbD_and]
    have : (0x7FFFFFFF#32).getLsbD (23 + i) = true := by
      interval_cases i <;> decide
    simp [this]
  simp [finite, expField, this]

/-- A NaN is not finite. -/
theorem not_isNaN_of_finite {x : F32} (h : finite x = true) : isNaN x = false := by
  simp only [finite, bne_iff_ne] at h
  simp [isNaN, h]

/-- An infinity is not finite. -/
theorem not_isInf_of_finite {x : F32} (h : finite x = true) : isInf x = false := by
  simp only [finite, bne_iff_ne] at h
  simp [isInf, h]

/-- A sum of finite operands is the exact sum rounded once, or a signed zero when it is zero (00_scope.md R12). -/
theorem fadd_finite {a b : F32} (ha : finite a = true) (hb : finite b = true) :
    fadd a b = if exact a + exact b = 0 then withSign (signBit a && signBit b) 0 else rne32 (exact a + exact b) := by
  simp [fadd, not_isNaN_of_finite ha, not_isNaN_of_finite hb, not_isInf_of_finite ha, not_isInf_of_finite hb]

/-- A product of finite nonzero operands is the exact product rounded once (R12). -/
theorem fmul_finite {a b : F32} (ha : finite a = true) (hb : finite b = true) (za : isZero a = false)
    (zb : isZero b = false) : fmul a b = rne32 (exact a * exact b) := by
  simp [fmul, not_isNaN_of_finite ha, not_isNaN_of_finite hb, not_isInf_of_finite ha, not_isInf_of_finite hb, za, zb]

/-- A quotient of finite nonzero operands is the exact quotient rounded once (R12). -/
theorem fdiv_finite {a b : F32} (ha : finite a = true) (hb : finite b = true) (za : isZero a = false)
    (zb : isZero b = false) : fdiv a b = rne32 (exact a / exact b) := by
  simp [fdiv, not_isNaN_of_finite ha, not_isNaN_of_finite hb, not_isInf_of_finite ha, not_isInf_of_finite hb, za, zb]

end Sys2Proof.Machine
end

