-- ==== Sys2Proof/Laws/PerInstr.lean ====
section
/-! SUPPORT. The family EncodedOperands: the request of an instruction carries that instruction's code, and reading the operands of its
form back gives the instruction. One lemma per constructor. -/

namespace Sys2Proof.Laws.EncodedOperands

/-- The encoded header holds the operation's code (30_encoding.md R64), and the operand fields of a well-formed instruction hold its
operands (R63, R67). -/
def Statement (i : Instr) : Prop := (encode i).op = i.op.code ∧ (i.wf = true → (encode i).operands i.op = i)

theorem pidTick (cur set out : F32) : Statement (.pidTick cur set out) := ⟨opField_header .., fun _ => rfl⟩

theorem bootLookup (set out : F32) : Statement (.bootLookup set out) := ⟨opField_header .., fun _ => rfl⟩

theorem crc8 (data : List Byte) : Statement (.crc8 data) :=
  ⟨opField_header .., fun h => congrArg Instr.crc8 (byteRequest_data _ (of_decide_eq_true h))⟩

theorem crc8Check (data : List Byte) : Statement (.crc8Check data) :=
  ⟨opField_header .., fun h => congrArg Instr.crc8Check (byteRequest_data _ (of_decide_eq_true h))⟩

theorem v2dac (volts : F32) : Statement (.v2dac volts) := ⟨opField_header .., fun _ => rfl⟩

theorem dac2v (code : Word) : Statement (.dac2v code) := ⟨opField_header .., fun _ => rfl⟩

theorem amux2v (sel : Byte) (raw : Word) : Statement (.amux2v sel raw) :=
  ⟨opField_header .., fun _ => congrArg (Instr.amux2v · raw) (selField_header ..)⟩

theorem setv (volts : F32) : Statement (.setv volts) := ⟨opField_header .., fun _ => rfl⟩

theorem loadCmp (vAct vExt : F32) : Statement (.loadCmp vAct vExt) := ⟨opField_header .., fun _ => rfl⟩

theorem loadCheck : Statement .loadCheck := ⟨opField_header .., fun _ => rfl⟩

end Sys2Proof.Laws.EncodedOperands
end

