-- ==== Sys2Proof/Tests/Slice0.lean ====
section
/-! SUPPORT. Tests of the model. The expected words are the vectors T-* of 95_test_vectors.md and the encodings of 30_encoding.md; each test's
comment names its source. The theorems named witness_* show, for each statement of Certificates/Slice0/Obligations.lean that has
hypotheses, a concrete state and operands that meet them together. -/

namespace Sys2Proof.Machine.Tests

-- One test at a time: otherwise each starts a thread with a stack of its own.
set_option Elab.async false

open Sys2Proof Sys2Proof.Machine

/-- The next state of an outcome, if it is one. -/
def answered (o : Host.Outcome State Fault Refusal) : Option State :=
  match o with
  | .next t => some t
  | .fault _ => none
  | .refused _ => none

/-- The response an operation answers from a state. -/
def respOf (i : Instr) (s : State) : Option Response := (answered (exec i s)).bind fun t => t.resp

/-- The record `S` an operation leaves. -/
def ctlOf (i : Instr) (s : State) : Option Control := (answered (exec i s)).map fun t => t.ctl

/-- The history whose newest entries, oldest of them first, are `l`, the rest +0.0. -/
def histOf (l : List F32) : Vector F32 histN := l.foldl (fun h v => push v h) zeroFill

/-- The record after T-PID-1: prev 20, iacc 8, ien, iest 6, ticks 1, hist [2]. -/
def afterTick1 : Control :=
  { prevSp := 0x41A00000#32, iacc := 0x41000000#32, ien := true, iest := 0x40C00000#32,
    hist := histOf [0x40000000#32], ticks := 1, fatal := false }

/-- The reset machine with that record. -/
def tick1State : State := commit afterTick1 State.reset

/-- The reset machine with the fatal bit set. -/
def fatalState : State := commit { Control.reset with fatal := true } State.reset

/-- The reset machine with the given moves pending. -/
def pending (moves : List HostMove) : State := { State.reset with inbox := moves }

/-! ## WellFormed: one ill-formed term for each check -/

/-- A stream of 65536 bytes is one byte too long for `LEN` (R61, R67); stated of every such stream, since writing one out is slow. -/
theorem test_wf_refuses_crc8_of_65536_bytes (d : List Byte) (h : d.length = 65536) : (Instr.crc8 d).wf = false := by
  simp [Instr.wf, maxLen, h]
theorem test_wf_refuses_crc8Check_of_65536_bytes (d : List Byte) (h : d.length = 65536) : (Instr.crc8Check d).wf = false := by
  simp [Instr.wf, maxLen, h]
theorem test_wf_admits_65535_bytes (d : List Byte) (h : d.length = 65535) :
    (Instr.crc8 d).wf = true ∧ (Instr.crc8Check d).wf = true := by simp [Instr.wf, maxLen, h]
/-- Streams of any length exist, so the tests above are about ill-formed and well-formed terms. -/
theorem test_wf_streams_exist (n : Nat) : ∃ d : List Byte, d.length = n := ⟨List.replicate n 0#8, List.length_replicate⟩

/-! ## Decode: a word of each row written out from R61 and R64 -/

theorem test_decode_pidTick :
    decode ⟨0b00000000000000000000000000000001#32, 1#32, 2#32, 3#32, [], by decide⟩ = .ok (.pidTick 1#32 2#32 3#32) := by decide
theorem test_decode_bootLookup :
    decode ⟨0b00000000000000000000000000000010#32, 1#32, 2#32, 3#32, [], by decide⟩ = .ok (.bootLookup 1#32 2#32) := by decide
theorem test_decode_crc8 :
    decode ⟨0b00000000000000110000000000010000#32, 1#32, 2#32, 3#32, [7#8, 8#8, 9#8], by decide⟩ = .ok (.crc8 [7#8, 8#8, 9#8]) := by decide
theorem test_decode_crc8Check :
    decode ⟨0b00000000000000100000000000010001#32, 1#32, 2#32, 3#32, [7#8, 8#8], by decide⟩ = .ok (.crc8Check [7#8, 8#8]) := by decide
theorem test_decode_v2dac :
    decode ⟨0b00000000000000000000000000100000#32, 1#32, 2#32, 3#32, [], by decide⟩ = .ok (.v2dac 1#32) := by decide
theorem test_decode_dac2v :
    decode ⟨0b00000000000000000000000000100001#32, 1#32, 2#32, 3#32, [], by decide⟩ = .ok (.dac2v 1#32) := by decide
theorem test_decode_amux2v :
    decode ⟨0b00000000000000001010010100100010#32, 1#32, 2#32, 3#32, [], by decide⟩ = .ok (.amux2v 0xA5#8 1#32) := by decide
theorem test_decode_setv :
    decode ⟨0b00000000000000000000000000100011#32, 1#32, 2#32, 3#32, [], by decide⟩ = .ok (.setv 1#32) := by decide
theorem test_decode_loadCmp :
    decode ⟨0b00000000000000000000000000110000#32, 1#32, 2#32, 3#32, [], by decide⟩ = .ok (.loadCmp 1#32 2#32) := by decide
theorem test_decode_loadCheck :
    decode ⟨0b00000000000000000000000000110001#32, 1#32, 2#32, 3#32, [], by decide⟩ = .ok .loadCheck := by decide
/-- T-DEC-4: `PID_TICK` with `SEL` = 1. -/
theorem test_decode_refuses_nonzero_sel : decode ⟨0x00000101#32, 0#32, 0#32, 0#32, [], by decide⟩ = .error .nonzeroSel := by decide
/-- T-AMUX-7: `AMUX2V` with `LEN` = 1. -/
theorem test_decode_refuses_nonzero_len : decode ⟨0x00010022#32, 0#32, 0#32, 0#32, [], by decide⟩ = .error .nonzeroLen := by decide
/-- T-DEC-6 as a step, with the empty stream of R60 and with the one byte of R75, and while `S.fatal` is set (T-DEC-7): `E_FATAL` comes
first. -/
theorem test_step_nonzero_len_is_illegal :
    answered (step (pending [.request ⟨0x00010020#32, 0x7FC00000#32, 0#32, 0#32, [], by decide⟩]))
      = some { State.reset with resp := some ⟨0x00000010#32, 0#32, 0#32, 0#32, 0#32⟩ } ∧
    answered (step (pending [.request ⟨0x00010020#32, 0x7FC00000#32, 0#32, 0#32, [0#8], by decide⟩]))
      = some { State.reset with resp := some ⟨0x00000010#32, 0#32, 0#32, 0#32, 0#32⟩ } ∧
    answered (step { fatalState with inbox := [.request ⟨0x00010020#32, 0x7FC00000#32, 0#32, 0#32, [], by decide⟩] })
      = some { fatalState with resp := some ⟨0x0000001F#32, 0#32, 0#32, 0#32, 0#32⟩ } := by decide +kernel
/-- T-DEC-2. -/
theorem test_decode_refuses_reserved : decode ⟨0x00000024#32, 0#32, 0#32, 0#32, [], by decide⟩ = .error (.reservedOp 0x24#8) := by decide
theorem test_table_word_crc8 : decodeTableWord 32 0x00020010 = some (.crc8 [0#8, 0#8]) := by decide
theorem test_table_word_amux2v : decodeTableWord 32 0x00000722 = some (.amux2v 7#8 0#32) := by decide
theorem test_table_word_steps_first :
    answered (step (State.reset.withFetchWord 32 0x00000021)) = answered (exec (.dac2v 0#32) State.reset) := by decide +kernel

/-! ## Assembler (R72, R73) -/

theorem test_assemble_tick :
    assemble Config.ex "PID_TICK -1.0, -0.0, 10.0 ; P4 step 3"
      = some ⟨0x00000001#32, 0xBF800000#32, 0x80000000#32, 0x41200000#32, [], by decide⟩ := by decide +kernel
theorem test_assemble_stream :
    assemble Config.ex "CRC8_CHECK [0x01, 0x07]" = some ⟨0x00020011#32, 0#32, 0#32, 0#32, [1#8, 7#8], by decide⟩ := by decide +kernel
theorem test_assemble_selector :
    assemble Config.ex "AMUX2V V1P65, 1650" = some ⟨0x00000322#32, 0x00000672#32, 0#32, 0#32, [], by decide⟩ := by decide +kernel
theorem test_assemble_refuses_out_of_range : assemble Config.ex "CRC8 [256]" = none := by decide +kernel

/-! ## The operations, on the vectors of 95_test_vectors.md -/

/-- T-PID-1. -/
theorem test_pidTick_first :
    respOf (.pidTick 0x41900000#32 0x41A00000#32 0x41200000#32) State.reset
      = some ⟨0#32, 0x41000000#32, 0x40800000#32, 0x40800000#32, 0x00000000#32⟩ ∧
    ctlOf (.pidTick 0x41900000#32 0x41A00000#32 0x41200000#32) State.reset = some afterTick1 := by decide +kernel
/-- T-PID-3. -/
theorem test_pidTick_rejects_candidate :
    respOf (.pidTick 0x41980000#32 0x41A00000#32 0x41200000#32) tick1State
      = some ⟨0#32, 0x40BD70A4#32, 0x40000000#32, 0x40800000#32, 0xBDA3D70A#32⟩ ∧
    ctlOf (.pidTick 0x41980000#32 0x41A00000#32 0x41200000#32) tick1State
      = some { afterTick1 with hist := histOf [0x40000000#32, 0x3F800000#32], ticks := 2 } := by decide +kernel
/-- T-BOOT-3: a distance tie goes to the lower entry. -/
theorem test_bootLookup_tie :
    respOf (.bootLookup 0x41A00000#32 0x41480000#32) State.reset = some ⟨0#32, 0x40000000#32, 1#32, 0#32, 0#32⟩ := by
  decide +kernel
/-- T-BOOT-11: the source's fallback inside the table. -/
theorem test_bootLookup_zero_fallback :
    respOf (.bootLookup 0x41E00000#32 0x41200000#32) (State.resetWith { Config.ex with bootBeyond := .zero })
      = some ⟨0#32, 0#32, 0xFFFFFFFF#32, 0#32, 0#32⟩ := by decide +kernel
/-- T-CRC-1. -/
theorem test_crc8_check_value :
    respOf (.crc8 [0x31#8, 0x32#8, 0x33#8, 0x34#8, 0x35#8, 0x36#8, 0x37#8, 0x38#8, 0x39#8]) State.reset
      = some ⟨0#32, 0x000000F4#32, 0#32, 0#32, 0#32⟩ := by decide +kernel
/-- T-CHK-2. -/
theorem test_crc8Check_detects_flip :
    respOf (.crc8Check [0x02#8, 0x04#8, 0x00#8, 0x00#8, 0x03#8, 0xF7#8, 0x2E#8]) State.reset
      = some ⟨0#32, 0x00000029#32, 0#32, 0#32, 0#32⟩ := by decide +kernel
/-- T-CHK-1. -/
theorem test_crc8Check_match :
    respOf (.crc8Check [0x02#8, 0x04#8, 0x00#8, 0x00#8, 0x03#8, 0xF6#8, 0x2E#8]) State.reset
      = some ⟨0x00000200#32, 0x0000002E#32, 0#32, 0#32, 0#32⟩ := by decide +kernel
/-- T-V2D-6: a tie rounds away from zero. -/
theorem test_v2dac_tie :
    respOf (.v2dac 0xBE000000#32) State.reset = some ⟨0#32, 0xFFFFFFF3#32, 0#32, 0#32, 0#32⟩ := by decide +kernel
/-- T-V2D-3: the binary32 nearest 10.14 lies above `V_MAX`. -/
theorem test_v2dac_clamps :
    respOf (.v2dac 0x41223D71#32) State.reset = some ⟨0x00000100#32, 0x000003F6#32, 0#32, 0#32, 0#32⟩ := by decide +kernel
/-- T-D2V-1. -/
theorem test_dac2v_rounds :
    respOf (.dac2v 13#32) State.reset = some ⟨0#32, 0x3E051EB8#32, 0#32, 0#32, 0#32⟩ := by decide +kernel
/-- T-D2V-11: far outside the bounds, not clamped. -/
theorem test_dac2v_extrapolates :
    respOf (.dac2v 0x80000000#32) State.reset = some ⟨0#32, 0xCBA3D70A#32, 0#32, 0#32, 0#32⟩ := by decide +kernel
/-- T-AMUX-6: the raw value is unsigned. -/
theorem test_amux2v_unsigned :
    respOf (.amux2v 0x00#8 0xFFFFFFFF#32) State.reset = some ⟨0#32, 0x4A83126F#32, 0#32, 0#32, 0#32⟩ := by decide +kernel
/-- T-AMUX-5. -/
theorem test_amux2v_fatal :
    respOf (.amux2v 0x07#8 100#32) State.reset = some ⟨0x0000001F#32, 0#32, 0#32, 0#32, 0#32⟩ ∧
    ctlOf (.amux2v 0x07#8 100#32) State.reset = some { Control.reset with fatal := true } := by decide +kernel
/-- T-SETV-3: the driver's error is passed through with the code and `SAT`. -/
theorem test_setv_driver_error :
    answered (exec (.setv 0xC1400000#32) { State.reset with writeAnswers := [.transport] })
      = some { State.reset with
                resp := some ⟨0x00000101#32, 0xFFFFFBE6#32, 0#32, 0#32, 0#32⟩
                outbox := [.write 0x04#8 [0xFF#8, 0xFF#8, 0xFB#8, 0xE6#8]]
                drawn := 1 } := by decide +kernel
/-- T-SETV-3: the frame. -/
theorem test_setv_frame :
    writeFrame Config.ex 0x04#8 (payloadVdac Config.ex 0xFFFFFBE6#32)
      = [0x02#8, 0x04#8, 0xFF#8, 0xFF#8, 0xFB#8, 0xE6#8, 0x18#8] := by decide +kernel
/-- T-LCMP-3: equal to the tolerance is connected. -/
theorem test_loadCmp_boundary :
    respOf (.loadCmp 0x40A00000#32 0x40900000#32) State.reset
      = some ⟨0x00000200#32, 0x3F000000#32, 0#32, 0#32, 0#32⟩ := by decide +kernel
/-- T-LCMP-8: the difference overflows. -/
theorem test_loadCmp_overflow :
    respOf (.loadCmp 0x7F61B1E6#32 0xFF61B1E6#32) State.reset
      = some ⟨0x00000012#32, 0#32, 0#32, 0#32, 0#32⟩ := by decide +kernel
/-- T-LCHK-3. -/
theorem test_loadCheck_compares :
    answered (exec .loadCheck { State.reset with readAnswers := [(.ok, 5000#32)], adcAnswers := [0x4099999A#32] })
      = some { State.reset with
                resp := some ⟨0x00000200#32, 0x3E4CCCC0#32, 0x40A00000#32, 0x4099999A#32, 0#32⟩
                outbox := [.readAmux 0x00#8, .sample 0]
                drawn := 2 } := by decide +kernel
/-- T-LCHK-4: the ADC is not sampled. -/
theorem test_loadCheck_driver_error :
    answered (exec .loadCheck { State.reset with readAnswers := [(.checksum, 7#32)], adcAnswers := [0x4099999A#32] })
      = some { State.reset with
                resp := some ⟨0x00000002#32, 0#32, 0#32, 0#32, 0#32⟩
                outbox := [.readAmux 0x00#8]
                adcAnswers := [0x4099999A#32]
                drawn := 1 } := by decide +kernel

/-! ## Binary32 (IEEE 754, 00_scope.md R12) -/

theorem test_rounding_ties_to_even :
    rne32 (16777217 : Rat) = 0x4B800000#32 ∧ rne32 (16777219 : Rat) = 0x4B800002#32 := by decide +kernel
theorem test_rounding_overflow : rne32 (2 ^ 128 : Rat) = 0x7F800000#32 ∧ fadd 0x7F7FFFFF#32 0x7F7FFFFF#32 = 0x7F800000#32 := by
  decide +kernel
theorem test_signed_zeros :
    fadd 0x80000000#32 0x80000000#32 = 0x80000000#32 ∧ fsub 0x3F800000#32 0x3F800000#32 = 0x00000000#32 ∧
    fmul 0x80000000#32 0x3F800000#32 = 0x80000000#32 ∧ feq 0x80000000#32 0x00000000#32 = true := by decide +kernel
theorem test_rne32_one_tenth : rne32 (1 / 10) = 0x3DCCCCCD#32 := by decide +kernel

/-! ## Witnesses for the hypotheses of the statements -/

/-- The widest span R105 admits. -/
def widest : Config := { Config.ex with codeMin := -10821304, codeMax := 10821304 }

theorem reset_live : Live State.reset := by decide +kernel
theorem ex_admitted : admitted Config.ex = true := by decide +kernel
theorem tick1_live : Live tick1State := ⟨ex_admitted, by decide +kernel⟩

/-- A step on a reset is the reset, when its configuration is admitted. -/
theorem step_reset {s : State} {c : Config} (h : admitted c = true) :
    step { s with inbox := [.reset c] } = .next { s with inbox := [], ctl := Control.reset, cfg := c, resp := none } := by
  simp [step, takeReset, h]

/-- What an operation leaves under an admitted configuration. -/
def after (i : Instr) (s : State) : State := if s.ctl.fatal then raise .fatal s else effectOf i s

theorem exec_after {i : Instr} {s : State} (h : admitted s.cfg = true) : exec i s = .next (after i s) := exec_admitted i h

/-- An operation answers a next state whose response has the status computed for it. -/
theorem answers_with {i : Instr} {s : State} (b : Byte) (h : admitted s.cfg = true)
    (hb : (after i s).resp.map (fun r => r.st) = some b) : ∃ t r, exec i s = .next t ∧ t.resp = some r ∧ r.st = b := by
  obtain ⟨r, hr, hst⟩ := Option.map_eq_some_iff.mp hb
  exact ⟨_, r, exec_after h, hr, hst⟩

theorem witness_EncodedInstructionDecodesToItself : (Instr.crc8 [1#8]).wf = true := by decide
theorem witness_DecodedRequestReencodesWhatItsFormReads :
    decode ⟨0x00000022#32, 5#32, 6#32, 7#32, [], by decide⟩ = .ok (.amux2v 0#8 5#32) := by decide
theorem witness_IgnoredOperandWordsHaveNoEffect :
    (⟨0x00000031#32, 1#32, 2#32, 3#32, [], by decide⟩ : Request).op ∈ [0x10#8, 0x11#8, 0x31#8] ∧
    (⟨0x00000023#32, 1#32, 2#32, 3#32, [], by decide⟩ : Request).op ∈ [0x20#8, 0x21#8, 0x22#8, 0x23#8] ∧
    (⟨0x00000030#32, 1#32, 2#32, 3#32, [], by decide⟩ : Request).op ∈ [0x02#8, 0x30#8] := by decide
/-- The four sides of the opcode map: a reserved code, a nonzero `SEL`, a nonzero `LEN`, and a legal header. -/
theorem witness_IllegalHeadersAnswerIllegalAndChangeNothing :
    Live (pending [.request ⟨0x00000032#32, 0#32, 0#32, 0#32, [], by decide⟩]) ∧
    (⟨0x00000032#32, 0#32, 0#32, 0#32, [], by decide⟩ : Request).op
      ∉ [0x01#8, 0x02#8, 0x10#8, 0x11#8, 0x20#8, 0x21#8, 0x22#8, 0x23#8, 0x30#8, 0x31#8] ∧
    (⟨0x00000101#32, 0#32, 0#32, 0#32, [], by decide⟩ : Request).sel ≠ 0#8 ∧
    (⟨0x00010020#32, 0x7FC00000#32, 0#32, 0#32, [], by decide⟩ : Request).len ≠ 0#16 ∧
    (⟨0x00000031#32, 0#32, 0#32, 0#32, [], by decide⟩ : Request).sel = 0#8 := by decide +kernel
theorem witness_AssembledLinesDecodeToTheirInstruction :
    (assemble Config.ex "LOAD_CHECK").isSome = true ∧
    (assembleInstr Config.ex "CRC8 [0x0A, 7] ; two bytes".toList) = some (.crc8 [10#8, 7#8]) ∧
    ["0x0A".toList, "7".toList].map byteLiteral = [10#8, 7#8].map some ∧ none ∈ ["256".toList].map byteLiteral := by decide +kernel
/-- A number at each end of its range, a decimal with leading zeros, and a hexadecimal digit of either case. -/
theorem witness_LiteralsMeanTheirValues :
    u32Literal "4294967295".toList = some 0xFFFFFFFF#32 ∧ u32Literal "4294967296".toList = none ∧
    i32Literal "-2147483648".toList = some 0x80000000#32 ∧ i32Literal "-2147483649".toList = none ∧
    i32Literal "2147483648".toList = none ∧ byteLiteral "0xfF".toList = some 0xFF#8 ∧ byteLiteral "0x100".toList = none ∧
    f32Literal "-00.125".toList = some 0xBE000000#32 ∧ f32Literal "f:0x7fC00000".toList = some 0x7FC00000#32 := by decide +kernel
theorem witness_StepRunsTheDecodedInstruction :
    decode ⟨0x00000031#32, 0#32, 0#32, 0#32, [], by decide⟩ = .ok .loadCheck ∧
    (pending [.request ⟨0x00000031#32, 0#32, 0#32, 0#32, [], by decide⟩]).inbox = .request ⟨0x00000031#32, 0#32, 0#32, 0#32, [], by decide⟩ :: [] := by
  decide
theorem witness_WithNoMovePendingTheCoreWaits : admitted State.reset.cfg = true ∧ State.reset.inbox = [] := by decide +kernel
/-- A request of each byte operation, and a nonzero `LEN` on an operation that takes no bytes with either stream. -/
theorem witness_ByteOperationsTakeTheLenBytesOfTheStream :
    let crc : Request := ⟨0x00020010#32, 0#32, 0#32, 0#32, [1#8, 2#8], by decide⟩
    let check : Request := ⟨0x00010011#32, 0#32, 0#32, 0#32, [1#8], by decide⟩
    let bare : Request := ⟨0x00010020#32, 0#32, 0#32, 0#32, [], by decide⟩
    let full : Request := ⟨0x00010020#32, 0#32, 0#32, 0#32, [7#8], by decide⟩
    (crc.op = 0x10#8 ∧ crc.sel = 0#8) ∧ (check.op = 0x11#8 ∧ check.sel = 0#8) ∧
    (bare.op ∉ [0x10#8, 0x11#8] ∧ full.rq0 = bare.rq0 ∧ full.w1 = bare.w1 ∧ full.w2 = bare.w2 ∧ full.w3 = bare.w3) := by decide
/-- Both reset moves, from a state with the record of T-PID-1. -/
theorem witness_ResetGivesEveryFieldItsValue : admitted Config.ex = true ∧ admitted tick1State.cfg = true := by decide +kernel
theorem witness_ResetLeavesTheExternalAgentsAlone :
    admitted Config.ex = true ∧
    admitted (pending [.abandon ⟨0x00000031#32, 0#32, 0#32, 0#32, [], by decide⟩ 1 Config.ex]).cfg = true := by decide +kernel
theorem witness_ConfigurationChangesOnlyAcrossReset :
    ∃ t, step { State.reset with inbox := [.reset widest] } = .next t ∧ t.cfg ≠ State.reset.cfg :=
  ⟨_, step_reset (by decide +kernel), by decide +kernel⟩
theorem witness_InadmissibleConfigurationIsRefused : admitted { Config.ex with ki := 0x80000000#32 } = false := by decide +kernel
/-- Clauses (a) and (b), and for (c) a reset that clears the bit. -/
theorem witness_FatalBitEndsEveryRequestUntilReset :
    (Live State.reset ∧ 0x04#8 ∉ [State.reset.cfg.amuxSel.vout, State.reset.cfg.amuxSel.v1p25,
      State.reset.cfg.amuxSel.iout, State.reset.cfg.amuxSel.v1p65]) ∧
    (admitted fatalState.cfg = true ∧ fatalState.ctl.fatal = true) ∧
    (∃ t, step { fatalState with inbox := [.reset Config.ex] } = .next t ∧ t.ctl.fatal = false) :=
  ⟨by decide +kernel, by decide +kernel, _, step_reset ex_admitted, rfl⟩
theorem witness_BadOperandsAnswerOperandFault :
    Live State.reset ∧ finite 0x7F800000#32 = false ∧ finite 0x7FC00000#32 = false ∧ finite 0xFF800000#32 = false ∧
      [1#8].length < 2 := by decide +kernel
/-- A configuration whose gain overflows the conversion of a raw value. -/
def hugeGain : Config := { Config.ex with amuxGain := ⟨2 ^ 128, 1, 1, 1⟩ }
theorem huge_live : Live (State.resetWith hugeGain) := by decide +kernel
/-- The state of T-LCHK-6: the read succeeds and the sample is a NaN. -/
def nanSample : State := { State.reset with readAnswers := [(.ok, 5000#32)], adcAnswers := [0x7FC00000#32] }
/-- The tick of T-PID-14 overflows. -/
theorem tick_overflows : ¬TickFinite State.reset.cfg 0xFF61B1E6#32 0x7F61B1E6#32 0#32 State.reset.ctl := fun h =>
  absurd ((allFinite_tickVals_iff ..).mpr h) (by decide +kernel)
/-- A lookup whose difference overflows. -/
theorem boot_overflows : ¬BootFinite State.reset.cfg 0x7F61B1E6#32 0xFF61B1E6#32 := fun h =>
  absurd ((allFinite_boot_iff ..).mpr h) (by decide +kernel)
/-- One witness for each clause: the tick of T-PID-14, a lookup that overflows, a huge gain, T-LCMP-8, a huge gain in `LOAD_CHECK`, and the NaN
sample of T-LCHK-6. -/
theorem witness_NonFiniteValuesAnswerRangeFault :
    (Live State.reset ∧ finite 0xFF61B1E6#32 = true ∧ finite 0x7F61B1E6#32 = true ∧ finite 0#32 = true ∧
      ¬TickFinite State.reset.cfg 0xFF61B1E6#32 0x7F61B1E6#32 0#32 State.reset.ctl) ∧
    ¬BootFinite State.reset.cfg 0x7F61B1E6#32 0xFF61B1E6#32 ∧
    (Live (State.resetWith hugeGain) ∧ finite (amuxVolts (State.resetWith hugeGain).cfg .vout 1#32) = false) ∧
    finite (fabs (fsub 0x7F61B1E6#32 0xFF61B1E6#32)) = false ∧
    (drvReadAmux hugeGain.amuxSel.vout { State.resetWith hugeGain with readAnswers := [(.ok, 1#32)] }).1 = (.ok, 1#32) ∧
    (Live nanSample ∧ (drvReadAmux nanSample.cfg.amuxSel.vout nanSample).1 = (.ok, 5000#32) ∧
      finite (amuxVolts nanSample.cfg .vout 5000#32) = true ∧
      finite (adcSample nanSample.cfg.loadAdcCh (drvReadAmux nanSample.cfg.amuxSel.vout nanSample).2).1 = false) :=
  ⟨⟨reset_live, by decide, by decide, by decide, tick_overflows⟩, boot_overflows, ⟨huge_live, by decide +kernel⟩,
   by decide +kernel, by decide +kernel, by decide +kernel, by decide +kernel, by decide +kernel, by decide +kernel⟩
theorem witness_PccFaultsLeaveTheRecordAndZeroResults :
    ∃ t r, exec (.amux2v 0x07#8 100#32) State.reset = .next t ∧ t.resp = some r ∧ r.st = 0x1F#8 :=
  answers_with _ ex_admitted (by decide +kernel)
theorem witness_Crc8AnswersTheChecksum : Live State.reset ∧ 1 ≤ [0#8].length := by decide +kernel
theorem witness_SingleBitFlipChangesTheChecksum :
    Config.ex.crcPoly.getLsbD 0 = true ∧ 1 < [0x02#8, 0x04#8].length ∧ 7 < 8 := by decide
theorem witness_Crc8CheckComparesTheLastByte : Live State.reset ∧ 1 ≤ [0x01#8].length := by decide +kernel
theorem witness_CommandFramesPassTheCheckAndCorruptedOnesFail : Live State.reset ∧ 0 < [0x02#8, 0x04#8].length ∧ 0 < 8 := by
  decide +kernel
theorem witness_V2dacAnswersTheRoundedAffineCode : Live State.reset ∧ finite 0x41223D71#32 = true := by decide +kernel
/-- Inside the interval, at its lower end, and above its upper end. -/
theorem witness_V2dacCodeStaysWithinTheBounds :
    admitted Config.ex = true ∧ finite 0x3E000000#32 = true ∧ (507 / 50 ≤ exact 0x41223D71#32) ∧
    (exact 0xC1280000#32 ≤ -21 / 2) := by decide +kernel
theorem witness_V2dacIsMonotone : admitted Config.ex = true ∧ exact 0xBE000000#32 ≤ exact 0x3E000000#32 := by decide +kernel
theorem witness_Dac2vAnswersTheInverseMapForEveryCode : Live State.reset := reset_live
/-- At both ends of the widest span, and a span one code wider. -/
theorem witness_DacCodeRoundTripsThroughVolts :
    admitted widest = true ∧ widest.codeMin ≤ -10821304 ∧ -10821304 ≤ widest.codeMax ∧ widest.codeMin ≤ 10821304 ∧
    (10821304 : Int) ≤ widest.codeMax ∧
    21642608 < ({ widest with codeMax := 10821305 } : Config).codeMax - ({ widest with codeMax := 10821305 } : Config).codeMin := by
  decide +kernel
theorem witness_Amux2vScalesARecognisedChannel :
    Live State.reset ∧ finite (rne32 (State.reset.cfg.amuxOffset.get .iout
      + State.reset.cfg.amuxGain.get .iout * ((0xFFFFFFFF#32).toNat : Rat))) = true := by decide +kernel
theorem witness_SetvWritesTheClampedCodeOnce : Live State.reset ∧ finite 0xC1400000#32 = true := by decide +kernel
theorem witness_PayloadHoldsTheCodeInPayloadOrder :
    3 < (payloadVdac Config.ex 0xFFFFFBE6#32).length ∧ Config.ex.payloadOrder = .msbFirst ∧
    ({ Config.ex with payloadOrder := .lsbFirst } : Config).payloadOrder = .lsbFirst := by decide
/-- The least width that holds the codes of EX, at both ends of the range. -/
theorem witness_PayloadDeterminesTheCode :
    admitted { Config.ex with wVdac := 2, payloadOrder := .lsbFirst } = true ∧ Config.ex.codeMin ≤ -1050 ∧
    (-1050 : Int) ≤ Config.ex.codeMax ∧ Config.ex.codeMin ≤ 1014 ∧ (1014 : Int) ≤ Config.ex.codeMax := by decide +kernel
theorem witness_LoadCmpAnswersTheDifferenceAndVerdict :
    Live State.reset ∧ finite 0x40A00000#32 = true ∧ finite 0x40900000#32 = true ∧
    finite (fabs (fsub 0x40A00000#32 0x40900000#32)) = true := by decide +kernel
theorem witness_LoadCheckComparesVoutWithTheSample :
    let s : State := { State.reset with readAnswers := [(.ok, 5000#32)], adcAnswers := [0x4099999A#32] }
    let a := rne32 (s.cfg.amuxOffset.vout + s.cfg.amuxGain.vout * ((5000#32).toNat : Rat))
    let b := s.adcAnswers.head?.getD (Config.freeSample (s.drawn + 1))
    Live s ∧ s.readAnswers.head?.getD (Config.freeDriverStatus s.drawn, Config.freeRaw s.drawn) = (.ok, 5000#32) ∧
    finite a = true ∧ finite b = true ∧ finite (fabs (fsub a b)) = true := by decide +kernel
theorem witness_LoadCheckPassesTheDriverErrorThrough :
    let s : State := { State.reset with readAnswers := [(.ack, 0#32)] }
    Live s ∧ s.readAnswers.head?.getD (Config.freeDriverStatus s.drawn, Config.freeRaw s.drawn) = (.ack, 0#32) ∧
    DriverStatus.ack ≠ .ok := by decide +kernel
theorem witness_ExternalRequestsAreMadeAsTheRulesWriteThem : ∃ t, exec (.setv 0x41000000#32) State.reset = .next t :=
  ⟨_, exec_after ex_admitted⟩
/-- A stop inside the table (T-BOOT-3, entry 1), and a scan that never stops (T-BOOT-8). -/
theorem witness_BootTakesTheEntryWhereClosenessStops :
    Config.ex.bootTable ≠ [] ∧
    (let d := fsub 0x41A00000#32 0x41480000#32
     let dist (k : Nat) := fabs (fsub (Config.ex.bootTable.getD k ⟨0#32, 0#32⟩).diff d)
     1 + 1 < Config.ex.bootTable.length ∧ fge (dist 2) (dist 1) = true ∧ ∀ j < 1, fge (dist (j + 1)) (dist j) = false) ∧
    (let d := fsub 0x41E00000#32 0x41200000#32
     let dist (k : Nat) := fabs (fsub (Config.ex.bootTable.getD k ⟨0#32, 0#32⟩).diff d)
     (∀ k < 4, fge (dist (k + 1)) (dist k) = false) ∧ Config.ex.bootTable.length = 5 ∧
      ({ Config.ex with bootBeyond := .zero } : Config).bootBeyond = .zero ∧ Config.ex.bootBeyond = .clampLast) := by
  decide +kernel
theorem witness_BootSeedComesFromTheClosestEntry :
    admitted Config.ex = true ∧ Config.ex.bootBeyond = .clampLast ∧ finite (fsub 0x41A00000#32 0x41480000#32) = true ∧
    ∀ e ∈ Config.ex.bootTable, finite (fsub e.diff (fsub 0x41A00000#32 0x41480000#32)) = true ∧
      exact (fsub e.diff (fsub 0x41A00000#32 0x41480000#32)) = exact e.diff - exact (fsub 0x41A00000#32 0x41480000#32) := by
  decide +kernel
/-- Every value of the lookup of 20 and 10 in EX (R144's example) is finite. -/
theorem boot_finite : BootFinite State.reset.cfg 0x41A00000#32 0x41200000#32 :=
  (allFinite_boot_iff ..).mp (by decide +kernel)
theorem witness_BootLookupAnswersSeedAndIndex :
    Live State.reset ∧ finite 0x41A00000#32 = true ∧ finite 0x41200000#32 = true ∧
    BootFinite State.reset.cfg 0x41A00000#32 0x41200000#32 :=
  ⟨reset_live, by decide, by decide, boot_finite⟩
/-- Every value of the tick of T-PID-1 is finite. -/
theorem tick1_finite : TickFinite State.reset.cfg 0x41900000#32 0x41A00000#32 0x41200000#32 State.reset.ctl :=
  (allFinite_tickVals_iff ..).mp (by decide +kernel)
/-- The first tick of T-PID-1: the gate is evaluated and opens, and the candidate is accepted. -/
theorem witness_PidTickCommitsTheSixSteps :
    Live State.reset ∧ finite 0x41900000#32 = true ∧ finite 0x41A00000#32 = true ∧ finite 0x41200000#32 = true ∧
    TickFinite State.reset.cfg 0x41900000#32 0x41A00000#32 0x41200000#32 State.reset.ctl ∧
    gateOpens State.reset.cfg 0x40000000#32 0x41A00000#32 (tickReset 0x41A00000#32 State.reset.ctl) = true :=
  ⟨reset_live, by decide, by decide, by decide, tick1_finite, by decide +kernel⟩
theorem witness_PidTickIsAtomic :
    Live State.reset ∧ ∃ t, exec (.pidTick 0xFF61B1E6#32 0x7F61B1E6#32 0#32) State.reset = .next t :=
  ⟨reset_live, _, exec_after ex_admitted⟩
/-- A tick with the set point unchanged (T-PID-3) and one with a new set point (T-PID-1). -/
theorem witness_HistoryShiftsOncePerCompletedTick :
    (Live tick1State ∧ feq 0x41A00000#32 tick1State.ctl.prevSp = true ∧
      ∃ t r, exec (.pidTick 0x41980000#32 0x41A00000#32 0x41200000#32) tick1State = .next t ∧ t.resp = some r ∧ r.st = 0x00#8) ∧
    (Live State.reset ∧ feq 0x41A00000#32 State.reset.ctl.prevSp = false ∧
      ∃ t r, exec (.pidTick 0x41900000#32 0x41A00000#32 0x41200000#32) State.reset = .next t ∧ t.resp = some r ∧ r.st = 0x00#8) :=
  ⟨⟨tick1_live, by decide +kernel, answers_with _ ex_admitted (by decide +kernel)⟩,
   ⟨reset_live, by decide +kernel, answers_with _ ex_admitted (by decide +kernel)⟩⟩
/-- T-PID-7's set-point change, from the record of T-PID-1. -/
theorem witness_NewSetPointGivesZeroDerivative :
    Live tick1State ∧ feq 0x41C80000#32 tick1State.ctl.prevSp = false ∧
      ∃ t r, exec (.pidTick 0x41900000#32 0x41C80000#32 0x41200000#32) tick1State = .next t ∧ t.resp = some r ∧ r.st = 0x00#8 :=
  ⟨tick1_live, by decide +kernel, answers_with _ ex_admitted (by decide +kernel)⟩
/-- T-PID-11, and a set-point change to zero with the integral on. -/
theorem witness_ZeroSetPointNeverEnablesTheIntegral :
    (feq 0x80000000#32 0#32 = true ∧ State.reset.ctl.ien = false ∧ State.reset.ctl.fatal = false ∧
      ∃ t, exec (.pidTick 0x3F800000#32 0x80000000#32 0x41200000#32) State.reset = .next t) ∧
    (feq 0x00000000#32 tick1State.ctl.prevSp = false ∧ tick1State.ctl.ien = true ∧ tick1State.ctl.fatal = false ∧
      ∃ t r, exec (.pidTick 0x3F800000#32 0x00000000#32 0x41200000#32) tick1State = .next t ∧ t.resp = some r ∧ r.st = 0x00#8) :=
  ⟨⟨by decide +kernel, by decide +kernel, by decide +kernel, _, exec_after ex_admitted⟩,
   by decide +kernel, by decide +kernel, by decide +kernel, answers_with _ ex_admitted (by decide +kernel)⟩
/-- A step is the meaning of the request it takes. -/
theorem step_pending {s : State} {r : Request} {i : Instr} (h : decode r = .ok i) (ha : admitted s.cfg = true) :
    step { s with inbox := [.request r] } = .next (after i { s with inbox := [] }) := by
  simp only [step, runRequest, h]
  exact exec_after ha
/-- A tick that enables the integral (T-PID-1), and one whose set-point change disables it. -/
theorem witness_IntegralEnableFollowsItsRules :
    (∃ t, step { State.reset with inbox := [.request ⟨0x00000001#32, 0x41900000#32, 0x41A00000#32, 0x41200000#32, [], by decide⟩] } = .next t ∧
      State.reset.ctl.ien = false ∧ t.ctl.ien = true) ∧
    (∃ t, step { tick1State with inbox := [.request ⟨0x00000001#32, 0x41900000#32, 0x41C80000#32, 0x41200000#32, [], by decide⟩] } = .next t ∧
      tick1State.ctl.ien = true ∧ t.ctl.ien = false) :=
  ⟨⟨_, step_pending (i := .pidTick 0x41900000#32 0x41A00000#32 0x41200000#32) (by decide) ex_admitted, by decide +kernel,
     by decide +kernel⟩,
   ⟨_, step_pending (i := .pidTick 0x41900000#32 0x41C80000#32 0x41200000#32) (by decide) ex_admitted, by decide +kernel,
     by decide +kernel⟩⟩
/-- The response of a tick of T-PID-8. -/
def steadyResponse : Response := ⟨0#32, 0xC1200000#32, 0xC1200000#32, 0#32, 0#32⟩
/-- The state that the ticks of T-PID-8 (25, 20, 10; error -5) reach and then stay in. -/
def steady : State :=
  respond steadyResponse
    (commit { Control.reset with prevSp := 0x41A00000#32, hist := Vector.replicate histN 0xC0A00000#32, ticks := 50 } State.reset)
theorem steady_after : after (.pidTick 0x41C80000#32 0x41A00000#32 0x41200000#32) steady = steady := by decide +kernel
theorem steady_admitted : admitted steady.cfg = true := by decide +kernel
theorem steady_tick : exec (.pidTick 0x41C80000#32 0x41A00000#32 0x41200000#32) steady = .next steady := by
  rw [exec_after steady_admitted, steady_after]
theorem steady_feq : feq 0x41A00000#32 steady.ctl.prevSp = true := by decide +kernel
theorem steady_error : fsub 0x41A00000#32 0x41C80000#32 = 0xC0A00000#32 := by decide +kernel
theorem steady_error_tick : ErrorTick 0xC0A00000#32 false steady steady :=
  ⟨0x41C80000#32, 0x41A00000#32, 0x41200000#32, steadyResponse, steady_feq, steady_error, steady_tick, rfl, by decide⟩
theorem steady_run (n : Nat) : ConstantErrorTicks 0xC0A00000#32 n steady steady := by
  induction n with
  | zero => rfl
  | succ n ih => exact ⟨steady, steady, rfl, rfl, steady_error_tick, ih⟩
/-- A tick that completes, from the answer computed for it. -/
theorem error_tick {cur set out e : F32} {fresh : Bool} {s : State} (h : admitted s.cfg = true)
    (hs : feq set s.ctl.prevSp = !fresh) (he : fsub set cur = e)
    (hb : (after (.pidTick cur set out) s).resp.map (fun r => r.st) = some 0x00#8) : ∃ t, ErrorTick e fresh s t := by
  obtain ⟨t, r, ht, hr, hst⟩ := answers_with 0x00#8 h hb
  exact ⟨t, cur, set, out, r, hs, he, ht, hr, hst⟩
/-- A run of exactly 50 ticks, a run of one tick that starts at reset (T-PID-11), and the first tick of T-PID-8, which changes the set
point. -/
theorem witness_ConstantErrorFillsTheWindow :
    ConstantErrorTicks 0xC0A00000#32 50 steady steady ∧
    (State.reset.ctl.ticks = 0 ∧ ∃ t, ConstantErrorTicks 0xBF800000#32 1 State.reset t) ∧
    (∃ m, ErrorTick 0xC0A00000#32 true State.reset m ∧ ConstantErrorTicks 0xC0A00000#32 0 m m) := by
  obtain ⟨t, ht⟩ := error_tick (cur := 0x3F800000#32) (set := 0x00000000#32) (out := 0x41200000#32) (e := 0xBF800000#32)
    (fresh := false) (s := State.reset) ex_admitted (by decide +kernel) (by decide +kernel) (by decide +kernel)
  obtain ⟨m, hm⟩ := error_tick (cur := 0x41C80000#32) (set := 0x41A00000#32) (out := 0x41200000#32) (e := 0xC0A00000#32)
    (fresh := true) (s := State.reset) ex_admitted (by decide +kernel) (by decide +kernel) (by decide +kernel)
  exact ⟨steady_run 50, ⟨by decide +kernel, t, State.reset, t, rfl, rfl, ht, rfl⟩, m, hm, rfl⟩
theorem witness_TicksBeyondTheWindowAreUnobservable : 49 ≤ steady.ctl.ticks ∧ 49 ≤ 49 := by decide +kernel
/-- The response of T-PID-1. -/
def tick1Response : Response := ⟨0#32, 0x41000000#32, 0x40800000#32, 0x40800000#32, 0x00000000#32⟩
theorem tick1_ctl : ControlInv afterTick1 := ⟨by decide +kernel, by decide +kernel, by decide +kernel⟩
theorem tick1_fin : ControlFinite afterTick1 := ⟨by decide +kernel, by decide +kernel, by decide +kernel, by decide +kernel⟩
theorem tick1_legal : LegalResponse tick1Response := ⟨.ok, false, false, by decide, by decide⟩
/-- The invariant of the state after T-PID-1, with its response, whatever moves are pending. -/
theorem tick1_inv (moves : List HostMove) : StateInv { respond tick1Response tick1State with inbox := moves } where
  cfg := ex_admitted
  ctl := tick1_ctl
  fin := tick1_fin
  resp := by
    intro r hr
    cases hr
    exact tick1_legal
theorem witness_StepKeepsTheInvariant : ∃ s t, StateInv s ∧ step s = .next t :=
  ⟨{ respond tick1Response tick1State with inbox := [.reset Config.ex] }, _, tick1_inv _, step_reset ex_admitted⟩
theorem witness_ResetMeetsTheInvariant : admitted widest = true := by decide +kernel
theorem witness_EveryAdmittedMoveIsAnswered :
    let moves : List HostMove :=
      [.request ⟨0x00000001#32, 0#32, 0#32, 0#32, [], by decide⟩, .reset Config.ex, .abandon ⟨0x00000031#32, 0#32, 0#32, 0#32, [], by decide⟩ 0 Config.ex]
    StateInv { respond tick1Response tick1State with inbox := moves } ∧ ∀ m ∈ moves, m.proper = true :=
  ⟨tick1_inv _, by decide +kernel⟩
theorem witness_OnlyTicksAndBadSelectorsChangeTheRecord : ∃ t, exec (.amux2v 0x07#8 100#32) State.reset = .next t :=
  ⟨_, exec_after ex_admitted⟩
theorem witness_OtherOperationsAreBlindToThePidFields :
    (Instr.op (.v2dac 0#32)) ≠ .pidTick ∧ afterTick1.fatal = State.reset.ctl.fatal ∧
    ∃ t, exec (.v2dac 0#32) State.reset = .next t :=
  ⟨by decide, by decide +kernel, _, exec_after ex_admitted⟩
/-- A tie: 2^24 + 1 lies halfway between two binary32 values; and both sides of the halfway point above the largest value. -/
theorem witness_RoundedRationalIsTheNearestBinary32 :
    (finite (rne32 16777217) = true ∧ finite 0x4B800001#32 = true ∧
      |exact 0x4B800001#32 - 16777217| = |exact (rne32 16777217) - 16777217|) ∧
    finite (rne32 (2 ^ 128 - 2 ^ 103 - 1)) = true ∧ finite (rne32 (2 ^ 128 - 2 ^ 103)) = false := by decide +kernel
/-- Operands whose results are not zero, zeros of both signs, an infinity and a NaN. -/
theorem witness_Binary32OperationsRoundTheExactResultOnce :
    (finite 0x3DCCCCCD#32 = true ∧ finite 0x40000000#32 = true ∧ exact 0x3DCCCCCD#32 + exact 0x40000000#32 ≠ 0 ∧
      exact 0x3DCCCCCD#32 - exact 0x40000000#32 ≠ 0 ∧ exact 0x3DCCCCCD#32 ≠ 0 ∧ exact 0x40000000#32 ≠ 0) ∧
    exact 0x80000000#32 = 0 ∧ isNaN 0x7FC00000#32 = true := by decide +kernel
theorem witness_Binary32ComparisonsFollowTheExactValues :
    finite 0x80000000#32 = true ∧ finite 0x00000000#32 = true ∧ isNaN 0xFF800000#32 = false ∧ isNaN 0x7FC00000#32 = true := by
  decide

end Sys2Proof.Machine.Tests
end

section
/-! PROOF. Reset (10_state.md R35; 70_reset_and_hazards.md R180): what a step on each reset move is, that an abandoned request still runs
to a next state, and from these that every reset leaves the record `S` at its reset values. -/

namespace Sys2Proof.Machine

/-- A request whose header names no operation is served like the others, with `E_ILLEGAL` as its effect, whatever the header's defect. -/
theorem rejectHeader_eq_serve (e : DecodeError) (s : State) : rejectHeader e s = serve (raise .illegal) s := by cases e <;> rfl

/-- Serving a request, whatever its header, serves some effect. -/
theorem runRequest_eq_serve (r : Request) (s : State) : ∃ f, runRequest r s = serve f s := by
  unfold runRequest
  cases decode r with
  | ok i => exact ⟨effectOf i, exec_eq_serve i s⟩
  | error e => exact ⟨raise .illegal, rejectHeader_eq_serve e s⟩

/-- Under an admitted configuration every request answers a next state. -/
theorem runRequest_admitted (r : Request) {s : State} (h : admitted s.cfg = true) : ∃ u, runRequest r s = .next u := by
  obtain ⟨f, hf⟩ := runRequest_eq_serve r s
  exact ⟨_, hf.trans (serve_admitted f h)⟩

/-- A reset released with an admitted configuration always answers a next state. -/
theorem takeReset_admitted {c : Config} (s : State) (h : admitted c = true) :
    takeReset c s = .next { s with ctl := Control.reset, cfg := c, resp := none } := by
  simp [takeReset, h]

/-- A step on a reset move is the reset, with the move taken. -/
theorem step_of_reset {s : State} {c : Config} {rest : List HostMove} (h : s.inbox = .reset c :: rest) :
    step s = takeReset c { s with inbox := rest } := by
  simp [step, h]

/-- A step on an abandoned request is the reset during that request, with the move taken. -/
theorem step_of_abandon {s : State} {r : Request} {n : Nat} {c : Config} {rest : List HostMove}
    (h : s.inbox = .abandon r n c :: rest) :
    step s = takeResetDuring n c { s with inbox := rest } (runRequest r { s with inbox := rest }) := by
  simp [step, h]

/-- Settles O11. Both reset moves end in `takeReset`, which puts `Control.reset` in place of `S`; an abandoned request comes to it
because under an admitted configuration every request answers a next state. -/
theorem resetGivesEveryFieldItsValue : Obligations.ResetGivesEveryFieldItsValue := by
  unfold Obligations.ResetGivesEveryFieldItsValue
  intro zero
  have hzero : Control.reset = zero := rfl
  refine ⟨fun c => (resetWith_ctl c).trans hzero, ?reset, ?abandon⟩
  case reset =>
    intro s c rest hc hin
    exact ⟨_, (step_of_reset hin).trans (takeReset_admitted _ hc), hzero⟩
  case abandon =>
    intro s r n c rest hs hc hin
    obtain ⟨u, hu⟩ := runRequest_admitted r (s := { s with inbox := rest }) hs
    have hstep := step_of_abandon hin
    rw [hu] at hstep
    exact ⟨_, hstep.trans (takeReset_admitted _ hc), hzero⟩

end Sys2Proof.Machine
end

section
/-! PROOF. The history window (20_memory.md R41, R42; 43_pid.md R132, R139): a tick that answers `OK` is the one that commits
`tickNext`, and what the history, the tick count and the set point of `tickNext` are is said by the laws of the tick's steps. -/

namespace Sys2Proof.Machine

/-- A PCC fault of a live tick does not answer `OK`, so a tick that answers `OK` completed: its response and its record are those of
R138 and R130 (43_pid.md R140). -/
theorem pidTick_completed {cur set out : F32} {s t : State} {r : Response} (hs : Live s)
    (ht : exec (.pidTick cur set out) s = .next t) (hr : t.resp = some r) (hst : r.st = 0x00#8) :
    t = respond (tickResponse (tickOutput s.cfg cur set out s.ctl)) (commit (tickNext s.cfg cur set out s.ctl) s) := by
  obtain ⟨hadm, hfatal⟩ := hs
  rw [exec_eq_serve, serve_live _ hadm hfatal] at ht
  obtain rfl : pidTickEffect cur set out s = t := Host.Outcome.next.inj ht
  obtain ⟨-, -, hdone⟩ | ⟨-, -, hrange⟩ | ⟨-, hoperand⟩ := pidTickEffect_cases cur set out s
  · exact hdone
  · rw [hrange, raise_resp] at hr
    cases hr
    exact absurd hst (by decide)
  · rw [hoperand, raise_resp] at hr
    cases hr
    exact absurd hst (by decide)

/-- Settles O45. The committed history is one `push` onto the history after step 1, which is the old one when the set point is
unchanged and `zeroFill` when it is new. -/
theorem historyShiftsOncePerCompletedTick : Obligations.HistoryShiftsOncePerCompletedTick := by
  unfold Obligations.HistoryShiftsOncePerCompletedTick
  intro s t cur set out r hs ht hr hst
  obtain rfl := pidTick_completed hs ht hr hst
  simp only [respond_ctl, commit_ctl, tickNext_hist, tickNext_ticks, tickNext_prevSp]
  refine ⟨push_newest _ _, ?same, ?new⟩
  case same =>
    intro h
    simp only [tickReset_same set s.ctl h, and_true]
    exact fun i hi => push_older _ _ hi
  case new =>
    intro h
    simp only [tickReset_new set s.ctl h, and_true]
    exact ⟨fun i hi => (push_older _ _ hi).trans (zeroFill_get hi), rfl⟩

end Sys2Proof.Machine
end

section
/-! PROOF. The Voltage-DAC payload and its write frame (30_encoding.md R76 to R78): the payload's length, its byte `j` in each
`PAYLOAD_ORDER`, and the layout of a write frame. -/

namespace Sys2Proof.Machine

@[simp] theorem payloadVdac_length (cfg : Config) (code : Word) : (payloadVdac cfg code).length = cfg.wVdac := by
  simp [payloadVdac]

theorem payloadVdac_getElem_msbFirst {cfg : Config} (code : Word) {j : Nat} (h : cfg.payloadOrder = .msbFirst)
    (hj : j < (payloadVdac cfg code).length) : (payloadVdac cfg code)[j] = byteOf code (cfg.wVdac - 1 - j) := by
  simp [payloadVdac, h]

theorem payloadVdac_getElem_lsbFirst {cfg : Config} (code : Word) {j : Nat} (h : cfg.payloadOrder = .lsbFirst)
    (hj : j < (payloadVdac cfg code).length) : (payloadVdac cfg code)[j] = byteOf code j := by
  simp [payloadVdac, h]

/-- The checksum of a write frame covers the command byte, the address and the payload (R76, R77). -/
theorem writeFrame_eq (cfg : Config) (addr : Byte) (bytes : List Byte) :
    writeFrame cfg addr bytes = cfg.cmdWrite :: addr :: (bytes ++ [crc8 cfg (cfg.cmdWrite :: addr :: bytes)]) := rfl

/-- Settles O33. The orders differ only in which byte of the code stands at place `j`; `byteOf` names the same bits as R78. -/
theorem payloadHoldsTheCodeInPayloadOrder : Obligations.PayloadHoldsTheCodeInPayloadOrder := by
  unfold Obligations.PayloadHoldsTheCodeInPayloadOrder
  intro cfg code
  refine ⟨payloadVdac_length cfg code, fun j hj => ⟨?msbFirst, ?lsbFirst⟩, writeFrame_eq cfg _ _⟩
  case msbFirst => exact fun h => payloadVdac_getElem_msbFirst code h hj
  case lsbFirst => exact fun h => payloadVdac_getElem_lsbFirst code h hj

end Sys2Proof.Machine
end

section
/-! PROOF. Detection of a flipped bit (40_checksum.md R93): with bit 0 of the polynomial set, each step of the CRC is injective in the
checksum so far and in the byte folded in, so replacing one byte of the stream by another one changes the result. -/

namespace Sys2Proof.Machine

/-- The bit shifted out stands in bit 0 of the shifted checksum, and with it every other bit can be taken back. -/
theorem crcShift_injective {poly : Byte} (h : poly.getLsbD 0 = true) : Function.Injective (crcShift poly) := by
  intro a b hab
  have h7 : a.getLsbD 7 = b.getLsbD 7 := by
    rw [← crcShift_bit_zero h a, ← crcShift_bit_zero h b, hab]
  refine BitVec.eq_of_getLsbD_eq fun i hi => ?_
  obtain hi7 | rfl : i < 7 ∨ i = 7 := by omega
  · have hbit := congrArg (fun c => c.getLsbD (i + 1)) hab
    simpa only [crcShift_bit_succ poly _ hi7, h7, Bool.xor_left_inj] using hbit
  · exact h7

theorem crcShifts_injective {poly : Byte} (h : poly.getLsbD 0 = true) (n : Nat) : Function.Injective (crcShifts poly n) := by
  induction n with
  | zero => exact Function.injective_id
  | succ n ih => exact ih.comp (crcShift_injective h)

theorem reflect8_injective : Function.Injective reflect8 :=
  Function.LeftInverse.injective fun _ => BitVec.reverse_reverse_eq

section
variable {cfg : Config} (hpoly : cfg.crcPoly.getLsbD 0 = true)
include hpoly

/-- Folding in the same byte keeps different checksums different. -/
theorem crcByte_eq_iff_checksum (c c' b : Byte) : crcByte cfg c b = crcByte cfg c' b ↔ c = c' :=
  (crcShifts_injective hpoly 8).eq_iff.trans (BitVec.xor_left_inj _)

/-- Folding different bytes into the same checksum gives different checksums, with or without `CRC_REFIN`. -/
theorem crcByte_eq_iff_byte (c b b' : Byte) : crcByte cfg c b = crcByte cfg c b' ↔ b = b' := by
  refine (crcShifts_injective hpoly 8).eq_iff.trans ((BitVec.xor_right_inj _).trans ?_)
  cases cfg.crcRefIn
  · rfl
  · exact reflect8_injective.eq_iff

theorem foldl_crcByte_eq_iff (d : List Byte) (c c' : Byte) :
    d.foldl (crcByte cfg) c = d.foldl (crcByte cfg) c' ↔ c = c' := by
  induction d generalizing c c' with
  | nil => rfl
  | cons b d ih => exact (ih _ _).trans (crcByte_eq_iff_checksum hpoly c c' b)

theorem foldl_crcByte_set_eq_iff (d : List Byte) (k : Nat) (hk : k < d.length) (b c : Byte) :
    (d.set k b).foldl (crcByte cfg) c = d.foldl (crcByte cfg) c ↔ b = d[k] := by
  induction d generalizing k c with
  | nil => simp at hk
  | cons a d ih =>
    cases k with
    | zero => exact (foldl_crcByte_eq_iff hpoly d _ _).trans (crcByte_eq_iff_byte hpoly c b a)
    | succ k => exact ih k (Nat.lt_of_succ_lt_succ hk) (crcByte cfg c a)

end

/-- The final reflection and exclusive-or lose nothing, whatever the polynomial. -/
theorem crc8_eq_iff (cfg : Config) (d e : List Byte) :
    crc8 cfg d = crc8 cfg e ↔ d.foldl (crcByte cfg) cfg.crcInit = e.foldl (crcByte cfg) cfg.crcInit := by
  refine (BitVec.xor_left_inj _).trans ?_
  cases cfg.crcRefOut
  · rfl
  · exact reflect8_injective.eq_iff

/-- Replacing one byte of the stream keeps the checksum only when the byte stays the same (R93). -/
theorem crc8_set_eq_iff {cfg : Config} (hpoly : cfg.crcPoly.getLsbD 0 = true) (d : List Byte) (k : Nat) (hk : k < d.length)
    (b : Byte) : crc8 cfg (d.set k b) = crc8 cfg d ↔ b = d[k] :=
  (crc8_eq_iff cfg _ _).trans (foldl_crcByte_set_eq_iff hpoly d k hk b cfg.crcInit)

theorem flipped_bit_ne (b : Byte) {j : Nat} (hj : j < 8) : b ^^^ (1#8 <<< j) ≠ b := by
  intro h
  have hbit := congrArg (fun c => c.getLsbD j) h
  simp [hj] at hbit

/-- Settles O23. A byte with one bit flipped is another byte, and the checksum tells the two streams apart. -/
theorem singleBitFlipChangesTheChecksum : Obligations.SingleBitFlipChangesTheChecksum := by
  unfold Obligations.SingleBitFlipChangesTheChecksum
  intro cfg hpoly d k j hk hj hcrc
  exact flipped_bit_ne d[k] hj ((crc8_set_eq_iff hpoly d k hk _).mp hcrc)

end Sys2Proof.Machine
end

section
/-! PROOF. What `rne32` answers (00_scope.md R12): the fields of a built pattern, its units, and from these that a rounding that does not
overflow is within half a unit in the last place of the exact rational. -/

namespace Sys2Proof.Machine

theorem expField_withSign (neg : Bool) {m : Nat} (hm : m < 2 ^ 31) : expField (withSign neg m) = m / 2 ^ 23 := by
  simp only [expField, withSign, BitVec.extractLsb'_toNat, BitVec.toNat_append, BitVec.toNat_ofNat, BitVec.toNat_ofBool,
    Nat.shiftRight_eq_div_pow]
  rw [Nat.mod_eq_of_lt hm, ← Nat.shiftLeft_add_eq_or_of_lt hm, Nat.shiftLeft_eq]
  omega

theorem fracField_withSign (neg : Bool) {m : Nat} (hm : m < 2 ^ 31) : fracField (withSign neg m) = m % 2 ^ 23 := by
  simp only [fracField, withSign, BitVec.extractLsb'_toNat, BitVec.toNat_append, BitVec.toNat_ofNat, BitVec.toNat_ofBool,
    Nat.shiftRight_eq_div_pow]
  rw [Nat.mod_eq_of_lt hm, ← Nat.shiftLeft_add_eq_or_of_lt hm, Nat.shiftLeft_eq]
  omega

/-- The pattern that `rneMag` builds from a rounded significand `r` and a number of dropped places denotes `r * 2 ^ drop` units; `r = 2 ^ 24`,
a rounding up to the next binade, carries into the exponent field. -/
theorem units_withSign (neg : Bool) {drop r : Nat} (hr : r ≤ 2 ^ 24) (hnormal : drop = 0 ∨ 2 ^ 23 ≤ r)
    (hfinite : drop * 2 ^ 23 + r < infBits) : units (withSign neg (drop * 2 ^ 23 + r)) = r * 2 ^ drop := by
  have hm : drop * 2 ^ 23 + r < 2 ^ 31 := hfinite.trans (by decide)
  rw [units, expField_withSign neg hm, fracField_withSign neg hm]
  obtain hsub | ⟨hlo, hhi⟩ | rfl : r < 2 ^ 23 ∨ (2 ^ 23 ≤ r ∧ r < 2 ^ 24) ∨ r = 2 ^ 24 := by omega
  · obtain rfl : drop = 0 := by omega
    rw [if_pos (by omega)]
    omega
  · have hexp : (drop * 2 ^ 23 + r) / 2 ^ 23 = drop + 1 := by omega
    have hfrac : 2 ^ 23 + (drop * 2 ^ 23 + r) % 2 ^ 23 = r := by omega
    rw [hexp, hfrac, if_neg (by omega), Nat.add_sub_cancel]
  · have hexp : (drop * 2 ^ 23 + 2 ^ 24) / 2 ^ 23 = drop + 2 := by omega
    have hfrac : 2 ^ 23 + (drop * 2 ^ 23 + 2 ^ 24) % 2 ^ 23 = 2 ^ 23 := by omega
    rw [hexp, hfrac, if_neg (by omega), Nat.add_sub_assoc (by decide), pow_add]
    ring

theorem rneNat_le {n d m : Nat} (hd : 0 < d) (h : n ≤ d * m) : rneNat n d ≤ m := by
  obtain ⟨-, hnear⟩ := rneNat_near n hd
  by_contra hlt
  have hmul := Nat.mul_le_mul_left d (Nat.lt_of_not_le hlt)
  rw [Nat.mul_succ] at hmul
  omega

theorem le_rneNat {n d m : Nat} (hd : 0 < d) (h : d * m ≤ n) : m ≤ rneNat n d := by
  obtain ⟨hnear, -⟩ := rneNat_near n hd
  by_contra hlt
  have hmul := Nat.mul_le_mul_left d (Nat.lt_of_not_le hlt)
  rw [Nat.mul_succ] at hmul
  omega

/-- The number of low places, above the unit 2^-149, that rounding `n / d` to 24 significant bits drops. -/
def roundDrop (n d : Nat) : Nat := Nat.log2 (n * 2 ^ 149 / d) - 23

/-- The significand of `n / d` rounded to 24 significant bits, or to whole units below the normal range. -/
def roundedSignificand (n d : Nat) : Nat := rneNat (n * 2 ^ 149) (d * 2 ^ roundDrop n d)

/-- The rounded value of `n / d` in units of 2^-149. -/
def roundedUnits (n d : Nat) : Nat := roundedSignificand n d * 2 ^ roundDrop n d

theorem rneMag_eq (n d : Nat) : rneMag n d = min (roundDrop n d * 2 ^ 23 + roundedSignificand n d) infBits := rfl

section
variable (n : Nat) {d : Nat} (hd : 0 < d)
include hd

theorem units_lt_of_roundDrop : n * 2 ^ 149 < d * 2 ^ roundDrop n d * 2 ^ 24 := by
  have hlog : Nat.log2 (n * 2 ^ 149 / d) + 1 ≤ roundDrop n d + 24 := by unfold roundDrop; omega
  have hquot : n * 2 ^ 149 / d < 2 ^ (roundDrop n d + 24) :=
    Nat.lt_log2_self.trans_le (Nat.pow_le_pow_right (by decide) hlog)
  rwa [Nat.div_lt_iff_lt_mul hd, mul_comm _ d, pow_add, ← mul_assoc] at hquot

theorem le_units_of_roundDrop (h : roundDrop n d ≠ 0) : d * 2 ^ roundDrop n d * 2 ^ 23 ≤ n * 2 ^ 149 := by
  have hlog : Nat.log2 (n * 2 ^ 149 / d) = roundDrop n d + 23 := by unfold roundDrop at h ⊢; omega
  have hquot : n * 2 ^ 149 / d ≠ 0 := by
    intro hzero
    rw [hzero, Nat.log2_zero] at hlog
    omega
  have hle := Nat.log2_self_le hquot
  rwa [hlog, Nat.le_div_iff_mul_le hd, mul_comm _ d, pow_add, ← mul_assoc] at hle

theorem roundedSignificand_le : roundedSignificand n d ≤ 2 ^ 24 :=
  rneNat_le (by positivity) (units_lt_of_roundDrop n hd).le

theorem le_roundedSignificand : roundDrop n d = 0 ∨ 2 ^ 23 ≤ roundedSignificand n d :=
  or_iff_not_imp_left.mpr fun h => le_rneNat (by positivity) (le_units_of_roundDrop n hd h)

/-- A quotient below `2 ^ (e + 24)` units drops at most `e` places. -/
theorem roundDrop_le {e : Nat} (h : n * 2 ^ 149 < d * 2 ^ (e + 24)) : roundDrop n d ≤ e := by
  by_contra hlt
  have hle := le_units_of_roundDrop n hd (by omega)
  have hpow : 2 ^ (e + 24) ≤ 2 ^ roundDrop n d * 2 ^ 23 := by
    rw [← pow_add]
    exact Nat.pow_le_pow_right (by decide) (by omega)
  have hmul := Nat.mul_le_mul_left d hpow
  rw [← mul_assoc] at hmul
  omega

/-- A rounding that drops at most 252 places does not overflow: the pattern denotes the rounded units. -/
theorem units_rneMag (neg : Bool) (h : roundDrop n d ≤ 252) :
    units (withSign neg (rneMag n d)) = roundedUnits n d := by
  have hr := roundedSignificand_le n hd
  have hfinite : roundDrop n d * 2 ^ 23 + roundedSignificand n d < infBits := by unfold infBits; omega
  rw [rneMag_eq, min_eq_left hfinite.le]
  exact units_withSign neg hr (le_roundedSignificand n hd) hfinite

/-- The rounded units are within half of the last place kept, which is worth `2 ^ roundDrop` units. -/
theorem abs_roundedUnits_sub_le : |(roundedUnits n d : Rat) / 2 ^ 149 - n / d| ≤ 2 ^ roundDrop n d / 2 ^ 150 := by
  have hd' : (0 : Rat) < d := Nat.cast_pos.mpr hd
  obtain ⟨hlo, hhi⟩ := rneNat_near (n * 2 ^ 149) (d := d * 2 ^ roundDrop n d) (by positivity)
  have hlo' : (2 * (n * 2 ^ 149) : Rat) ≤ 2 * (d * 2 ^ roundDrop n d * roundedSignificand n d) + d * 2 ^ roundDrop n d := by
    exact_mod_cast hlo
  have hhi' : (2 * (d * 2 ^ roundDrop n d * roundedSignificand n d) : Rat) ≤ 2 * (n * 2 ^ 149) + d * 2 ^ roundDrop n d := by
    exact_mod_cast hhi
  have hdiff : (roundedUnits n d : Rat) / 2 ^ 149 - n / d
      = (2 * (d * 2 ^ roundDrop n d * roundedSignificand n d) - 2 * (n * 2 ^ 149)) / (d * 2 ^ 150) := by
    unfold roundedUnits
    push_cast
    field_simp
  have hhalf : (2 : Rat) ^ roundDrop n d / 2 ^ 150 = d * 2 ^ roundDrop n d / (d * 2 ^ 150) :=
    (mul_div_mul_left _ _ hd'.ne').symm
  rw [hdiff, hhalf, abs_div, abs_of_pos (a := (d : Rat) * 2 ^ 150) (by positivity)]
  gcongr
  rw [abs_le]
  constructor <;> linarith

end

/-- `exact` in the rationals' own operations (00_scope.md R13). -/
theorem exact_eq (x : F32) : exact x = (if signBit x then -1 else 1) * ((units x : Rat) / 2 ^ 149) := by
  rw [exact, Rat.mkRat_eq_div]
  push_cast
  cases signBit x
  · exact (one_mul _).symm
  · exact (neg_div _ _).trans (neg_one_mul _).symm

/-- A rational below `2 ^ (e + 24)` units is rounded by at most half of `2 ^ e` units, which are a unit of its last place (R12). -/
theorem abs_exact_rne32_sub_le {q : Rat} {e : Nat} (he : e ≤ 252) (hq : |q| < 2 ^ (e + 24) / 2 ^ 149) :
    |exact (rne32 q) - q| ≤ 2 ^ e / 2 ^ 150 := by
  have habs : |q| = (q.num.natAbs : Rat) / q.den := (Rat.abs_def q).trans (Rat.divInt_eq_div _ _)
  have hunits : q.num.natAbs * 2 ^ 149 < q.den * 2 ^ (e + 24) := by
    rw [habs, div_lt_div_iff₀ (Nat.cast_pos.mpr q.den_pos) (by positivity), mul_comm (2 ^ (e + 24))] at hq
    exact_mod_cast hq
  have hdrop := roundDrop_le q.num.natAbs q.den_pos hunits
  have hmag : exact (rne32 q) - q = (if q < 0 then -1 else 1) * ((roundedUnits q.num.natAbs q.den : Rat) / 2 ^ 149 - |q|) := by
    rw [exact_eq, rne32, units_rneMag _ q.den_pos _ (hdrop.trans he), signBit_withSign]
    by_cases hneg : q < 0
    · simp only [hneg, decide_true, if_true, abs_of_neg hneg]
      ring
    · simp only [hneg, decide_false, Bool.false_eq_true, if_false, abs_of_nonneg (not_lt.mp hneg)]
      ring
  have hsign : |(if q < 0 then -1 else 1 : Rat)| = 1 := by split <;> simp
  calc |exact (rne32 q) - q|
      = |(roundedUnits q.num.natAbs q.den : Rat) / 2 ^ 149 - q.num.natAbs / q.den| := by
        rw [hmag, abs_mul, hsign, one_mul, habs]
    _ ≤ 2 ^ roundDrop q.num.natAbs q.den / 2 ^ 150 := abs_roundedUnits_sub_le _ q.den_pos
    _ ≤ 2 ^ e / 2 ^ 150 := by gcongr; norm_num

end Sys2Proof.Machine
end

section
/-! PROOF. The codec's round trip (41_dac_codec.md R101, R102, R105): the two affine maps are inverse to each other, clamping brings a
voltage no further from one inside the interval, and an admitted span turns 2^-21 V into less than half a code. -/

namespace Sys2Proof.Machine

/-- A number closer than 1/2 to a whole one rounds to it. -/
theorem rha_eq_of_abs_sub_lt {q : Rat} {c : Int} (h : |q - c| < 1 / 2) : rha q = c := by
  obtain ⟨hlo, hhi⟩ := abs_lt.mp h
  unfold rha
  split
  · have hfloor : ⌊-q + 1 / 2⌋ = -c := Int.floor_eq_iff.mpr (by push_cast; constructor <;> linarith)
    exact neg_eq_iff_eq_neg.mpr hfloor
  · have hfloor : ⌊q + 1 / 2⌋ = c := Int.floor_eq_iff.mpr (by constructor <;> linarith)
    exact hfloor

/-- Clamping brings a value no further from one inside the interval. -/
theorem abs_clamp_sub_le {x y lo hi : Rat} (hlo : lo ≤ y) (hhi : y ≤ hi) : |clamp x lo hi - y| ≤ |x - y| := by
  have hy : min (max y lo) hi = y := by rw [max_eq_left hlo, min_eq_left hhi]
  calc |clamp x lo hi - y|
      = |min (max x lo) hi - min (max y lo) hi| := by rw [hy, clamp]
    _ ≤ |max x lo - max y lo| := by simpa using abs_min_sub_min_le_max (max x lo) hi (max y lo) hi
    _ ≤ |x - y| := abs_max_sub_max_le_abs x y lo

/-- The bounds on the codes that an admitted configuration meets (00_scope.md R9). -/
theorem admitted_codes {cfg : Config} (h : admitted cfg = true) :
    cfg.codeMin < cfg.codeMax ∧ cfg.codeMax - cfg.codeMin ≤ 21642608 := by
  simp only [admitted, codesAdmitted, Bool.and_eq_true, decide_eq_true_eq] at h
  have hmax : maxCodeSpan = 21642608 := rfl
  omega

section
variable {cfg : Config} (hlt : cfg.codeMin < cfg.codeMax)
include hlt

theorem codeSpan_pos : (0 : Rat) < cfg.codeMax - cfg.codeMin := sub_pos.mpr (Int.cast_lt.mpr hlt)

/-- The affine map of R101 takes the voltage of a code back to that code (R102). -/
theorem codeOfVolts_voltsOfCode (c : Int) : codeOfVolts cfg (voltsOfCode cfg c) = c := by
  have hspan := (codeSpan_pos hlt).ne'
  unfold codeOfVolts voltsOfCode vMin vMax
  field_simp
  ring

/-- The voltage of a code of the valid range lies in [`V_MIN`, `V_MAX`]. -/
theorem voltsOfCode_mem {c : Int} (hlo : cfg.codeMin ≤ c) (hhi : c ≤ cfg.codeMax) :
    vMin ≤ voltsOfCode cfg c ∧ voltsOfCode cfg c ≤ vMax := by
  have hspan := codeSpan_pos hlt
  have hlo' : (cfg.codeMin : Rat) ≤ c := Int.cast_le.mpr hlo
  have hhi' : (c : Rat) ≤ cfg.codeMax := Int.cast_le.mpr hhi
  have hvolts : (0 : Rat) ≤ vMax - vMin := by norm_num [vMin, vMax]
  have hlow : 0 ≤ ((c : Rat) - cfg.codeMin) * (vMax - vMin) / (cfg.codeMax - cfg.codeMin) :=
    div_nonneg (mul_nonneg (sub_nonneg.mpr hlo') hvolts) hspan.le
  have hhigh : ((c : Rat) - cfg.codeMin) * (vMax - vMin) / (cfg.codeMax - cfg.codeMin) ≤ vMax - vMin := by
    rw [div_le_iff₀ hspan, mul_comm (vMax - vMin)]
    gcongr
  unfold voltsOfCode
  constructor <;> linarith

end

theorem codeOfVolts_sub (cfg : Config) (a b : Rat) :
    codeOfVolts cfg a - codeOfVolts cfg b = (a - b) * ((cfg.codeMax - cfg.codeMin) / (vMax - vMin)) := by
  unfold codeOfVolts
  ring

/-- An admitted step is more than 2^-20 V, so voltages within 2^-21 V have exact codes less than half a code apart (R105). -/
theorem abs_codeOfVolts_sub_lt {cfg : Config} (h : admitted cfg = true) {a b : Rat} (hab : |a - b| ≤ 1 / 2 ^ 21) :
    |codeOfVolts cfg a - codeOfVolts cfg b| < 1 / 2 := by
  obtain ⟨hlt, hspan⟩ := admitted_codes h
  have hspan' : (cfg.codeMax : Rat) - cfg.codeMin ≤ 21642608 := by exact_mod_cast hspan
  have hstep : ((cfg.codeMax : Rat) - cfg.codeMin) / (vMax - vMin) < 2 ^ 20 := by
    norm_num [vMin, vMax]
    linarith
  have hpos : 0 < ((cfg.codeMax : Rat) - cfg.codeMin) / (vMax - vMin) :=
    div_pos (codeSpan_pos hlt) (by norm_num [vMin, vMax])
  rw [codeOfVolts_sub, abs_mul, abs_of_pos hpos]
  calc |a - b| * (((cfg.codeMax : Rat) - cfg.codeMin) / (vMax - vMin))
      ≤ 1 / 2 ^ 21 * (((cfg.codeMax : Rat) - cfg.codeMin) / (vMax - vMin)) := by gcongr
    _ < 1 / 2 ^ 21 * 2 ^ 20 := by gcongr
    _ = 1 / 2 := by norm_num

/-- In the valid range voltages are below 16 V, where half a binary32 unit in the last place is at most 2^-21 V (R105). -/
theorem abs_exact_rne32_voltsOfCode_sub_le {cfg : Config} (hlt : cfg.codeMin < cfg.codeMax) {c : Int} (hlo : cfg.codeMin ≤ c)
    (hhi : c ≤ cfg.codeMax) : |exact (rne32 (voltsOfCode cfg c)) - voltsOfCode cfg c| ≤ 1 / 2 ^ 21 := by
  obtain ⟨hmin, hmax⟩ := voltsOfCode_mem hlt hlo hhi
  have hsmall : |voltsOfCode cfg c| < 2 ^ (129 + 24) / 2 ^ 149 := by
    unfold vMin at hmin
    unfold vMax at hmax
    rw [abs_lt]
    constructor <;> linarith
  calc |exact (rne32 (voltsOfCode cfg c)) - voltsOfCode cfg c|
      ≤ 2 ^ 129 / 2 ^ 150 := abs_exact_rne32_sub_le (by decide) hsmall
    _ = 1 / 2 ^ 21 := by norm_num

/-- A voltage within 2^-21 V of that of a code of the valid range has that code (R105). -/
theorem v2dacCode_of_near {cfg : Config} (h : admitted cfg = true) {c : Int} (hlo : cfg.codeMin ≤ c) (hhi : c ≤ cfg.codeMax)
    {v : F32} (hv : |exact v - voltsOfCode cfg c| ≤ 1 / 2 ^ 21) : v2dacCode cfg v = c := by
  obtain ⟨hlt, -⟩ := admitted_codes h
  obtain ⟨hmin, hmax⟩ := voltsOfCode_mem hlt hlo hhi
  have hcode := abs_codeOfVolts_sub_lt h ((abs_clamp_sub_le hmin hmax).trans hv)
  rw [codeOfVolts_voltsOfCode hlt] at hcode
  exact rha_eq_of_abs_sub_lt hcode

/-- Settles O30. The rounded voltage is within 2^-21 V of the exact one, and an admitted span makes that less than half a code. -/
theorem dacCodeRoundTripsThroughVolts : Obligations.DacCodeRoundTripsThroughVolts := by
  unfold Obligations.DacCodeRoundTripsThroughVolts
  refine ⟨fun cfg c h hlo hhi => ?roundTrip, fun cfg hwide => ?refused⟩
  case roundTrip =>
    obtain ⟨hlt, -⟩ := admitted_codes h
    have hnear := abs_exact_rne32_voltsOfCode_sub_le hlt hlo hhi
    exact ⟨hnear, v2dacCode_of_near h hlo hhi hnear⟩
  case refused =>
    rw [Bool.eq_false_iff]
    intro h
    obtain ⟨-, hspan⟩ := admitted_codes h
    omega

end Sys2Proof.Machine
end

section
/-! PROOF. The table scan (43_pid.md R142, R143): what one comparison of the loop decides, from that where the scan stops or that it
reaches the last entry, and what `boot` answers for either. -/

namespace Sys2Proof.Machine

section Scan
variable {d : F32} {p e : BootEntry}

/-- An entry that is not strictly closer ends the scan at the one before it (R142). -/
theorem bootScan_stopped_of_fge (h : fge (bootDist d e) (bootDist d p) = true) (i : Nat) (rest : List BootEntry) :
    (bootScan d i p (e :: rest)).stopped = some (p, i) := by
  simp [bootScan, h]

theorem bootScan_stopped_of_closer (h : fge (bootDist d e) (bootDist d p) = false) (i : Nat) (rest : List BootEntry) :
    (bootScan d i p (e :: rest)).stopped = (bootScan d (i + 1) e rest).stopped := by
  simp [bootScan, h]

theorem bootScan_last_of_closer (h : fge (bootDist d e) (bootDist d p) = false) (i : Nat) (rest : List BootEntry) :
    (bootScan d i p (e :: rest)).last = (bootScan d (i + 1) e rest).last := by
  simp [bootScan, h]

end Scan

/-- A scan from the entry `p` of index `i` stops at the `k`-th entry from there when the entry after it is the first that is not strictly
closer than the one before it (R142). -/
theorem bootScan_stopped_eq_some {d : F32} (z : BootEntry) {rest : List BootEntry} : ∀ (i : Nat) (p : BootEntry) (k : Nat),
    k < rest.length →
    fge (bootDist d ((p :: rest).getD (k + 1) z)) (bootDist d ((p :: rest).getD k z)) = true →
    (∀ j < k, fge (bootDist d ((p :: rest).getD (j + 1) z)) (bootDist d ((p :: rest).getD j z)) = false) →
    (bootScan d i p rest).stopped = some ((p :: rest).getD k z, i + k) := by
  induction rest with
  | nil => intro i p k hk; exact absurd hk (Nat.not_lt_zero k)
  | cons e rest ih =>
    intro i p k hk hstop hgo
    cases k with
    | zero => exact bootScan_stopped_of_fge hstop i rest
    | succ k =>
      have hcloser : fge (bootDist d e) (bootDist d p) = false := hgo 0 k.succ_pos
      have hrest := ih (i + 1) e k (Nat.lt_of_succ_lt_succ hk) hstop fun j hj => hgo (j + 1) (Nat.succ_lt_succ hj)
      rw [bootScan_stopped_of_closer hcloser, hrest, Nat.add_right_comm]
      rfl

/-- A scan of entries each strictly closer than the one before it does not stop, and its last entry is that of the table (R142). -/
theorem bootScan_of_all_closer {d : F32} (z : BootEntry) {rest : List BootEntry} : ∀ (i : Nat) (p : BootEntry),
    (∀ j < rest.length, fge (bootDist d ((p :: rest).getD (j + 1) z)) (bootDist d ((p :: rest).getD j z)) = false) →
    (bootScan d i p rest).stopped = none ∧
      (bootScan d i p rest).last = ((p :: rest).getD rest.length z, i + rest.length) := by
  induction rest with
  | nil => intro i p _; exact ⟨rfl, rfl⟩
  | cons e rest ih =>
    intro i p hgo
    have hcloser : fge (bootDist d e) (bootDist d p) = false := hgo 0 (Nat.succ_pos _)
    obtain ⟨hstopped, hlast⟩ := ih (i + 1) e fun j hj => hgo (j + 1) (Nat.succ_lt_succ hj)
    refine ⟨(bootScan_stopped_of_closer hcloser i rest).trans hstopped, ?_⟩
    rw [bootScan_last_of_closer hcloser, hlast, Nat.add_right_comm]
    rfl

section Entry
variable {r : BootScan}

/-- `BOOT_BEYOND` has no say once the scan has stopped (R143). -/
theorem bootEntry_of_stopped {f : BootEntry × Nat} (beyond : BootBeyond) (h : r.stopped = some f) : bootEntry beyond r = some f := by
  simp [bootEntry, h]

theorem bootEntry_zero (h : r.stopped = none) : bootEntry .zero r = none := by
  simp [bootEntry, h]

theorem bootEntry_clampLast (h : r.stopped = none) : bootEntry .clampLast r = some r.last := by
  simp [bootEntry, h]

end Entry

section Boot
variable {cfg : Config} {set out : F32} {p : BootEntry} {rest : List BootEntry}

theorem boot_of_entry {e : BootEntry} {k : Nat} (ht : cfg.bootTable = p :: rest)
    (h : bootEntry cfg.bootBeyond (bootScan (fsub set out) 0 p rest) = some (e, k)) :
    (boot cfg set out).seed = fdiv e.contrib cfg.ki ∧ (boot cfg set out).idx = some k := by
  simp [boot, ht, h]

theorem boot_of_no_entry (ht : cfg.bootTable = p :: rest)
    (h : bootEntry cfg.bootBeyond (bootScan (fsub set out) 0 p rest) = none) :
    (boot cfg set out).seed = 0#32 ∧ (boot cfg set out).idx = none := by
  simp [boot, ht, h]

end Boot

/-- Settles O40. By induction along the table the scan stops where closeness first fails to improve, and otherwise reaches the last entry;
`bootEntry` then takes the entry it stopped at, or what `BOOT_BEYOND` says. -/
theorem bootTakesTheEntryWhereClosenessStops : Obligations.BootTakesTheEntryWhereClosenessStops := by
  unfold Obligations.BootTakesTheEntryWhereClosenessStops
  intro cfg set out hne
  obtain ⟨p, rest, ht⟩ := List.exists_cons_of_ne_nil hne
  simp only [ht, List.length_cons, Nat.add_lt_add_iff_right, Nat.add_sub_cancel]
  refine ⟨fun k hk hstop hgo => ?stops, fun hgo => ?beyond⟩
  case stops =>
    have hscan := bootScan_stopped_eq_some ⟨0#32, 0#32⟩ 0 p k hk hstop hgo
    rw [Nat.zero_add] at hscan
    exact boot_of_entry ht (bootEntry_of_stopped _ hscan)
  case beyond =>
    obtain ⟨hstopped, hlast⟩ := bootScan_of_all_closer ⟨0#32, 0#32⟩ 0 p hgo
    rw [Nat.zero_add] at hlast
    constructor
    · intro hzero
      exact boot_of_no_entry ht (by rw [hzero, bootEntry_zero hstopped])
    · intro hclamp
      exact boot_of_entry ht (by rw [hclamp, bootEntry_clampLast hstopped, hlast])

end Sys2Proof.Machine
end

section
/-! PROOF. Illegal headers (60_exceptions.md R161; 30_encoding.md R66): the response a fault leaves, what a step on a request is, and from
which headers decode, that every other one raises `E_ILLEGAL`. -/

namespace Sys2Proof.Machine

/-- A fault leaves its code in `ST`, every other field of the response 0, and the rest of the machine as it was (30_encoding.md R71). -/
theorem raise_eq (st : Status) (s : State) :
    raise st s = { s with resp := some ⟨st.code.setWidth 32, 0#32, 0#32, 0#32, 0#32⟩ } := by
  cases st <;> rfl

/-- A step on a request serves it, with the move taken. -/
theorem step_of_request {s : State} {r : Request} {rest : List HostMove} (h : s.inbox = .request r :: rest) :
    step s = runRequest r { s with inbox := rest } := by
  simp [step, h]

/-- The codes of R64 are those that name an operation (R66). -/
theorem exists_ofCode_eq_some_iff (b : Byte) :
    (∃ o, Op.ofCode b = some o) ↔ b ∈ [0x01#8, 0x02#8, 0x10#8, 0x11#8, 0x20#8, 0x21#8, 0x22#8, 0x23#8, 0x30#8, 0x31#8] := by
  constructor
  · rintro ⟨o, ho⟩
    rw [← code_of_ofCode ho]
    cases o <;> decide
  · intro hb
    obtain ⟨o, -, rfl⟩ : ∃ o ∈ Op.all, o.code = b := List.mem_map.mp hb
    exact ⟨o, ofCode_code o⟩

/-- `AMUX2V` alone reads `SEL` (30_encoding.md R61, R63). -/
theorem readsSel_iff (o : Op) : o.form.readsSel = true ↔ o.code = 0x22#8 := by cases o <;> decide

/-- `CRC8` and `CRC8_CHECK` alone read `LEN` (30_encoding.md R61, R63). -/
theorem readsLen_iff (o : Op) : o.form.readsLen = true ↔ o.code = 0x10#8 ∨ o.code = 0x11#8 := by cases o <;> decide

/-- The headers that decode, in the values of their fields (30_encoding.md R65, R66). -/
theorem exists_decode_eq_ok_iff (r : Request) :
    (∃ i, decode r = .ok i) ↔
      r.op ∈ [0x01#8, 0x02#8, 0x10#8, 0x11#8, 0x20#8, 0x21#8, 0x22#8, 0x23#8, 0x30#8, 0x31#8] ∧
        (r.op = 0x22#8 ∨ r.sel = 0#8) ∧ ((r.op = 0x10#8 ∨ r.op = 0x11#8) ∨ r.len = 0#16) := by
  rw [← exists_ofCode_eq_some_iff]
  constructor
  · rintro ⟨i, hi⟩
    obtain ⟨o, ho, hsel, hlen, -⟩ := decode_eq_ok_iff.mp hi
    rw [readsSel_iff, code_of_ofCode ho] at hsel
    rw [readsLen_iff, code_of_ofCode ho] at hlen
    exact ⟨⟨o, ho⟩, hsel, hlen⟩
  · rintro ⟨⟨o, ho⟩, hsel, hlen⟩
    rw [← code_of_ofCode ho, ← readsSel_iff] at hsel
    rw [← code_of_ofCode ho, ← readsLen_iff] at hlen
    exact ⟨_, decode_eq_ok_iff.mpr ⟨o, ho, hsel, hlen, rfl⟩⟩

/-- A live core answers a request that does not decode with `E_ILLEGAL` (R161). -/
theorem runRequest_illegal {r : Request} {s : State} (hs : Live s) (h : ¬∃ i, decode r = .ok i) :
    runRequest r s = .next (raise .illegal s) := by
  obtain ⟨hadm, hfatal⟩ := hs
  unfold runRequest
  cases hd : decode r with
  | ok i => exact absurd ⟨i, hd⟩ h
  | error e => exact (rejectHeader_eq_serve e s).trans (serve_live _ hadm hfatal)

/-- Settles O5. The illegal headers are those outside `exists_decode_eq_ok_iff`, and a request that does not decode raises `E_ILLEGAL`. -/
theorem illegalHeadersAnswerIllegalAndChangeNothing : Obligations.IllegalHeadersAnswerIllegalAndChangeNothing := by
  unfold Obligations.IllegalHeadersAnswerIllegalAndChangeNothing
  intro s r rest hs hin illegal
  have hlegal : (∃ i, decode r = .ok i) ↔ ¬illegal := by
    rw [exists_decode_eq_ok_iff]
    tauto
  refine ⟨fun hill => ?_, hlegal.mpr⟩
  have hlive : Live { s with inbox := rest } := hs
  rw [step_of_request hin, runRequest_illegal hlive fun hok => hlegal.mp hok hill, raise_eq]
  rfl

end Sys2Proof.Machine
end

section
/-! PROOF. The fatal bit (60_exceptions.md R166): which selectors set it, that `serve` answers every request `E_FATAL` while it is set, and that no
move but a reset clears it. -/

namespace Sys2Proof.Machine

/-- The selectors that name no channel (41_dac_codec.md R103). -/
theorem channelOf_eq_none_iff (cfg : Config) (sel : Byte) :
    channelOf cfg sel = none ↔ sel ∉ [cfg.amuxSel.vout, cfg.amuxSel.v1p25, cfg.amuxSel.iout, cfg.amuxSel.v1p65] := by
  unfold channelOf
  split_ifs <;> simp [*]

/-- While the fatal bit is set every request, whatever its header, ends with `E_FATAL` (R166). -/
theorem runRequest_fatal (r : Request) {s : State} (hadm : admitted s.cfg = true) (hfatal : s.ctl.fatal = true) :
    runRequest r s = .next (raise .fatal s) := by
  obtain ⟨f, hf⟩ := runRequest_eq_serve r s
  exact hf.trans (serve_fatal f hadm hfatal)

/-- No request clears the fatal bit (R166). -/
theorem runRequest_keeps_fatal {r : Request} {s t : State} (hfatal : s.ctl.fatal = true) (h : runRequest r s = .next t) :
    t.ctl.fatal = true := by
  obtain ⟨f, hf⟩ := runRequest_eq_serve r s
  obtain ⟨-, ⟨-, rfl⟩ | ⟨hclear, -⟩⟩ := serve_next (hf.symm.trans h)
  · exact hfatal
  · exact absurd hfatal (by simp [hclear])

/-- Waiting leaves the state as it is. -/
theorem idle_next {s t : State} (h : idle s = .next t) : t = s := by
  unfold idle at h
  split_ifs at h
  exact (Host.Outcome.next.inj h).symm

/-- Settles O16. A selector outside `channelOf` takes `raiseFatal`; `serve` answers every request `E_FATAL` while the bit is set; and of
the moves only the two resets do not go through `serve` or `idle`, which keep the bit. -/
theorem fatalBitEndsEveryRequestUntilReset : Obligations.FatalBitEndsEveryRequestUntilReset := by
  unfold Obligations.FatalBitEndsEveryRequestUntilReset
  refine ⟨?sets, ?ends, ?clears⟩
  case sets =>
    rintro s sel raw ⟨hadm, hfatal⟩ hsel
    have heffect : amux2vEffect sel raw s = raiseFatal s := by
      simp only [amux2vEffect, (channelOf_eq_none_iff s.cfg sel).mpr hsel]
    rw [exec_eq_serve, serve_live _ hadm hfatal, effectOf, heffect, raiseFatal, raise_eq]
    rfl
  case ends =>
    intro s r rest hadm hfatal hin
    rw [step_of_request hin, runRequest_fatal (s := { s with inbox := rest }) r hadm hfatal, raise_eq]
    rfl
  case clears =>
    intro s t hfatal hstep hclear
    match hin : s.inbox with
    | [] =>
      obtain rfl : t = s := idle_next (by simpa only [step, hin] using hstep)
      exact absurd hfatal (by simp [hclear])
    | .request r :: rest =>
      rw [step_of_request hin] at hstep
      have hkept := runRequest_keeps_fatal (s := { s with inbox := rest }) hfatal hstep
      exact absurd hkept (by simp [hclear])
    | .reset c :: rest => exact ⟨_, _, rfl, rfl⟩
    | .abandon r n c :: rest => exact ⟨_, _, rfl, rfl⟩

end Sys2Proof.Machine
end

section
/-! PROOF. Bad operands (60_exceptions.md R162): an operation whose effect is an operand check ends there when a value of the check is not finite
or the stream is below the bound. -/

namespace Sys2Proof.Machine

/-- A live operation whose operand check fails ends there with `E_OPERAND` (R162, R168). -/
theorem exec_of_checkOperands_false {i : Instr} {s : State} {good : Bool} {f : State → State} (hs : Live s)
    (hi : effectOf i = checkOperands good f) (hbad : good = false) :
    exec i s = .next { s with resp := some ⟨0x00000011#32, 0#32, 0#32, 0#32, 0#32⟩ } := by
  obtain ⟨hadm, hfatal⟩ := hs
  rw [exec_eq_serve, serve_live _ hadm hfatal, hi, hbad, checkOperands_false, raise_eq]
  rfl

/-- A live operation with a non-finite f32 operand ends with `E_OPERAND` (R162). -/
theorem exec_of_not_finite {i : Instr} {s : State} {xs : List F32} {f : State → State} (hs : Live s)
    (hi : effectOf i = checkOperands (allFinite xs) f) (hbad : ∃ x ∈ xs, finite x = false) :
    exec i s = .next { s with resp := some ⟨0x00000011#32, 0#32, 0#32, 0#32, 0#32⟩ } :=
  exec_of_checkOperands_false hs hi ((allFinite_eq_false_iff xs).mpr hbad)

/-- A live operation whose stream is below its bound ends with `E_OPERAND` (R162; 30_encoding.md R67). -/
theorem exec_of_length_lt {i : Instr} {s : State} {n : Nat} {d : List Byte} {f : State → State} (hs : Live s)
    (hi : effectOf i = checkOperands (decide (n ≤ d.length)) f) (hbad : d.length < n) :
    exec i s = .next { s with resp := some ⟨0x00000011#32, 0#32, 0#32, 0#32, 0#32⟩ } :=
  exec_of_checkOperands_false hs hi (decide_eq_false (Nat.not_le.mpr hbad))

/-- Settles O17. The effect of each of these operations is an operand check, and the premise is what makes its test fail. -/
theorem badOperandsAnswerOperandFault : Obligations.BadOperandsAnswerOperandFault := by
  unfold Obligations.BadOperandsAnswerOperandFault
  intro s hs faulted
  refine ⟨?pidTick, ?bootLookup, ?v2dac, ?setv, ?loadCmp, ?crc8, ?crc8Check⟩
  case pidTick => exact fun cur set out h => exec_of_not_finite hs rfl (by simpa using h)
  case bootLookup => exact fun set out h => exec_of_not_finite hs rfl (by simpa using h)
  case v2dac => exact fun v h => exec_of_not_finite hs rfl (by simpa using h)
  case setv => exact fun v h => exec_of_not_finite hs rfl (by simpa using h)
  case loadCmp => exact fun a b h => exec_of_not_finite hs rfl (by simpa using h)
  case crc8 =>
    have hshort (d : List Byte) (h : d.length < crc8MinLen) : exec (.crc8 d) s = faulted := exec_of_length_lt hs rfl h
    exact hshort [] (by decide)
  case crc8Check => exact fun d h => exec_of_length_lt hs rfl h

end Sys2Proof.Machine
end

section
/-! PROOF. The configuration (70_reset_and_hazards.md R184): no operation's effect changes it, so serving a request keeps it, and each of the
two reset moves puts in its place the one it is released with. -/

namespace Sys2Proof.Machine

/-- A failed operand check only raises a fault, so a checked effect keeps the configuration when the effect behind the check does. -/
theorem checkOperands_cfg {f : State → State} (hf : ∀ s, (f s).cfg = s.cfg) (good : Bool) (s : State) :
    (checkOperands good f s).cfg = s.cfg := by
  cases good with
  | true => exact hf s
  | false => rfl

theorem loadCheckCompare_cfg (a b : F32) (s : State) : (loadCheckCompare a b s).cfg = s.cfg := by
  obtain ⟨-, -, h⟩ | ⟨-, h⟩ := loadCheckCompare_cases a b s <;> simp [h]

/-- No operation's effect changes the configuration. -/
theorem effectOf_cfg (i : Instr) (s : State) : (effectOf i s).cfg = s.cfg := by
  cases i with
  | pidTick cur set out =>
    obtain ⟨-, -, h⟩ | ⟨-, -, h⟩ | ⟨-, h⟩ := pidTickEffect_cases cur set out s <;> simp [effectOf, h]
  | bootLookup set out =>
    obtain ⟨-, -, h⟩ | ⟨-, -, h⟩ | ⟨-, h⟩ := bootLookupEffect_cases set out s <;> simp [effectOf, h]
  | crc8 data => exact checkOperands_cfg (fun _ => by rfl) _ s
  | crc8Check data => exact checkOperands_cfg (fun _ => by rfl) _ s
  | v2dac volts => exact checkOperands_cfg (fun _ => by rfl) _ s
  | dac2v code => rfl
  | amux2v sel raw =>
    obtain ⟨-, h⟩ | ⟨_, -, -, h⟩ | ⟨_, -, -, h⟩ := amux2vEffect_cases sel raw s <;> simp [effectOf, h]
  | setv volts => exact checkOperands_cfg (fun _ => by rfl) _ s
  | loadCmp vAct vExt =>
    obtain ⟨-, -, h⟩ | ⟨-, -, h⟩ | ⟨-, h⟩ := loadCmpEffect_cases vAct vExt s <;> simp [effectOf, h]
  | loadCheck =>
    obtain ⟨-, h⟩ | ⟨-, -, h⟩ | ⟨-, -, h⟩ := loadCheckEffect_cases s <;> simp [effectOf, h, voutRead, loadCheckCompare_cfg]

/-- Serving an effect that keeps the configuration keeps it. -/
theorem serve_cfg {f : State → State} {s t : State} (hf : (f s).cfg = s.cfg) (h : serve f s = .next t) : t.cfg = s.cfg := by
  obtain ⟨-, ⟨-, rfl⟩ | ⟨-, rfl⟩⟩ := serve_next h
  · rfl
  · exact hf

/-- No request, whatever its header, changes the configuration. -/
theorem runRequest_cfg {r : Request} {s t : State} (h : runRequest r s = .next t) : t.cfg = s.cfg := by
  unfold runRequest at h
  cases hd : decode r with
  | ok i =>
    rw [hd] at h
    exact serve_cfg (effectOf_cfg i s) ((exec_eq_serve i s).symm.trans h)
  | error e =>
    rw [hd] at h
    exact serve_cfg (raise_cfg .illegal s) ((rejectHeader_eq_serve e s).symm.trans h)

/-- A step on a reset takes the configuration the reset is released with. -/
theorem step_of_reset_cfg {s t : State} {c : Config} {rest : List HostMove} (hin : s.inbox = .reset c :: rest)
    (h : step s = .next t) : t.cfg = c := by
  obtain ⟨-, rfl⟩ := takeReset_next ((step_of_reset hin).symm.trans h)
  rfl

/-- A step on an abandoned request takes the configuration its reset is released with, whatever the request would have done. -/
theorem step_of_abandon_cfg {s t : State} {r : Request} {n : Nat} {c : Config} {rest : List HostMove}
    (hin : s.inbox = .abandon r n c :: rest) (h : step s = .next t) : t.cfg = c := by
  obtain ⟨_, -, -, rfl⟩ := takeResetDuring_next ((step_of_abandon hin).symm.trans h)
  rfl

/-- Settles O13. Waiting and requests keep the configuration, so a step that changes it took one of the two reset moves, and each of these
takes the configuration it is released with. -/
theorem configurationChangesOnlyAcrossReset : Obligations.ConfigurationChangesOnlyAcrossReset := by
  unfold Obligations.ConfigurationChangesOnlyAcrossReset
  refine ⟨?changes, fun _ _ _ _ => step_of_reset_cfg, fun _ _ _ _ _ _ => step_of_abandon_cfg⟩
  case changes =>
    intro s t hstep hne
    match hin : s.inbox with
    | [] =>
      have hsame : t = s := idle_next (by simpa only [step, hin] using hstep)
      exact absurd (congrArg State.cfg hsame) hne
    | .request r :: rest =>
      rw [step_of_request hin] at hstep
      exact absurd (runRequest_cfg hstep) hne
    | .reset c :: rest =>
      obtain rfl := step_of_reset_cfg hin hstep
      exact ⟨_, _, rfl, .inl rfl⟩
    | .abandon r n c :: rest =>
      obtain rfl := step_of_abandon_cfg hin hstep
      exact ⟨_, _, rfl, .inr ⟨r, n, rfl⟩⟩

end Sys2Proof.Machine
end

section
/-! PROOF. Requests (30_encoding.md sections 1 and 2): decoding the request of an instruction, the request of a decoded instruction, the
operand words and the stream that decoding looks at, and a step on a request that decodes. -/

namespace Sys2Proof

open Sys2Proof.Machine

/-- The lemmas of `EncodedOperands`, for whichever constructor. -/
theorem encodedOperands (i : Instr) : Laws.EncodedOperands.Statement i := by
  cases i with
  | pidTick cur set out => exact Laws.EncodedOperands.pidTick cur set out
  | bootLookup set out => exact Laws.EncodedOperands.bootLookup set out
  | crc8 data => exact Laws.EncodedOperands.crc8 data
  | crc8Check data => exact Laws.EncodedOperands.crc8Check data
  | v2dac volts => exact Laws.EncodedOperands.v2dac volts
  | dac2v code => exact Laws.EncodedOperands.dac2v code
  | amux2v sel raw => exact Laws.EncodedOperands.amux2v sel raw
  | setv volts => exact Laws.EncodedOperands.setv volts
  | loadCmp vAct vExt => exact Laws.EncodedOperands.loadCmp vAct vExt
  | loadCheck => exact Laws.EncodedOperands.loadCheck

/-- `SEL` of an encoded request is 0 where its form does not read it (R61). -/
theorem encode_sel (i : Instr) : i.op.form.readsSel = true ∨ (encode i).sel = 0#8 := by
  cases i with
  | amux2v sel raw => exact .inl rfl
  | crc8 data => exact .inr (byteRequest_sel _ _)
  | crc8Check data => exact .inr (byteRequest_sel _ _)
  | _ => exact .inr (wordRequest_sel _ _ _ _ _)

/-- `LEN` of an encoded request is 0 where its form does not read it (R61). -/
theorem encode_len (i : Instr) : i.op.form.readsLen = true ∨ (encode i).len = 0#16 := by
  cases i with
  | crc8 data => exact .inl rfl
  | crc8Check data => exact .inl rfl
  | _ => exact .inr (wordRequest_len _ _ _ _ _)

/-- The request of a well-formed instruction decodes to that instruction. -/
theorem decode_encode {i : Instr} (h : i.wf = true) : decode (encode i) = .ok i := by
  obtain ⟨hop, hoperands⟩ := encodedOperands i
  exact decode_eq_ok_iff.mpr ⟨i.op, by rw [hop, ofCode_code], encode_sel i, encode_len i, hoperands h⟩

/-- Settles O1. The request holds the instruction's code, 0 in the fields its form does not read, and operands that read back. -/
theorem encodedInstructionDecodesToItself : Obligations.EncodedInstructionDecodesToItself := by
  unfold Obligations.EncodedInstructionDecodesToItself
  exact fun i => decode_encode

/-- A header word is made of its three fields (R61). -/
theorem header_fields (w : Word) : header (opField w) (selField w) (lenField w) = w := by
  refine BitVec.eq_of_getLsbD_eq fun i hi => ?_
  simp only [header, opField, selField, lenField, BitVec.getLsbD_append, BitVec.getLsbD_extractLsb']
  obtain h | h | h : i < 8 ∨ (8 ≤ i ∧ i < 16) ∨ 16 ≤ i := by omega
  · simp [h]
  · have hsel : i - 8 < 8 := by omega
    have hback : 8 + (i - 8) = i := by omega
    simp [show ¬ i < 8 by omega, hsel, hback]
  · have hlen : i - 8 - 8 < 16 := by omega
    have hback : 16 + (i - 8 - 8) = i := by omega
    simp [show ¬ i < 8 by omega, show ¬ i - 8 < 8 by omega, hlen, hback]

section
variable {r : Request} {o : Op} (ho : Op.ofCode r.op = some o)
include ho

/-- An operation that takes no bytes re-encodes to the header and the empty stream of its request. -/
theorem wordRequest_of_decoded (hlen : r.len = 0#16) (w1 w2 w3 : Word) :
    (wordRequest o r.sel w1 w2 w3).rq0 = r.rq0 ∧ (wordRequest o r.sel w1 w2 w3).data = r.data := by
  refine ⟨?_, (data_nil_of_len hlen).symm⟩
  have hheader : header r.op r.sel r.len = r.rq0 := header_fields r.rq0
  rw [hlen, ← code_of_ofCode ho] at hheader
  exact hheader

/-- An operation that takes bytes re-encodes to the header and the stream of its request. -/
theorem byteRequest_of_decoded (hbytes : o.form.readsLen = true) (hsel : r.sel = 0#8) :
    (byteRequest o r.data).rq0 = r.rq0 ∧ (byteRequest o r.data).data = r.data := by
  have hlength := data_length_of_bytes ho hbytes
  have hheader : header r.op r.sel r.len = r.rq0 := header_fields r.rq0
  constructor
  · change header o.code 0#8 (BitVec.ofNat 16 r.data.length) = r.rq0
    rw [hlength, BitVec.ofNat_toNat, BitVec.setWidth_eq, ← hsel, code_of_ofCode ho, hheader]
  · refine byteRequest_data o ?_
    have := r.len.isLt
    unfold maxLen
    omega

end

/-- Settles O2. The three header fields and the stream come back as they were read, since the fields a form does not read are 0. -/
theorem decodedRequestReencodesWhatItsFormReads : Obligations.DecodedRequestReencodesWhatItsFormReads := by
  unfold Obligations.DecodedRequestReencodesWhatItsFormReads
  intro r i hdecode
  obtain ⟨o, ho, hsel, hlen, rfl⟩ := decode_eq_ok_iff.mp hdecode
  have hword (hl : r.len = 0#16) (hs : r.sel = 0#8) (w1 w2 w3 : Word) :
      (wordRequest o 0#8 w1 w2 w3).rq0 = r.rq0 ∧ (wordRequest o 0#8 w1 w2 w3).data = r.data :=
    hs ▸ wordRequest_of_decoded ho hl w1 w2 w3
  cases o with
  | crc8 | crc8Check =>
    obtain ⟨hrq0, hdata⟩ := byteRequest_of_decoded ho rfl (by simpa [Op.form, Form.readsSel] using hsel)
    exact ⟨hrq0, hdata, rfl, rfl, rfl⟩
  | amux2v =>
    obtain ⟨hrq0, hdata⟩ := wordRequest_of_decoded ho (by simpa [Op.form, Form.readsLen] using hlen) r.w1 0#32 0#32
    exact ⟨hrq0, hdata, rfl, rfl, rfl⟩
  | _ =>
    obtain ⟨hrq0, hdata⟩ := hword (by simpa [Op.form, Form.readsLen] using hlen) (by simpa [Op.form, Form.readsSel] using hsel) _ _ _
    exact ⟨hrq0, hdata, rfl, rfl, rfl⟩

/-- Settles O3: each header is a fixed word, so the kernel evaluates `decode` on it. -/
theorem writtenOutHeadersDecodeToTheirOperations : Obligations.WrittenOutHeadersDecodeToTheirOperations := by
  unfold Obligations.WrittenOutHeadersDecodeToTheirOperations
  decide

/-- Requests with the same header decode alike when the operation it names reads the same operands from both. -/
theorem decode_congr {r r' : Request} (h0 : r'.rq0 = r.rq0)
    (hops : ∀ o, o.code = r.op → r'.operands o = r.operands o) : decode r' = decode r := by
  unfold decode Request.op Request.sel Request.len
  rw [h0]
  cases ho : Op.ofCode (opField r.rq0) with
  | none => rfl
  | some o => simp only [hops o (code_of_ofCode ho)]

/-- Settles O4. An operation with one of the codes does not name the words that change. -/
theorem ignoredOperandWordsHaveNoEffect : Obligations.IgnoredOperandWordsHaveNoEffect := by
  unfold Obligations.IgnoredOperandWordsHaveNoEffect
  intro r w1 w2 w3
  refine ⟨fun hop => ?noWords, fun hop => ?oneWord, fun hop => ?twoWords⟩
  case noWords =>
    refine decode_congr rfl fun o ho => ?_
    rw [← ho] at hop
    cases o with
    | crc8 | crc8Check | loadCheck => rfl
    | _ => exact absurd hop (by decide)
  case oneWord =>
    refine decode_congr rfl fun o ho => ?_
    rw [← ho] at hop
    cases o with
    | v2dac | dac2v | amux2v | setv => rfl
    | _ => exact absurd hop (by decide)
  case twoWords =>
    refine decode_congr rfl fun o ho => ?_
    rw [← ho] at hop
    cases o with
    | bootLookup | loadCmp => rfl
    | _ => exact absurd hop (by decide)

/-- `CRC8` and `CRC8_CHECK` alone take bytes (30_encoding.md R61, R63). -/
theorem takesBytes_iff (rq0 : Word) : takesBytes rq0 = true ↔ opField rq0 ∈ [0x10#8, 0x11#8] := by
  unfold takesBytes
  cases ho : Op.ofCode (opField rq0) with
  | none =>
    have hnone : ∀ b ∈ [0x10#8, 0x11#8], Op.ofCode b ≠ none := by decide
    exact ⟨fun h => absurd h (by decide), fun h => absurd ho (hnone _ h)⟩
  | some o =>
    rw [← code_of_ofCode ho]
    simpa using readsLen_iff o

theorem takesBytes_eq_false_iff (rq0 : Word) : takesBytes rq0 = false ↔ opField rq0 ∉ [0x10#8, 0x11#8] := by
  rw [← Bool.not_eq_true, takesBytes_iff]

/-- The stream of a request of `CRC8` or `CRC8_CHECK` has `LEN` bytes (R75). -/
theorem data_length_of_op {r : Request} (h : r.op ∈ [0x10#8, 0x11#8]) : r.data.length = r.len.toNat := by
  obtain hlength | ⟨hno, -⟩ := r.data_length
  · exact hlength
  · exact absurd h ((takesBytes_eq_false_iff _).mp hno)

/-- Settles O10. `takesBytes` picks out the two codes, and the proof a request carries says which streams it may have. -/
theorem byteOperationsTakeTheLenBytesOfTheStream : Obligations.ByteOperationsTakeTheLenBytesOfTheStream := by
  unfold Obligations.ByteOperationsTakeTheLenBytesOfTheStream
  refine ⟨fun r => ⟨data_length_of_op, fun hop => ⟨?streams, ?noEffect⟩, ?crc8, ?crc8Check⟩, ?allowed⟩
  case streams => exact r.data_length.elim .inr fun h => .inl h.2
  case noEffect =>
    intro r' h0 h1 h2 h3
    exact decode_eq_of_words ((takesBytes_eq_false_iff _).mpr hop) h0 h1 h2 h3
  case crc8 =>
    intro hop hsel
    exact decode_eq_ok_iff.mpr ⟨.crc8, by rw [hop]; decide, .inr hsel, .inl rfl, rfl⟩
  case crc8Check =>
    intro hop hsel
    exact decode_eq_ok_iff.mpr ⟨.crc8Check, by rw [hop]; decide, .inr hsel, .inl rfl, rfl⟩
  case allowed =>
    intro rq0 w1 w2 w3 d hd
    exact ⟨⟨rq0, w1, w2, w3, d, hd.imp_right fun h => ⟨(takesBytes_eq_false_iff _).mpr h.1, h.2⟩⟩, rfl, rfl, rfl, rfl, rfl⟩

/-- What decodes is well-formed: a stream has at most the 65535 bytes that `LEN` can name (R67). -/
theorem wf_of_decode {r : Request} {i : Instr} (h : decode r = .ok i) : i.wf = true := by
  obtain ⟨o, ho, -, -, rfl⟩ := decode_eq_ok_iff.mp h
  have hbound (hbytes : o.form.readsLen = true) : r.data.length ≤ maxLen := by
    have hlt := r.len.isLt
    rw [data_length_of_bytes ho hbytes]
    unfold maxLen
    omega
  cases o with
  | crc8 | crc8Check => exact decide_eq_true (hbound rfl)
  | _ => rfl

end Sys2Proof

namespace Sys2Proof.Machine

theorem runRequest_of_decode {r : Request} {i : Instr} (h : decode r = .ok i) (s : State) : runRequest r s = exec i s := by
  simp [runRequest, h]

/-- Settles O8: the step takes the move and `runRequest` runs what `decode` gave, which is well-formed. -/
theorem stepRunsTheDecodedInstruction : Obligations.StepRunsTheDecodedInstruction := by
  unfold Obligations.StepRunsTheDecodedInstruction
  intro s r rest i hin hdecode
  exact ⟨wf_of_decode hdecode, (step_of_request hin).trans (runRequest_of_decode hdecode _)⟩

theorem step_of_no_move {s : State} (h : s.inbox = []) : step s = idle s := by
  simp [step, h]

/-- Settles O9: an empty inbox leads to `idle`, which answers the state itself. -/
theorem withNoMovePendingTheCoreWaits : Obligations.WithNoMovePendingTheCoreWaits := by
  unfold Obligations.WithNoMovePendingTheCoreWaits
  intro s hadm hin
  rw [step_of_no_move hin]
  simp [idle, hadm]

/-- Every request, whatever its header, is refused under a configuration that is not admitted (00_scope.md R9). -/
theorem runRequest_refused (r : Request) {s : State} (h : admitted s.cfg = false) :
    runRequest r s = .refused .configuration := by
  obtain ⟨f, hf⟩ := runRequest_eq_serve r s
  exact hf.trans (serve_refused f h)

/-- No reset is released with a configuration that is not admitted (00_scope.md R9). -/
theorem takeReset_refused {c : Config} (s : State) (h : admitted c = false) : takeReset c s = .refused .configuration := by
  simp [takeReset, h]

/-- Settles O14. `serve` and `idle` ask for the configuration of the state, `takeReset` for the one the reset is released with. -/
theorem inadmissibleConfigurationIsRefused : Obligations.InadmissibleConfigurationIsRefused := by
  unfold Obligations.InadmissibleConfigurationIsRefused
  refine ⟨?operation, ?waiting, ?request, ?abandon, ?reset⟩
  case operation => exact fun s i h => (exec_eq_serve i s).trans (serve_refused _ h)
  case waiting =>
    intro s h hin
    rw [step_of_no_move hin]
    simp [idle, h]
  case request => exact fun s r rest h hin => (step_of_request hin).trans (runRequest_refused r h)
  case abandon =>
    intro s r n c rest h hin
    rw [step_of_abandon hin]
    cases hadm : admitted s.cfg with
    | false =>
      rw [runRequest_refused (s := { s with inbox := rest }) r hadm]
      rfl
    | true =>
      obtain ⟨u, hu⟩ := runRequest_admitted r (s := { s with inbox := rest }) hadm
      rw [hu]
      exact takeReset_refused _ (h.resolve_left (by simp [hadm]))
  case reset => exact fun s c rest h hin => (step_of_reset hin).trans (takeReset_refused _ h)

end Sys2Proof.Machine
end

section
/-! PROOF. How an operation ends, said once (60_exceptions.md R169; 30_encoding.md R68 to R71): in a fault, in the fatal bit, in a committed
tick, or in an answer, with the external requests its rule allows made before that. The claims about the record `S`, the
response and the external requests of every operation are read off these endings. -/

namespace Sys2Proof.Machine

/-- The header holds the status in its low byte (R68). -/
@[simp] theorem response_st (st : Status) (q1 q2 q3 q4 : Word) (sat bool : Bool) :
    (response st q1 q2 q3 q4 sat bool).st = st.code :=
  BitVec.extractLsb'_append_eq_right

@[simp] theorem response_sat (st : Status) (q1 q2 q3 q4 : Word) (sat bool : Bool) :
    (response st q1 q2 q3 q4 sat bool).sat = sat := by
  simp only [response, Response.sat, statusWord, BitVec.getLsbD_append]
  simp

@[simp] theorem response_bool (st : Status) (q1 q2 q3 q4 : Word) (sat bool : Bool) :
    (response st q1 q2 q3 q4 sat bool).bool = bool := by
  simp only [response, Response.bool, statusWord, BitVec.getLsbD_append]
  simp

theorem statusWord_above_flags (st : Status) (sat bool : Bool) : (statusWord st sat bool).extractLsb' 10 22 = 0#22 := by
  cases sat <;> cases bool <;> cases st <;> rfl

/-- Settles O20: the fields of the status word, and the codes by the table of R70. -/
theorem responseHeaderHasItsFields : Obligations.ResponseHeaderHasItsFields := by
  unfold Obligations.ResponseHeaderHasItsFields
  refine ⟨fun st sat bool q1 q2 q3 q4 => ?_, by decide⟩
  exact ⟨response_st .., response_sat .., response_bool .., statusWord_above_flags .., rfl, rfl, rfl, rfl⟩

/-- The codes of the PCC faults (R70). -/
theorem code_mem_faults_iff (st : Status) : st.code ∈ [0x10#8, 0x11#8, 0x12#8, 0x1F#8] ↔ st.isPccFault = true := by
  cases st <;> decide

/-- The external requests that the rule of an operation may make, in order (20_memory.md R56). -/
def AllowedRequests (i : Instr) (s : State) (made : List PortRequest) : Prop :=
  match i with
  | .setv _ => made = [] ∨ ∃ bytes, made = [.write s.cfg.regVdac bytes]
  | .loadCheck => made = [] ∨ made = [.readAmux s.cfg.amuxSel.vout] ∨
      (made = [.readAmux s.cfg.amuxSel.vout, .sample s.cfg.loadAdcCh] ∧ (drvReadAmux s.cfg.amuxSel.vout s).1.1 = .ok)
  | .pidTick _ _ _ | .bootLookup _ _ | .crc8 _ | .crc8Check _ | .v2dac _ | .dac2v _ | .amux2v _ _ | .loadCmp _ _ => made = []

theorem allowedRequests_nil (i : Instr) (s : State) : AllowedRequests i s [] := by
  cases i with
  | setv volts => exact .inl rfl
  | loadCheck => exact .inl rfl
  | _ => rfl

/-- `m` is `s` after the external requests that the operation `i` makes: the record, the configuration and the moves are those of `s`. -/
structure Asked (i : Instr) (s m : State) : Prop where
  ctl : m.ctl = s.ctl
  cfg : m.cfg = s.cfg
  inbox : m.inbox = s.inbox
  made : ∃ made, m.outbox = s.outbox ++ made ∧ AllowedRequests i s made

theorem Asked.refl (i : Instr) (s : State) : Asked i s s :=
  ⟨rfl, rfl, rfl, [], (List.append_nil _).symm, allowedRequests_nil i s⟩

/-- How the effect of an operation ends. -/
inductive Ending (i : Instr) (s : State) : State → Prop where
  /-- In a PCC fault, with the record `S` as it was (60_exceptions.md R162, R163). -/
  | fault {m : State} (st : Status) (hst : st = .operand ∨ st = .range) (hm : Asked i s m) : Ending i s (raise st m)
  /-- In the fatal bit, on a selector that names no channel (60_exceptions.md R166). -/
  | fatal (sel : Byte) (raw : Word) (hi : i = .amux2v sel raw) (hsel : channelOf s.cfg sel = none) : Ending i s (raiseFatal s)
  /-- In a completed tick, whose operands and values are finite (43_pid.md R140). -/
  | tick (cur set out : F32) (hi : i = .pidTick cur set out) (hoperands : allFinite [cur, set, out] = true)
      (hvals : allFinite (tickVals s.cfg cur set out s.ctl) = true) :
      Ending i s (respond (tickResponse (tickOutput s.cfg cur set out s.ctl)) (commit (tickNext s.cfg cur set out s.ctl) s))
  /-- In an answer, with the record `S` as it was. -/
  | answer {m : State} (st : Status) (q1 q2 q3 q4 : Word) (sat bool : Bool) (hst : st.isPccFault = false) (hm : Asked i s m) :
      Ending i s (respond (response st q1 q2 q3 q4 sat bool) m)

theorem checkOperands_ending {i : Instr} {f : State → State} {s : State} (hf : Ending i s (f s)) (good : Bool) :
    Ending i s (checkOperands good f s) := by
  cases good with
  | true => exact hf
  | false => exact .fault .operand (.inl rfl) (.refl i s)

@[simp] theorem driverStatus_not_fault (st : DriverStatus) : (driverStatus st).isPccFault = false := by cases st <;> rfl

/-- The write of `SETV` is the one its rule allows. -/
theorem setvWrite_asked (volts : F32) (s : State) : Asked (.setv volts) s (setvWrite volts s).2 :=
  ⟨rfl, rfl, rfl, _, rfl, .inr ⟨_, rfl⟩⟩

/-- The Vout read is the first request that the rule of `LOAD_CHECK` allows. -/
theorem voutRead_asked (s : State) : Asked .loadCheck s (voutRead s).2 :=
  ⟨rfl, rfl, rfl, _, rfl, .inr (.inl rfl)⟩

/-- After a read that succeeded the rule of `LOAD_CHECK` allows one sample. -/
theorem adcSample_asked {s : State} (hok : (voutRead s).1.1 = .ok) :
    Asked .loadCheck s (adcSample s.cfg.loadAdcCh (voutRead s).2).2 :=
  ⟨rfl, rfl, rfl, _, List.append_assoc _ _ _, .inr (.inr ⟨rfl, hok⟩)⟩

theorem loadCheckCompare_ending {s m : State} (a b : F32) (hm : Asked .loadCheck s m) :
    Ending .loadCheck s (loadCheckCompare a b m) := by
  obtain ⟨-, -, h⟩ | ⟨-, h⟩ := loadCheckCompare_cases a b m
  · rw [h]
    exact .answer _ _ _ _ _ _ _ rfl hm
  · rw [h]
    exact .fault .range (.inr rfl) hm

/-- Every effect ends in one of these ways. -/
theorem effectOf_ending (i : Instr) (s : State) : Ending i s (effectOf i s) := by
  cases i with
  | pidTick cur set out =>
    obtain ⟨hoperands, hvals, h⟩ | ⟨-, -, h⟩ | ⟨-, h⟩ := pidTickEffect_cases cur set out s <;> rw [effectOf, h]
    · exact .tick cur set out rfl hoperands hvals
    · exact .fault .range (.inr rfl) (.refl _ s)
    · exact .fault .operand (.inl rfl) (.refl _ s)
  | bootLookup set out =>
    obtain ⟨-, -, h⟩ | ⟨-, -, h⟩ | ⟨-, h⟩ := bootLookupEffect_cases set out s <;> rw [effectOf, h]
    · exact .answer _ _ _ _ _ _ _ rfl (.refl _ s)
    · exact .fault .range (.inr rfl) (.refl _ s)
    · exact .fault .operand (.inl rfl) (.refl _ s)
  | crc8 data => exact checkOperands_ending (.answer _ _ _ _ _ _ _ rfl (.refl _ s)) _
  | crc8Check data => exact checkOperands_ending (.answer _ _ _ _ _ _ _ rfl (.refl _ s)) _
  | v2dac volts => exact checkOperands_ending (.answer _ _ _ _ _ _ _ rfl (.refl _ s)) _
  | dac2v code => exact .answer _ _ _ _ _ _ _ rfl (.refl _ s)
  | amux2v sel raw =>
    obtain ⟨hsel, h⟩ | ⟨_, -, -, h⟩ | ⟨_, -, -, h⟩ := amux2vEffect_cases sel raw s <;> rw [effectOf, h]
    · exact .fatal sel raw rfl hsel
    · exact .answer _ _ _ _ _ _ _ rfl (.refl _ s)
    · exact .fault .range (.inr rfl) (.refl _ s)
  | setv volts => 
    exact checkOperands_ending (f := fun s => respond _ (setvWrite volts s).2)
      (.answer _ _ _ _ _ _ _ (driverStatus_not_fault _) (setvWrite_asked volts s)) _
  | loadCmp vAct vExt =>
    obtain ⟨-, -, h⟩ | ⟨-, -, h⟩ | ⟨-, h⟩ := loadCmpEffect_cases vAct vExt s <;> rw [effectOf, h]
    · exact .answer _ _ _ _ _ _ _ rfl (.refl _ s)
    · exact .fault .range (.inr rfl) (.refl _ s)
    · exact .fault .operand (.inl rfl) (.refl _ s)
  | loadCheck =>
    obtain ⟨-, h⟩ | ⟨-, -, h⟩ | ⟨hok, -, h⟩ := loadCheckEffect_cases s <;> rw [effectOf, h]
    · exact .answer _ _ _ _ _ _ _ (driverStatus_not_fault _) (voutRead_asked s)
    · exact .fault .range (.inr rfl) (voutRead_asked s)
    · exact loadCheckCompare_ending _ _ (adcSample_asked hok)

/-- An operation ends at once with `E_FATAL` or in one of the ways of its effect. -/
theorem exec_ending {i : Instr} {s t : State} (h : exec i s = .next t) :
    t = raise .fatal s ∨ (s.ctl.fatal = false ∧ Ending i s t) := by
  obtain ⟨-, ⟨-, rfl⟩ | ⟨hfatal, rfl⟩⟩ := exec_next h
  · exact .inl rfl
  · exact .inr ⟨hfatal, effectOf_ending i s⟩

theorem faultResponse_fields (st : Status) :
    (faultResponse st).q1 = 0#32 ∧ (faultResponse st).q2 = 0#32 ∧ (faultResponse st).q3 = 0#32 ∧
      (faultResponse st).q4 = 0#32 ∧ (faultResponse st).sat = false ∧ (faultResponse st).bool = false :=
  ⟨rfl, rfl, rfl, rfl, response_sat .., response_bool ..⟩

/-- A response that is no fault has none of the fault codes. -/
theorem response_st_not_mem {st : Status} (hst : st.isPccFault = false) (q1 q2 q3 q4 : Word) (sat bool : Bool) :
    (response st q1 q2 q3 q4 sat bool).st ∉ [0x10#8, 0x11#8, 0x12#8, 0x1F#8] := by
  rw [response_st, code_mem_faults_iff, hst]
  exact Bool.false_ne_true

/-- Settles O19. Only the endings in a fault and in the fatal bit have one of the codes, and both leave `faultResponse`. -/
theorem pccFaultsLeaveTheRecordAndZeroResults : Obligations.PccFaultsLeaveTheRecordAndZeroResults := by
  unfold Obligations.PccFaultsLeaveTheRecordAndZeroResults
  intro i s t r ht hr hst
  obtain rfl | ⟨-, hend⟩ := exec_ending ht
  · obtain rfl := Option.some.inj hr
    exact ⟨.inl rfl, faultResponse_fields _⟩
  · cases hend with
    | fault st _ hm =>
      obtain rfl := Option.some.inj hr
      exact ⟨.inl hm.ctl, faultResponse_fields _⟩
    | fatal sel raw =>
      obtain rfl := Option.some.inj hr
      exact ⟨.inr ⟨response_st .., rfl⟩, faultResponse_fields _⟩
    | tick cur set out =>
      obtain rfl := Option.some.inj hr
      exact absurd hst (response_st_not_mem (st := .ok) rfl _ _ _ _ _ _)
    | answer st _ _ _ _ _ _ hnot =>
      obtain rfl := Option.some.inj hr
      exact absurd hst (response_st_not_mem hnot _ _ _ _ _ _)

/-- Settles O39: how an operation can end, with what it asked for on each way (`Asked`). -/
theorem externalRequestsAreMadeAsTheRulesWriteThem : Obligations.ExternalRequestsAreMadeAsTheRulesWriteThem := by
  unfold Obligations.ExternalRequestsAreMadeAsTheRulesWriteThem
  intro i s t ht
  have hmade : ∃ made, t.outbox = s.outbox ++ made ∧ AllowedRequests i s made := by
    obtain rfl | ⟨-, hend⟩ := exec_ending ht
    · exact (Asked.refl i s).made
    · cases hend with
      | fault _ _ hm => exact hm.made
      | fatal => exact (Asked.refl i s).made
      | tick => exact (Asked.refl i s).made
      | answer _ _ _ _ _ _ _ _ hm => exact hm.made
  obtain ⟨made, hout, hallowed⟩ := hmade
  refine ⟨made, hout, ?_⟩
  cases i <;> exact hallowed

/-- Settles O54. Of the endings only a completed tick and the fatal bit change the record. -/
theorem onlyTicksAndBadSelectorsChangeTheRecord : Obligations.OnlyTicksAndBadSelectorsChangeTheRecord := by
  unfold Obligations.OnlyTicksAndBadSelectorsChangeTheRecord
  intro i s t ht
  obtain rfl | ⟨-, hend⟩ := exec_ending ht
  · exact ⟨rfl, rfl, .inl rfl⟩
  · cases hend with
    | fault _ _ hm => exact ⟨hm.cfg, hm.inbox, .inl hm.ctl⟩
    | fatal sel raw hi hsel => exact ⟨rfl, rfl, .inr (.inr ⟨sel, raw, hi, (channelOf_eq_none_iff _ _).mp hsel, rfl⟩)⟩
    | tick cur set out hi => exact ⟨rfl, rfl, .inr (.inl ⟨cur, set, out, hi, tickNext_fatal ..⟩)⟩
    | answer _ _ _ _ _ _ _ _ hm => exact ⟨hm.cfg, hm.inbox, .inl hm.ctl⟩

/-- Settles O44. The endings of a tick are the two faults and the committed tick. -/
theorem pidTickIsAtomic : Obligations.PidTickIsAtomic := by
  unfold Obligations.PidTickIsAtomic
  rintro s t cur set out ⟨hadm, hfatal⟩ ht
  rw [exec_eq_serve, serve_live _ hadm hfatal] at ht
  obtain rfl : pidTickEffect cur set out s = t := Host.Outcome.next.inj ht
  obtain ⟨-, -, h⟩ | ⟨-, -, h⟩ | ⟨-, h⟩ := pidTickEffect_cases cur set out s <;> rw [h]
  · exact ⟨_, rfl, .inl ⟨response_st .., rfl⟩⟩
  · exact ⟨_, rfl, .inr ⟨.inr (response_st ..), rfl⟩⟩
  · exact ⟨_, rfl, .inr ⟨.inl (response_st ..), rfl⟩⟩

/-- No request, whatever its header, takes or adds a move. -/
theorem runRequest_inbox {r : Request} {s t : State} (h : runRequest r s = .next t) : t.inbox = s.inbox := by
  unfold runRequest at h
  cases hd : decode r with
  | ok i =>
    rw [hd] at h
    exact (onlyTicksAndBadSelectorsChangeTheRecord i s t h).2.1
  | error e =>
    rw [hd] at h
    obtain ⟨-, ⟨-, rfl⟩ | ⟨-, rfl⟩⟩ := serve_next ((rejectHeader_eq_serve e s).symm.trans h)
    · rfl
    · rfl

/-- A reset that abandons a request which would have ended in `u` (R180; log entry 12). -/
theorem takeResetDuring_admitted {c : Config} (h : admitted c = true) (n : Nat) (s u : State) :
    takeResetDuring n c s (.next u) = .next { u with ctl := Control.reset, cfg := c, resp := none,
                                                     outbox := s.outbox ++ (u.outbox.drop s.outbox.length).take n } :=
  takeReset_admitted _ h

/-- Settles O12: a reset replaces the core's own fields only, and the request it abandons has a next state of its own,
from which the answer lists and the first `n` external requests are taken. -/
theorem resetLeavesTheExternalAgentsAlone : Obligations.ResetLeavesTheExternalAgentsAlone := by
  unfold Obligations.ResetLeavesTheExternalAgentsAlone
  constructor
  · intro s c rest hc hin
    exact ⟨_, (step_of_reset hin).trans (takeReset_admitted _ hc), rfl, rfl, rfl, rfl, rfl, rfl, rfl, rfl⟩
  · intro s r n c rest hs hc hin
    obtain ⟨u, hu⟩ := runRequest_admitted r (s := { s with inbox := rest }) hs
    have hstep := step_of_abandon hin
    rw [hu, takeResetDuring_admitted hc] at hstep
    exact ⟨_, u, hstep, hu, rfl, runRequest_inbox hu, rfl, rfl, rfl, rfl, rfl, rfl⟩

end Sys2Proof.Machine
end

section
/-! PROOF. The PID fields are hidden state (10_state.md R34): the effect of every operation but a tick does the same when other PID fields
stand in their place. -/

namespace Sys2Proof.Machine

/-- `s` with the PID fields of `c`; the fatal bit stays. -/
def withPid (c : Control) (s : State) : State := { s with ctl := { c with fatal := s.ctl.fatal } }

theorem raise_withPid (st : Status) (c : Control) (s : State) : raise st (withPid c s) = withPid c (raise st s) := rfl

/-- A checked effect does the same with other PID fields when the effect behind the check does. -/
theorem effectOf_withPid_of_check {i : Instr} {good : Bool} {f : State → State} (hi : effectOf i = checkOperands good f)
    {c : Control} {s : State} (hf : f (withPid c s) = withPid c (f s)) :
    effectOf i (withPid c s) = withPid c (effectOf i s) := by
  rw [hi]
  cases good with
  | true => exact hf
  | false => rfl

theorem loadCheckCompare_withPid (a b : F32) (c : Control) (s : State) :
    loadCheckCompare a b (withPid c s) = withPid c (loadCheckCompare a b s) := by
  unfold loadCheckCompare
  split <;> rfl

theorem loadCheckRead_withPid (raw : Word) (c : Control) (s : State) :
    loadCheckRead raw (withPid c s) = withPid c (loadCheckRead raw s) := by
  have hcfg : (withPid c s).cfg = s.cfg := rfl
  unfold loadCheckRead
  rw [hcfg]
  split
  · exact loadCheckCompare_withPid _ _ c (adcSample s.cfg.loadAdcCh s).2
  · rfl

theorem effectOf_withPid {i : Instr} (hi : i.op ≠ .pidTick) (c : Control) (s : State) :
    effectOf i (withPid c s) = withPid c (effectOf i s) := by
  have hcfg : (withPid c s).cfg = s.cfg := rfl
  cases i with
  | pidTick cur set out => exact absurd rfl hi
  | bootLookup set out =>
    refine effectOf_withPid_of_check rfl ?_
    simp only [hcfg]
    split <;> rfl
  | crc8 data => exact effectOf_withPid_of_check rfl (by rfl)
  | crc8Check data => exact effectOf_withPid_of_check rfl (by rfl)
  | v2dac volts => exact effectOf_withPid_of_check rfl (by rfl)
  | dac2v code => rfl
  | amux2v sel raw =>
    simp only [effectOf, amux2vEffect, amux2vChannel, hcfg]
    cases channelOf s.cfg sel with
    | none => rfl
    | some ch => dsimp only; split <;> rfl
  | setv volts => exact effectOf_withPid_of_check rfl (by rfl)
  | loadCmp vAct vExt =>
    refine effectOf_withPid_of_check rfl ?_
    split <;> rfl
  | loadCheck =>
    have hread : voutRead (withPid c s) = ((voutRead s).1, withPid c (voutRead s).2) := rfl
    simp only [effectOf, loadCheckEffect, hread]
    split
    · exact loadCheckRead_withPid _ c _
    · rfl

/-- Settles O55: operation by operation, putting other PID fields in commutes with the effect. -/
theorem otherOperationsAreBlindToThePidFields : Obligations.OtherOperationsAreBlindToThePidFields := by
  unfold Obligations.OtherOperationsAreBlindToThePidFields
  intro i s t c hi hfatal ht
  have hs : ({ s with ctl := c } : State) = withPid c s := by rw [withPid, ← hfatal]
  obtain ⟨hadm, hcases⟩ := exec_next ht
  rw [hs, exec_admitted i (s := withPid c s) hadm]
  change Host.Outcome.next (if s.ctl.fatal = true then _ else _) = .next (withPid c t)
  obtain ⟨hf, rfl⟩ | ⟨hf, rfl⟩ := hcases
  · rw [hf, if_pos rfl, raise_withPid]
  · rw [hf, if_neg Bool.false_ne_true, effectOf_withPid hi]

end Sys2Proof.Machine
end

section
/-! PROOF. The invariant of 10_state.md R28 with the finiteness of what `S` holds (43_pid.md R140): the reset values meet it, a completed tick keeps
it, and so does every way a step can end; from this, that every admitted sequence of moves is answered (70_reset_and_hazards.md
R190). -/

namespace Sys2Proof.Machine

/-- A property of the value pushed and of every entry holds of every entry after the push. -/
theorem push_forall {P : F32 → Prop} {v : F32} {h : Vector F32 histN} (hv : P v) (hh : ∀ i : Fin histN, P h[i.val])
    (i : Fin histN) : P (push v h)[i.val] := by
  obtain hi | hi : i.val + 1 < histN ∨ i.val = 49 := by have := i.isLt; unfold histN at *; omega
  · rw [push_older v h hi]
    exact hh ⟨i.val + 1, hi⟩
  · simp only [hi, push_newest]
    exact hv

theorem controlInv_reset : ControlInv Control.reset where
  ticks_le := by simp
  unfilled_zero i _ := by simp
  off_zero _ := ⟨rfl, rfl⟩

theorem finite_zero : finite 0#32 = true := by decide

theorem controlFinite_reset : ControlFinite Control.reset where
  prevSp := finite_zero
  iacc := finite_zero
  iest := finite_zero
  hist i := by simpa using finite_zero

section Tick
variable {cfg : Config} {cur set out e : F32} {c : Control}

/-- Step 1 keeps the invariant: what it resets takes its reset value (43_pid.md R132). -/
theorem controlInv_tickReset (h : ControlInv c) : ControlInv (tickReset set c) := by
  cases hsp : feq set c.prevSp with
  | true => rwa [tickReset_same set c hsp]
  | false =>
    rw [tickReset_new set c hsp]
    exact ⟨Nat.zero_le _, fun i _ => zeroFill_get i.isLt, fun _ => ⟨rfl, rfl⟩⟩

/-- While the integral is off and the gate stays shut, steps 3 and 4 leave the accumulator and the estimate as they are (43_pid.md R134, R136). -/
theorem tickAccumulate_tickGate_off (hien : c.ien = false) (hgate : gateOpens cfg e set c = false) :
    tickAccumulate cfg e (tickGate cfg e set out c) = c := by
  have hshut : tickGate cfg e set out c = c := by simp [tickGate, hgate]
  rw [hshut, tickAccumulate_off _ _ _ hien]

/-- The record a tick commits, as its steps make it one from the other (43_pid.md R130). -/
theorem tickNext_eq : tickNext cfg cur set out c = tickCount (tickPush (tickError cur set)
    (tickAccumulate cfg (tickError cur set) (tickGate cfg (tickError cur set) set out (tickReset set c)))) := rfl

/-- A tick keeps the invariant of R28: the push fills one more entry as the tick count grows, and the accumulator leaves +0.0 only
with the gate open. -/
theorem controlInv_tickNext (h : ControlInv c) : ControlInv (tickNext cfg cur set out c) := by
  obtain ⟨-, hzero, hoff⟩ := controlInv_tickReset (set := set) h
  refine ⟨?_, fun i hi => ?_, fun hien => ?_⟩
  · rw [tickNext_ticks]
    exact Nat.min_le_right _ _
  · rw [tickNext_ticks] at hi
    have hnext : i.val + 1 < histN := by unfold histN; omega
    simp only [tickNext_hist, push_older _ _ hnext]
    exact hzero ⟨i.val + 1, hnext⟩ (by dsimp only; omega)
  · simp only [tickNext_ien, Bool.or_eq_false_iff] at hien
    simp only [tickNext_eq, tickAccumulate_tickGate_off hien.1 hien.2, tickCount, tickPush]
    exact hoff hien.1

theorem controlFinite_tickReset (hset : finite set = true) (h : ControlFinite c) : ControlFinite (tickReset set c) := by
  cases hsp : feq set c.prevSp with
  | true => rwa [tickReset_same set c hsp]
  | false =>
    rw [tickReset_new set c hsp]
    exact ⟨hset, finite_zero, finite_zero, fun i => (congrArg finite (zeroFill_get i.isLt)).trans finite_zero⟩

/-- The seed is one of the values `boot` computes, or +0.0 when no entry is used (43_pid.md R142, R143). -/
theorem finite_boot_seed (h : allFinite (boot cfg set out).vals = true) : finite (boot cfg set out).seed = true := by
  unfold boot at h ⊢
  cases ht : cfg.bootTable with
  | nil => exact finite_zero
  | cons p rest =>
    simp only [ht] at h ⊢
    cases hentry : bootEntry cfg.bootBeyond (bootScan (fsub set out) 0 p rest) with
    | none => exact finite_zero
    | some f =>
      simp only [hentry, allFinite_cons, Bool.and_eq_true] at h
      exact h.2.1

/-- Step 3 takes the seed, one of the values it computes (43_pid.md R134). -/
theorem controlFinite_tickGate (hvals : allFinite (gateVals cfg e set out c) = true) (h : ControlFinite c) :
    ControlFinite (tickGate cfg e set out c) := by
  obtain ⟨hprev, hiacc, hiest, hhist⟩ := h
  unfold tickGate
  split
  · next hopen =>
    simp only [gateVals, hopen, if_true, allFinite_append, Bool.and_eq_true] at hvals
    have hseed := finite_boot_seed hvals.2
    exact ⟨hprev, hseed, hseed, hhist⟩
  · exact ⟨hprev, hiacc, hiest, hhist⟩

/-- Step 4 takes the candidate, one of the values it computes (43_pid.md R136). -/
theorem controlFinite_tickAccumulate (hvals : allFinite (accumulateVals cfg e c) = true) (h : ControlFinite c) :
    ControlFinite (tickAccumulate cfg e c) := by
  obtain ⟨hprev, hiacc, hiest, hhist⟩ := h
  unfold tickAccumulate
  split
  · next haccept =>
    obtain ⟨hien, -⟩ := Bool.and_eq_true_iff.mp haccept
    simp only [accumulateVals, hien, if_true, allFinite_cons, Bool.and_eq_true] at hvals
    exact ⟨hprev, hvals.2.1, hiest, hhist⟩
  · exact ⟨hprev, hiacc, hiest, hhist⟩

theorem controlFinite_tickPush (he : finite e = true) (h : ControlFinite c) : ControlFinite (tickPush e c) := by
  obtain ⟨hprev, hiacc, hiest, hhist⟩ := h
  unfold tickPush
  exact ⟨hprev, hiacc, hiest, push_forall (P := fun x => finite x = true) he hhist⟩

theorem controlFinite_tickCount (h : ControlFinite c) : ControlFinite (tickCount c) := by
  obtain ⟨hprev, hiacc, hiest, hhist⟩ := h
  unfold tickCount
  exact ⟨hprev, hiacc, hiest, hhist⟩

/-- A tick whose operands and values are finite commits finite values (43_pid.md R140). -/
theorem controlFinite_tickNext (hset : finite set = true) (hvals : allFinite (tickVals cfg cur set out c) = true)
    (h : ControlFinite c) : ControlFinite (tickNext cfg cur set out c) := by
  simp only [tickVals, allFinite_cons, allFinite_append, Bool.and_eq_true] at hvals
  obtain ⟨herror, ⟨hgate, haccumulate⟩, -⟩ := hvals
  rw [tickNext_eq]
  exact controlFinite_tickCount (controlFinite_tickPush herror
    (controlFinite_tickAccumulate haccumulate (controlFinite_tickGate hgate (controlFinite_tickReset hset h))))

end Tick

/-- A fault's response has nothing but its status, and any other response is free in its flags and results (30_encoding.md R71). -/
theorem legalResponse_response {st : Status} (h : st.isPccFault = false) (q1 q2 q3 q4 : Word) (sat bool : Bool) :
    LegalResponse (response st q1 q2 q3 q4 sat bool) :=
  ⟨st, sat, bool, rfl, fun hfault => absurd hfault (by simp [h])⟩

theorem legalResponse_fault (st : Status) : LegalResponse (faultResponse st) := ⟨st, false, false, rfl, fun _ => rfl⟩

/-- The invariant of a state that has the configuration of `s`, a good record and a legal response. -/
theorem StateInv.of_parts {s t : State} (h : StateInv s) (hcfg : t.cfg = s.cfg) (hctl : ControlInv t.ctl)
    (hfin : ControlFinite t.ctl) {r : Response} (hr : t.resp = some r) (hlegal : LegalResponse r) : StateInv t where
  cfg := hcfg ▸ h.cfg
  ctl := hctl
  fin := hfin
  resp _ hr' := Option.some.inj (hr.symm.trans hr') ▸ hlegal

theorem StateInv.raise {s : State} (h : StateInv s) (st : Status) : StateInv (raise st s) :=
  h.of_parts rfl h.ctl h.fin rfl (legalResponse_fault st)

/-- Every way an operation can end keeps the invariant. -/
theorem StateInv.ending {i : Instr} {s t : State} (h : StateInv s) (hend : Ending i s t) : StateInv t := by
  obtain ⟨hcfg, hctl, hfin, -⟩ := id h
  cases hend with
  | fault st _ hm => exact h.of_parts hm.cfg (hm.ctl ▸ hctl) (hm.ctl ▸ hfin) rfl (legalResponse_fault st)
  | fatal sel raw =>
    obtain ⟨hticks, hzero, hoff⟩ := hctl
    obtain ⟨hprev, hiacc, hiest, hhist⟩ := hfin
    exact h.of_parts rfl ⟨hticks, hzero, hoff⟩ ⟨hprev, hiacc, hiest, hhist⟩ rfl (legalResponse_fault .fatal)
  | tick cur set out _ hoperands hvals =>
    have hset : finite set = true := (allFinite_iff _).mp hoperands set (by simp)
    exact h.of_parts rfl (controlInv_tickNext hctl) (controlFinite_tickNext hset hvals hfin) rfl
      (legalResponse_response (st := .ok) rfl ..)
  | answer st _ _ _ _ _ _ hst hm =>
    exact h.of_parts hm.cfg (hm.ctl ▸ hctl) (hm.ctl ▸ hfin) rfl (legalResponse_response hst ..)

/-- Every request, whatever its header, keeps the invariant. -/
theorem StateInv.runRequest {r : Request} {s t : State} (h : StateInv s) (ht : runRequest r s = .next t) : StateInv t := by
  unfold Machine.runRequest at ht
  cases hd : decode r with
  | ok i =>
    rw [hd] at ht
    obtain rfl | ⟨-, hend⟩ := exec_ending ht
    · exact h.raise .fatal
    · exact h.ending hend
  | error e =>
    rw [hd] at ht
    obtain ⟨-, ⟨-, rfl⟩ | ⟨-, rfl⟩⟩ := serve_next ((rejectHeader_eq_serve e s).symm.trans ht)
    · exact h.raise .fatal
    · exact h.raise .illegal

/-- The invariant says nothing of the moves pending. -/
theorem StateInv.with_inbox {s : State} (h : StateInv s) (moves : List HostMove) : StateInv { s with inbox := moves } :=
  ⟨h.cfg, h.ctl, h.fin, h.resp⟩

/-- A state whose record is reset, with an admitted configuration and no response, meets the invariant. -/
theorem stateInv_of_reset {t : State} (hcfg : admitted t.cfg = true) (hctl : t.ctl = Control.reset) (hresp : t.resp = none) :
    StateInv t where
  cfg := hcfg
  ctl := hctl ▸ controlInv_reset
  fin := hctl ▸ controlFinite_reset
  resp r hr := by simp [hresp] at hr

/-- Settles O51. A step waits, serves a request, whose endings keep the invariant, or resets. -/
theorem stepKeepsTheInvariant : Obligations.StepKeepsTheInvariant := by
  unfold Obligations.StepKeepsTheInvariant
  intro s t hinv hstep
  match hin : s.inbox with
  | [] =>
    obtain rfl : t = s := idle_next ((step_of_no_move hin).symm.trans hstep)
    exact hinv
  | .request r :: rest => exact (hinv.with_inbox rest).runRequest ((step_of_request hin).symm.trans hstep)
  | .reset c :: rest =>
    obtain ⟨hadm, rfl⟩ := takeReset_next ((step_of_reset hin).symm.trans hstep)
    exact stateInv_of_reset hadm rfl rfl
  | .abandon r n c :: rest =>
    obtain ⟨-, -, hadm, rfl⟩ := takeResetDuring_next ((step_of_abandon hin).symm.trans hstep)
    exact stateInv_of_reset hadm rfl rfl

/-- Settles O52: from the invariant of a state whose record is the reset record. -/
theorem resetMeetsTheInvariant : Obligations.ResetMeetsTheInvariant := by
  unfold Obligations.ResetMeetsTheInvariant
  have hreset (c : Config) (h : admitted c = true) : StateInv (State.resetWith c) := stateInv_of_reset h rfl rfl
  exact ⟨hreset Config.ex (by decide +kernel), hreset⟩

/-- A step under an admitted configuration with an admitted move pending answers a next state and takes that move. -/
theorem step_of_proper {s : State} (hadm : admitted s.cfg = true) (hmoves : ∀ m ∈ s.inbox, m.proper = true) :
    ∃ t, step s = .next t ∧ t.inbox = s.inbox.tail := by
  match hin : s.inbox with
  | [] => exact ⟨s, withNoMovePendingTheCoreWaits s hadm hin, hin⟩
  | .request r :: rest =>
    obtain ⟨u, hu⟩ := runRequest_admitted r (s := { s with inbox := rest }) hadm
    exact ⟨u, (step_of_request hin).trans hu, runRequest_inbox hu⟩
  | .reset c :: rest =>
    have hc : admitted c = true := hmoves (.reset c) (by simp [hin])
    exact ⟨_, (step_of_reset hin).trans (takeReset_admitted _ hc), rfl⟩
  | .abandon r n c :: rest =>
    have hc : admitted c = true := hmoves (.abandon r n c) (by simp [hin])
    obtain ⟨u, hu⟩ := runRequest_admitted r (s := { s with inbox := rest }) hadm
    have hstep := step_of_abandon hin
    rw [hu, takeResetDuring_admitted hc] at hstep
    exact ⟨_, hstep, runRequest_inbox hu⟩

/-- A run goes on from the state its first step answers. -/
theorem coreRun_succ {M : Host.Core} {s t : M.State} (h : M.step s = .next t) (k : Nat) : M.run (k + 1) s = M.run k t := by
  simp only [Host.Core.run, h]

/-- Settles O53. By induction on the number of steps: each takes one move and keeps the invariant. -/
theorem everyAdmittedMoveIsAnswered : Obligations.EveryAdmittedMoveIsAnswered := by
  unfold Obligations.EveryAdmittedMoveIsAnswered
  intro k
  induction k with
  | zero => exact fun s hinv _ => ⟨s, rfl, hinv, rfl⟩
  | succ k ih =>
    intro s hinv hmoves
    obtain ⟨m, hstep, hin⟩ := step_of_proper hinv.cfg hmoves
    have hmoves' : ∀ mv ∈ m.inbox, mv.proper = true := fun mv hmv => hmoves mv (List.mem_of_mem_tail (hin ▸ hmv))
    obtain ⟨t, hrun, htinv, htin⟩ := ih m (stepKeepsTheInvariant s m hinv hstep) hmoves'
    refine ⟨t, (coreRun_succ (M := Sys2Proof.core) hstep k).trans hrun, htinv, ?_⟩
    rw [htin, hin, List.drop_tail]

end Sys2Proof.Machine
end

section
/-! PROOF. The order of the binary32 values (00_scope.md R12): the units of a pattern grow with its 31 lower bits, so a finite value's place
in the order is that of its exact value. -/

namespace Sys2Proof.Machine

/-- The 31 bits below the sign. -/
def magBits (x : F32) : Nat := (x.extractLsb' 0 31).toNat

theorem magBits_lt (x : F32) : magBits x < 2 ^ 31 := (x.extractLsb' 0 31).isLt

theorem expField_eq (x : F32) : expField x = magBits x / 2 ^ 23 := by
  simp only [expField, magBits, BitVec.extractLsb'_toNat, Nat.shiftRight_eq_div_pow]
  omega

theorem fracField_eq (x : F32) : fracField x = magBits x % 2 ^ 23 := by
  simp only [fracField, magBits, BitVec.extractLsb'_toNat, Nat.shiftRight_eq_div_pow]
  omega

/-- The units that the 31 lower bits `m` stand for. -/
def unitsOf (m : Nat) : Nat := if m / 2 ^ 23 = 0 then m % 2 ^ 23 else (2 ^ 23 + m % 2 ^ 23) * 2 ^ (m / 2 ^ 23 - 1)

theorem units_eq (x : F32) : units x = unitsOf (magBits x) := by
  rw [units, unitsOf, expField_eq, fracField_eq]

/-- The next pattern stands for more units: by one in the fraction, or from the end of a binade to the start of the next. -/
theorem unitsOf_lt_succ (m : Nat) : unitsOf m < unitsOf (m + 1) := by
  unfold unitsOf
  obtain hfrac | hfrac : m % 2 ^ 23 + 1 < 2 ^ 23 ∨ m % 2 ^ 23 = 2 ^ 23 - 1 := by omega
  · have hexp : (m + 1) / 2 ^ 23 = m / 2 ^ 23 := by omega
    have hnext : (m + 1) % 2 ^ 23 = m % 2 ^ 23 + 1 := by omega
    rw [hexp, hnext]
    split
    · omega
    · exact Nat.mul_lt_mul_of_pos_right (by omega) (by positivity)
  · have hexp : (m + 1) / 2 ^ 23 = m / 2 ^ 23 + 1 := by omega
    have hnext : (m + 1) % 2 ^ 23 = 0 := by omega
    rw [hexp, hnext, hfrac, if_neg (Nat.succ_ne_zero _), Nat.add_sub_cancel]
    split
    · next hzero => rw [hzero]; decide
    · next hpos =>
      obtain ⟨k, hk⟩ := Nat.exists_eq_succ_of_ne_zero hpos
      rw [hk, Nat.succ_sub_one, pow_succ]
      have := Nat.two_pow_pos k
      omega

theorem unitsOf_strictMono : StrictMono unitsOf := strictMono_nat_of_lt_succ unitsOf_lt_succ

@[simp] theorem unitsOf_zero : unitsOf 0 = 0 := by decide

theorem orderKey_eq (x : F32) : orderKey x = if signBit x then -(magBits x : Int) else magBits x := rfl

theorem exact_eq_units (x : F32) : exact x = ((if signBit x then -(unitsOf (magBits x) : Int) else unitsOf (magBits x) : Int) : Rat) / 2 ^ 149 := by
  rw [exact, Rat.mkRat_eq_div, units_eq]
  push_cast
  rfl

/-- A strictly increasing map of the magnitudes that keeps 0 is strictly increasing with signs as well. -/
theorem signed_lt_iff {f : Nat → Nat} (hf : StrictMono f) (h0 : f 0 = 0) (s t : Bool) (m n : Nat) :
    ((if s then -(f m : Int) else f m) < (if t then -(f n : Int) else f n)) ↔
      ((if s then -(m : Int) else m) < (if t then -(n : Int) else n)) := by
  have hmn := hf.lt_iff_lt (a := m) (b := n)
  have hnm := hf.lt_iff_lt (a := n) (b := m)
  have hm : 0 < f m ↔ 0 < m := by simpa only [h0] using hf.lt_iff_lt (a := 0) (b := m)
  have hn : 0 < f n ↔ 0 < n := by simpa only [h0] using hf.lt_iff_lt (a := 0) (b := n)
  cases s <;> cases t <;> simp only [if_true, if_false, Bool.false_eq_true] <;> omega

/-- The exact values of patterns are in the order of their keys. -/
theorem exact_lt_iff (x y : F32) : exact x < exact y ↔ orderKey x < orderKey y := by
  rw [exact_eq_units, exact_eq_units, div_lt_div_iff_of_pos_right (by positivity), Int.cast_lt, orderKey_eq, orderKey_eq]
  exact signed_lt_iff unitsOf_strictMono unitsOf_zero _ _ _ _

theorem exact_le_iff (x y : F32) : exact x ≤ exact y ↔ orderKey x ≤ orderKey y := by
  rw [← not_lt, ← not_lt, exact_lt_iff]

theorem exact_eq_iff (x y : F32) : exact x = exact y ↔ orderKey x = orderKey y := by
  rw [le_antisymm_iff, exact_le_iff, exact_le_iff, ← le_antisymm_iff]

section Finite
variable {a b : F32} (ha : finite a = true) (hb : finite b = true)
include ha hb

theorem feq_iff_exact : feq a b = true ↔ exact a = exact b := by
  simp [feq, not_isNaN_of_finite ha, not_isNaN_of_finite hb, exact_eq_iff]

theorem fle_iff_exact : fle a b = true ↔ exact a ≤ exact b := by
  simp [fle, not_isNaN_of_finite ha, not_isNaN_of_finite hb, exact_le_iff]

theorem fge_iff_exact : fge a b = true ↔ exact b ≤ exact a := fle_iff_exact hb ha

theorem fgt_iff_exact : fgt a b = true ↔ exact b < exact a := by
  simp [fgt, not_isNaN_of_finite ha, not_isNaN_of_finite hb, exact_lt_iff]

end Finite

/-- The magnitude of a value that is no NaN does not exceed the infinities'. -/
theorem magBits_le_of_not_isNaN {x : F32} (h : isNaN x = false) : magBits x ≤ infBits := by
  have hlt := magBits_lt x
  simp only [isNaN, expField_eq, fracField_eq, Bool.and_eq_false_iff, beq_eq_false_iff_ne, bne_eq_false_iff_eq] at h
  unfold infBits
  omega

/-- A pattern is its sign and its 31 lower bits. -/
theorem withSign_magBits (x : F32) : withSign (signBit x) (magBits x) = x := by
  refine BitVec.eq_of_getLsbD_eq fun i hi => ?_
  simp only [withSign, magBits, BitVec.getLsbD_append, BitVec.ofNat_toNat, BitVec.setWidth_eq, BitVec.getLsbD_extractLsb',
    Nat.zero_add]
  obtain h | rfl : i < 31 ∨ i = 31 := by omega
  · simp [h]
  · simp [signBit, BitVec.msb_eq_getLsbD_last]

theorem eq_of_sign_of_magBits {x y : F32} (hs : signBit x = signBit y) (hm : magBits x = magBits y) : x = y := by
  rw [← withSign_magBits x, ← withSign_magBits y, hs, hm]

/-- Only the two zeros share a key. -/
theorem eq_of_orderKey {x y : F32} (h : orderKey x = orderKey y) (hy : orderKey y ≠ 0) : x = y := by
  simp only [orderKey_eq] at h hy
  obtain hsign | hsign : signBit x = signBit y ∨ signBit x = !signBit y := by cases signBit x <;> cases signBit y <;> simp
  · rw [hsign] at h
    exact eq_of_sign_of_magBits hsign (by split at h <;> omega)
  · rw [hsign] at h
    cases hs : signBit y <;> simp only [hs, Bool.not_false, Bool.not_true, Bool.false_eq_true, if_true, if_false] at h hy <;> omega

/-- Settles O58. Among finite values the key is in the order of the exact values, and the infinities have the keys at both ends. -/
theorem binary32ComparisonsFollowTheExactValues : Obligations.Binary32ComparisonsFollowTheExactValues := by
  unfold Obligations.Binary32ComparisonsFollowTheExactValues
  refine ⟨fun a b ha hb => ?finite, fun a b => ⟨rfl, fun ha hb => ?order⟩, fun a ha => ?infinities, fun a b h => ?nan⟩
  case finite => exact ⟨feq_iff_exact ha hb, fle_iff_exact ha hb, fge_iff_exact ha hb, fgt_iff_exact ha hb⟩
  case order =>
    simp only [fgt, fle, feq, ha, hb, Bool.not_false, Bool.true_and, ← Bool.decide_and, ← decide_not, decide_eq_decide]
    omega
  case infinities =>
    have hle := magBits_le_of_not_isNaN ha
    have hpos : orderKey 0x7F800000#32 = infBits := by decide
    have hneg : orderKey 0xFF800000#32 = -infBits := by decide
    have hnanPos : isNaN 0x7F800000#32 = false := by decide
    have hnanNeg : isNaN 0xFF800000#32 = false := by decide
    have hbounds : -(infBits : Int) ≤ orderKey a ∧ orderKey a ≤ infBits := by
      rw [orderKey_eq]
      split <;> omega
    have hkey (y : F32) (hy : orderKey y ≠ 0) : orderKey a = orderKey y ↔ a = y := ⟨fun h => eq_of_orderKey h hy, congrArg _⟩
    refine ⟨?_, ?_, ?_, ?_⟩
    · simp [fle, ha, hnanPos, hpos, hbounds.2]
    · simp [fle, ha, hnanNeg, hneg, hbounds.1]
    · simpa [feq, ha, hnanPos] using hkey _ (by decide)
    · simpa [feq, ha, hnanNeg] using hkey _ (by decide)
  case nan =>
    obtain h | h := h <;> simp [feq, fle, fge, fgt, h]

end Sys2Proof.Machine
end

section
/-! PROOF. `rne32` gives a nearest binary32 value (00_scope.md R12): `rneNat` is a nearest whole number with ties to even; every binary32
magnitude is a multiple of the last place kept or lies below the binade rounded into; and the signs agree. -/

namespace Sys2Proof.Machine

/-- Halfway between two whole numbers the even one is taken. -/
theorem rneNat_even_of_tie {n d : Nat} (hd : 0 < d)
    (h : 2 * n = 2 * (d * rneNat n d) + d ∨ 2 * (d * rneNat n d) = 2 * n + d) : rneNat n d % 2 = 0 := by
  have hdiv := Nat.div_add_mod n d
  obtain hlt | heq | hgt := lt_trichotomy (2 * (n % d)) d
  · have hdown : rneNat n d = n / d := by simp [rneNat, hlt]
    rw [hdown] at h ⊢
    omega
  · have htie : rneNat n d = n / d + n / d % 2 := by simp [rneNat, heq]
    rw [htie]
    generalize n / d = k
    omega
  · have hup : rneNat n d = n / d + 1 := by simp [rneNat, hgt, hgt.not_gt]
    have hmod := Nat.mod_lt n hd
    rw [hup, Nat.mul_add] at h
    omega

/-- `rneNat n d` is a whole number nearest to `n / d`, and even when another is as near. -/
theorem rneNat_nearest (n : Nat) {d : Nat} (hd : 0 < d) (m : Nat) :
    |(rneNat n d : Rat) - n / d| ≤ |(m : Rat) - n / d| ∧
      (|(m : Rat) - n / d| = |(rneNat n d : Rat) - n / d| → m = rneNat n d ∨ rneNat n d % 2 = 0) := by
  have hd' : (0 : Rat) < d := Nat.cast_pos.mpr hd
  obtain ⟨hlo, hhi⟩ := rneNat_near n hd
  have hlo' : (2 * n : Rat) ≤ 2 * (d * rneNat n d) + d := by exact_mod_cast hlo
  have hhi' : (2 * (d * rneNat n d) : Rat) ≤ 2 * n + d := by exact_mod_cast hhi
  have hn : (n : Rat) = d * (n / d) := by field_simp
  have hhalf : |(rneNat n d : Rat) - n / d| ≤ 1 / 2 := by
    rw [abs_le]
    constructor <;> nlinarith
  obtain rfl | hne := eq_or_ne m (rneNat n d)
  · exact ⟨le_rfl, fun _ => .inl rfl⟩
  have hapart : (1 : Rat) ≤ |(m : Rat) - rneNat n d| := by
    have hint : 1 ≤ |(m : Int) - rneNat n d| := Int.one_le_abs (sub_ne_zero.mpr (by exact_mod_cast hne))
    exact_mod_cast hint
  have htriangle : |(m : Rat) - rneNat n d| ≤ |(m : Rat) - n / d| + |(rneNat n d : Rat) - n / d| := by
    rw [abs_sub_comm (rneNat n d : Rat)]
    exact abs_sub_le _ _ _
  refine ⟨by linarith, fun heq => .inr (rneNat_even_of_tie hd ?_)⟩
  have htie : |(rneNat n d : Rat) - n / d| = 1 / 2 := by linarith
  obtain h | h := (abs_eq (by norm_num)).mp htie
  · refine .inr ?_
    have hcast : (2 * (d * rneNat n d) : Rat) = 2 * n + d := by
      rw [hn, show (rneNat n d : Rat) = n / d + 1 / 2 by linarith]
      ring
    exact_mod_cast hcast
  · refine .inl ?_
    have hcast : (2 * n : Rat) = 2 * (d * rneNat n d) + d := by
      rw [hn, show (rneNat n d : Rat) = n / d - 1 / 2 by linarith]
      ring
    exact_mod_cast hcast

theorem abs_sub_lt_of_lt_of_le {a b u : Rat} (hab : a < b) (hbu : b ≤ u) : |b - u| < |a - u| := by
  rw [abs_of_nonpos (sub_nonpos.mpr hbu), abs_of_neg (sub_neg.mpr (hab.trans_le hbu))]
  linarith

/-- A binary32 magnitude has at most 24 significant bits. -/
theorem unitsOf_eq_mul_pow (m : Nat) : ∃ k e, unitsOf m = k * 2 ^ e ∧ k < 2 ^ 24 := by
  unfold unitsOf
  split
  · exact ⟨m % 2 ^ 23, 0, by simp, by omega⟩
  · exact ⟨_, _, rfl, by omega⟩

section Units
variable (n : Nat) {d : Nat} (hd : 0 < d)
include hd

omit hd in
/-- The exact units `n * 2 ^ 149 / d` in multiples of the last place kept. -/
theorem units_eq_mul_roundDrop : (n : Rat) * 2 ^ 149 / d
    = ((n * 2 ^ 149 : Nat) : Rat) / ((d * 2 ^ roundDrop n d : Nat) : Rat) * 2 ^ roundDrop n d := by
  have hpow : (2 : Rat) ^ roundDrop n d ≠ 0 := by positivity
  simp only [Nat.cast_mul, Nat.cast_pow, Nat.cast_ofNat]
  rw [div_mul_eq_mul_div, mul_div_mul_right _ _ hpow]

/-- Among the multiples of the last place kept, the rounded units are a nearest one. -/
theorem roundedUnits_nearest_multiple (k : Nat) :
    |(roundedUnits n d : Rat) - n * 2 ^ 149 / d| ≤ |((k * 2 ^ roundDrop n d : Nat) : Rat) - n * 2 ^ 149 / d| ∧
      (|((k * 2 ^ roundDrop n d : Nat) : Rat) - n * 2 ^ 149 / d| = |(roundedUnits n d : Rat) - n * 2 ^ 149 / d| →
        k * 2 ^ roundDrop n d = roundedUnits n d ∨ roundedSignificand n d % 2 = 0) := by
  obtain ⟨hle, htie⟩ := rneNat_nearest (n * 2 ^ 149) (d := d * 2 ^ roundDrop n d) (by positivity) k
  have hpow : (0 : Rat) < 2 ^ roundDrop n d := by positivity
  have hscale (j : Nat) : |((j * 2 ^ roundDrop n d : Nat) : Rat) - n * 2 ^ 149 / d|
      = |(j : Rat) - ((n * 2 ^ 149 : Nat) : Rat) / ((d * 2 ^ roundDrop n d : Nat) : Rat)| * 2 ^ roundDrop n d := by
    rw [units_eq_mul_roundDrop n, ← abs_of_pos hpow, ← abs_mul, abs_of_pos hpow, sub_mul]
    push_cast
    rfl
  rw [roundedUnits, hscale, hscale]
  refine ⟨mul_le_mul_of_nonneg_right hle hpow.le, fun heq => ?_⟩
  exact (htie (mul_right_cancel₀ hpow.ne' heq)).imp_left fun h => by rw [h, roundedSignificand]

/-- The rounded units are nearest among all binary32 magnitudes: one that is no multiple of the last place kept lies below the binade of
the exact units, whose start is nearer. -/
theorem roundedUnits_nearest (m : Nat) :
    |(roundedUnits n d : Rat) - n * 2 ^ 149 / d| ≤ |(unitsOf m : Rat) - n * 2 ^ 149 / d| ∧
      (|(unitsOf m : Rat) - n * 2 ^ 149 / d| = |(roundedUnits n d : Rat) - n * 2 ^ 149 / d| →
        unitsOf m = roundedUnits n d ∨ roundedSignificand n d % 2 = 0) := by
  obtain ⟨k, e, hunits, hk⟩ := unitsOf_eq_mul_pow m
  obtain hdrop | hdrop := le_or_gt (roundDrop n d) e
  · have hmultiple : unitsOf m = k * 2 ^ (e - roundDrop n d) * 2 ^ roundDrop n d := by
      rw [hunits, mul_assoc, ← pow_add, Nat.sub_add_cancel hdrop]
    rw [hmultiple]
    exact roundedUnits_nearest_multiple n hd _
  · have hd' : (0 : Rat) < d := Nat.cast_pos.mpr hd
    have hstart : ((2 ^ 23 * 2 ^ roundDrop n d : Nat) : Rat) ≤ n * 2 ^ 149 / d := by
      rw [le_div_iff₀ hd']
      have := le_units_of_roundDrop n hd (by omega)
      exact_mod_cast (show 2 ^ 23 * 2 ^ roundDrop n d * d ≤ n * 2 ^ 149 by linarith)
    have hbelow : (unitsOf m : Rat) < ((2 ^ 23 * 2 ^ roundDrop n d : Nat) : Rat) := by
      have hpow : 2 ^ (e + 1) ≤ 2 ^ roundDrop n d := Nat.pow_le_pow_right (by decide) hdrop
      have hlt : k * 2 ^ e < 2 ^ 24 * 2 ^ e := Nat.mul_lt_mul_of_pos_right hk (by positivity)
      rw [pow_succ] at hpow
      exact_mod_cast (show unitsOf m < 2 ^ 23 * 2 ^ roundDrop n d by omega)
    have hnear := ((roundedUnits_nearest_multiple n hd (2 ^ 23)).1).trans_lt (abs_sub_lt_of_lt_of_le hbelow hstart)
    exact ⟨hnear.le, fun heq => absurd heq hnear.ne'⟩

end Units

theorem abs_eq_natAbs_div (q : Rat) : |q| = (q.num.natAbs : Rat) / q.den := (Rat.abs_def q).trans (Rat.divInt_eq_div _ _)

theorem magBits_withSign (neg : Bool) {m : Nat} (hm : m < 2 ^ 31) : magBits (withSign neg m) = m := by
  have h := congrArg BitVec.toNat (BitVec.extractLsb'_append_eq_right (a := BitVec.ofBool neg) (b := BitVec.ofNat 31 m))
  rwa [BitVec.toNat_ofNat, Nat.mod_eq_of_lt hm] at h

theorem finite_withSign (neg : Bool) {m : Nat} (hm : m ≤ infBits) : finite (withSign neg m) = true ↔ m < infBits := by
  rw [finite, expField_withSign neg (hm.trans_lt (by decide)), bne_iff_ne]
  unfold infBits at *
  omega

section Rounded
variable {q : Rat}

/-- The places `rne32 q` drops, its significand, and its units. -/
def drop32 (q : Rat) : Nat := roundDrop q.num.natAbs q.den

def significand32 (q : Rat) : Nat := roundedSignificand q.num.natAbs q.den

def units32 (q : Rat) : Nat := roundedUnits q.num.natAbs q.den

theorem finite_rne32_iff_bits : finite (rne32 q) = true ↔ drop32 q * 2 ^ 23 + significand32 q < infBits := by
  rw [rne32, finite_withSign _ (rneMag_le _ _), rneMag_eq, min_lt_iff]
  simp [drop32, significand32]

/-- A rounding that stays finite denotes the rounded units, with the sign of `q`. -/
theorem exact_rne32 (h : finite (rne32 q) = true) :
    exact (rne32 q) = (if q < 0 then -1 else 1) * ((units32 q : Rat) / 2 ^ 149) := by
  have hbits := finite_rne32_iff_bits.mp h
  have hunits : units (rne32 q) = units32 q := by
    have hmag : rneMag q.num.natAbs q.den = roundDrop q.num.natAbs q.den * 2 ^ 23 + roundedSignificand q.num.natAbs q.den :=
      min_eq_left hbits.le
    rw [rne32, hmag]
    exact units_withSign _ (roundedSignificand_le _ q.den_pos) (le_roundedSignificand _ q.den_pos) hbits
  rw [exact_eq, hunits, rne32, signBit_withSign]
  simp only [decide_eq_true_eq]

/-- Bit 0 of a finite rounding is that of its significand. -/
theorem rne32_getLsbD_zero (h : finite (rne32 q) = true) : (rne32 q).getLsbD 0 = decide (significand32 q % 2 = 1) := by
  have hbits := finite_rne32_iff_bits.mp h
  have hmag : rneMag q.num.natAbs q.den = drop32 q * 2 ^ 23 + significand32 q := by
    rw [rneMag_eq]
    exact min_eq_left hbits.le
  rw [rne32, hmag, withSign, BitVec.getLsbD_append, if_pos (by decide), BitVec.getLsbD_ofNat]
  simp only [Nat.testBit_zero]
  simp
  omega

theorem rne32_getLsbD_sign (q : Rat) : (rne32 q).getLsbD 31 = decide (q < 0) := by
  have hsign := signBit_withSign (decide (q < 0)) (rneMag q.num.natAbs q.den)
  rwa [signBit, BitVec.msb_eq_getLsbD_last] at hsign

/-- The distances from `q` of the rounded magnitude and of a binary32 magnitude, in the sizes alone. -/
theorem units32_nearest (q : Rat) (m : Nat) :
    |(units32 q : Rat) / 2 ^ 149 - (|q|)| ≤ |(unitsOf m : Rat) / 2 ^ 149 - (|q|)| ∧
      (|(unitsOf m : Rat) / 2 ^ 149 - (|q|)| = |(units32 q : Rat) / 2 ^ 149 - (|q|)| →
        unitsOf m = units32 q ∨ significand32 q % 2 = 0) := by
  have hpow : (0 : Rat) < 2 ^ 149 := by positivity
  have hscale (u : Nat) : |(u : Rat) / 2 ^ 149 - (|q|)| = |(u : Rat) - q.num.natAbs * 2 ^ 149 / q.den| / 2 ^ 149 := by
    rw [abs_eq_natAbs_div q, ← abs_of_pos hpow, ← abs_div, abs_of_pos hpow]
    congr 1
    field_simp
  obtain ⟨hle, htie⟩ := roundedUnits_nearest q.num.natAbs q.den_pos m
  rw [hscale, hscale]
  exact ⟨div_le_div_of_nonneg_right hle hpow.le, fun h => htie ((div_left_inj' hpow.ne').mp h)⟩

theorem abs_exact (x : F32) : |exact x| = (unitsOf (magBits x) : Rat) / 2 ^ 149 := by
  rw [exact_eq, units_eq, abs_mul, abs_of_nonneg (a := (unitsOf (magBits x) : Rat) / 2 ^ 149) (by positivity)]
  cases signBit x <;> simp

/-- The distance of a finite rounding from `q` is that of its size from the size of `q`: the signs agree. -/
theorem abs_exact_rne32_sub (h : finite (rne32 q) = true) : |exact (rne32 q) - q| = |(units32 q : Rat) / 2 ^ 149 - (|q|)| := by
  rw [exact_rne32 h]
  split
  · next hneg => rw [abs_of_neg hneg, ← abs_neg]; congr 1; ring
  · next hpos => rw [abs_of_nonneg (not_lt.mp hpos), one_mul]

theorem exact_rne32_zero : exact (rne32 0) = 0 := by decide +kernel

/-- A value and its negation are equally near to `q` only when the value is 0 or `q` is; and `rne32 0` is 0. -/
theorem neg_exact_rne32_of_abs_sub_eq (h : |-exact (rne32 q) - q| = |exact (rne32 q) - q|) :
    -exact (rne32 q) = exact (rne32 q) := by
  obtain h | h := abs_eq_abs.mp h
  · linarith
  · obtain rfl : q = 0 := by linarith
    rw [exact_rne32_zero, neg_zero]

/-- A finite rounding is nearest to `q`, and even when another value is as near. -/
theorem rne32_nearest (h : finite (rne32 q) = true) (x : F32) :
    |exact (rne32 q) - q| ≤ |exact x - q| ∧
      (|exact x - q| = |exact (rne32 q) - q| → exact x = exact (rne32 q) ∨ (rne32 q).getLsbD 0 = false) := by
  obtain ⟨hle, htie⟩ := units32_nearest q (magBits x)
  have hsizes : |(unitsOf (magBits x) : Rat) / 2 ^ 149 - (|q|)| ≤ |exact x - q| := by
    rw [← abs_exact]
    exact abs_abs_sub_abs_le _ _
  have hnear := abs_exact_rne32_sub h
  rw [← hnear] at hle
  refine ⟨hle.trans hsizes, fun heq => ?_⟩
  rw [rne32_getLsbD_zero h]
  obtain hsame | heven := htie (le_antisymm (by linarith) (by linarith))
  · refine .inl ?_
    have hmag : |exact x| = |exact (rne32 q)| := by
      rw [abs_exact, hsame, exact_rne32 h, abs_mul, abs_of_nonneg (a := (units32 q : Rat) / 2 ^ 149) (by positivity)]
      split <;> simp
    obtain hx | hx := abs_eq_abs.mp hmag
    · exact hx
    · rw [hx] at heq ⊢
      exact neg_exact_rne32_of_abs_sub_eq heq
  · exact .inr (by simp [heven])

/-- Less than half a place below a whole number rounds to less. -/
theorem rneNat_lt {n d m : Nat} (hd : 0 < d) (h : 2 * n + d < 2 * (d * m)) : rneNat n d < m := by
  obtain ⟨-, hnear⟩ := rneNat_near n hd
  by_contra hle
  have hmul := Nat.mul_le_mul_left d (Nat.le_of_not_lt hle)
  omega

/-- Half a place below an even number rounds up to it. -/
theorem le_rneNat_of_half {n d m : Nat} (hd : 0 < d) (heven : m % 2 = 0) (h : 2 * (d * m) ≤ 2 * n + d) : m ≤ rneNat n d := by
  obtain ⟨hnear, -⟩ := rneNat_near n hd
  by_contra hlt
  have hmul := Nat.mul_le_mul_left d (Nat.lt_of_not_le hlt)
  rw [Nat.mul_succ] at hmul
  have hodd := rneNat_even_of_tie hd (n := n) (.inl (by omega))
  have hlast : d * (rneNat n d + 1) = d * m := by rw [Nat.mul_succ]; omega
  have := Nat.eq_of_mul_eq_mul_left hd hlast
  omega

/-- A rounding stays within the exponent fields up to `e + 2` exactly below the point halfway between `2 ^ 24 - 1` and `2 ^ 24` places of
`2 ^ (e + 1)` units. -/
theorem bits_lt_iff (n : Nat) {d : Nat} (hd : 0 < d) (e : Nat) :
    roundDrop n d * 2 ^ 23 + roundedSignificand n d < (e + 3) * 2 ^ 23 ↔ n * 2 ^ 149 < d * 2 ^ e * 33554431 := by
  have hle := roundedSignificand_le n hd
  have hlow := le_roundedSignificand n hd
  have hlast : d * 2 ^ (e + 1) = 2 * (d * 2 ^ e) := by rw [pow_succ, ← mul_assoc, mul_comm]
  have hpow : roundDrop n d ≤ e → d * 2 ^ roundDrop n d ≤ d * 2 ^ e := fun h =>
    Nat.mul_le_mul_left d (Nat.pow_le_pow_right (by decide) h)
  constructor
  · intro hbits
    by_contra hover
    have hdrop : e + 1 ≤ roundDrop n d := by
      by_contra hsmall
      have hunits := units_lt_of_roundDrop n hd
      have := hpow (by omega)
      omega
    have hexp : roundDrop n d = e + 1 := by omega
    have hcarry : 2 ^ 24 ≤ roundedSignificand n d := by
      refine le_rneNat_of_half (by positivity) (by decide) ?_
      rw [hexp, hlast]
      omega
    omega
  · intro hunder
    have hdrop : roundDrop n d ≤ e + 1 := by
      refine roundDrop_le n hd ?_
      rw [pow_add, ← mul_assoc, hlast]
      linarith
    obtain hsmall | hexp : roundDrop n d ≤ e ∨ roundDrop n d = e + 1 := by omega
    · clear hunder
      omega
    · have hnocarry : roundedSignificand n d < 2 ^ 24 := by
        refine rneNat_lt (by positivity) ?_
        rw [hexp, hlast]
        linarith
      clear hunder
      omega

/-- A rounding stays finite exactly below the halfway point above the largest value, 2^277 - 2^252 units. -/
theorem finite_rne32_iff (q : Rat) : finite (rne32 q) = true ↔ |q| < 2 ^ 128 - 2 ^ 103 := by
  have hd : (0 : Rat) < q.den := Nat.cast_pos.mpr q.den_pos
  have hbound : (2 ^ 128 - 2 ^ 103 : Rat) = ((2 ^ 252 * 33554431 : Nat) : Rat) / 2 ^ 149 := by norm_num
  rw [finite_rne32_iff_bits, drop32, significand32, show infBits = (252 + 3) * 2 ^ 23 from rfl, bits_lt_iff _ q.den_pos, abs_eq_natAbs_div q, hbound,
    div_lt_div_iff₀ hd (by positivity), mul_comm _ (q.den : Rat), mul_assoc]
  exact_mod_cast Iff.rfl

end Rounded

/-- Settles O56: finiteness, overflow and sign from the rounded magnitude, nearness from `rne32_nearest`. -/
theorem roundedRationalIsTheNearestBinary32 : Obligations.RoundedRationalIsTheNearestBinary32 := by
  unfold Obligations.RoundedRationalIsTheNearestBinary32
  intro q
  refine ⟨?finite, ?infinite, ?sign, fun h x _ => rne32_nearest h x⟩
  case finite => exact finite_rne32_iff q
  case infinite =>
    intro hinf
    have hbits : rneMag q.num.natAbs q.den = infBits := by
      have hle := rneMag_le q.num.natAbs q.den
      have hnot : ¬ rneMag q.num.natAbs q.den < infBits := by
        rw [← finite_withSign (decide (q < 0)) hle, ← rne32, hinf]
        exact Bool.false_ne_true
      omega
    rw [rne32, hbits]
    cases decide (q < 0)
    · exact .inl (by decide)
    · exact .inr (by decide)
  case sign => rw [rne32_getLsbD_sign, decide_eq_true_eq]

end Sys2Proof.Machine
end

section
/-! PROOF. The four binary32 operations (00_scope.md R12; log entries 10, 11): the classes of infinities, NaNs and zeros, the sign flip behind a
subtraction, and each operation on finite values, on infinities and on NaNs. -/

namespace Sys2Proof.Machine

theorem signBit_eq_getLsbD (x : F32) : signBit x = x.getLsbD 31 := BitVec.msb_eq_getLsbD_last x

theorem withSign_zero (neg : Bool) : withSign neg 0 = if neg = true then 0x80000000#32 else 0x00000000#32 := by
  cases neg <;> decide

theorem inf_eq (neg : Bool) : inf neg = if neg = true then 0xFF800000#32 else 0x7F800000#32 := by cases neg <;> decide

@[simp] theorem isNaN_nan : isNaN nan = true := by decide

section Infinity
variable (m : Bool)

@[simp] theorem isNaN_inf : isNaN (inf m) = false := by cases m <;> decide
@[simp] theorem isInf_inf : isInf (inf m) = true := by cases m <;> decide
@[simp] theorem isZero_inf : isZero (inf m) = false := by cases m <;> decide
@[simp] theorem signBit_inf : signBit (inf m) = m := signBit_withSign m infBits
@[simp] theorem fneg_inf : fneg (inf m) = inf (!m) := by cases m <;> decide

end Infinity

theorem magBits_fneg (x : F32) : magBits (fneg x) = magBits x := by
  have hbits : (fneg x).extractLsb' 0 31 = x.extractLsb' 0 31 := by
    refine BitVec.eq_of_getLsbD_eq fun i hi => ?_
    have hmask : (0x80000000#32).getLsbD i = false := by
      interval_cases i <;> decide
    simp [fneg, hmask, hi]
  rw [magBits, hbits, magBits]

@[simp] theorem signBit_fneg (x : F32) : signBit (fneg x) = !signBit x := by
  have hmask : (0x80000000#32).getLsbD 31 = true := by decide
  simp only [signBit_eq_getLsbD, fneg, BitVec.getLsbD_xor, hmask, Bool.xor_true]

theorem exact_fneg (x : F32) : exact (fneg x) = -exact x := by
  rw [exact_eq_units, exact_eq_units, magBits_fneg, signBit_fneg]
  cases signBit x <;> simp [neg_div]

@[simp] theorem isNaN_fneg (x : F32) : isNaN (fneg x) = isNaN x := by
  simp [isNaN, expField_eq, fracField_eq, magBits_fneg]

theorem unitsOf_eq_zero_iff (m : Nat) : unitsOf m = 0 ↔ m = 0 := unitsOf_strictMono.injective.eq_iff' unitsOf_zero

theorem exact_eq_zero_iff_magBits (x : F32) : exact x = 0 ↔ magBits x = 0 := by
  rw [← abs_eq_zero, abs_exact, div_eq_zero_iff, Nat.cast_eq_zero, unitsOf_eq_zero_iff]
  norm_num

/-- The zeros are the patterns whose value is 0. -/
theorem isZero_iff (x : F32) : isZero x = true ↔ exact x = 0 := by
  rw [exact_eq_zero_iff_magBits, isZero, expField_eq, fracField_eq]
  simp only [Bool.and_eq_true, beq_iff_eq]
  have := magBits_lt x
  omega

theorem isZero_eq_false_iff (x : F32) : isZero x = false ↔ exact x ≠ 0 := by
  rw [← Bool.not_eq_true, isZero_iff]

section Finite
variable {a b : F32} (ha : finite a = true) (hb : finite b = true)
include ha hb

theorem fsub_of_finite : fsub a b
    = if exact a - exact b = 0 then withSign (signBit a && !signBit b) 0 else rne32 (exact a - exact b) := by
  rw [fsub, fadd_finite ha ((finite_fneg b).trans hb), exact_fneg, signBit_fneg, ← sub_eq_add_neg]

theorem fmul_of_finite : fmul a b
    = if exact a = 0 ∨ exact b = 0 then withSign (signBit a ^^ signBit b) 0 else rne32 (exact a * exact b) := by
  simp only [← isZero_iff]
  simp [fmul, not_isNaN_of_finite ha, not_isNaN_of_finite hb, not_isInf_of_finite ha, not_isInf_of_finite hb]

theorem fdiv_of_ne_zero (h : exact b ≠ 0) : fdiv a b
    = if exact a = 0 then withSign (signBit a ^^ signBit b) 0 else rne32 (exact a / exact b) := by
  simp only [← isZero_iff]
  simp [fdiv, not_isNaN_of_finite ha, not_isNaN_of_finite hb, not_isInf_of_finite ha, not_isInf_of_finite hb,
    (isZero_eq_false_iff b).mpr h]

/-- A nonzero finite value divided by a zero is an infinity (log entry 11). -/
theorem fdiv_zero (h : exact b = 0) (hne : exact a ≠ 0) : fdiv a b = inf (signBit a ^^ signBit b) := by
  simp [fdiv, not_isNaN_of_finite ha, not_isNaN_of_finite hb, not_isInf_of_finite ha, not_isInf_of_finite hb,
    (isZero_iff b).mpr h, (isZero_eq_false_iff a).mpr hne]

theorem isNaN_fdiv_zero_zero (h : exact b = 0) (h0 : exact a = 0) : isNaN (fdiv a b) = true := by
  simp [fdiv, not_isNaN_of_finite ha, not_isNaN_of_finite hb, not_isInf_of_finite ha, not_isInf_of_finite hb,
    (isZero_iff b).mpr h, (isZero_iff a).mpr h0]

end Finite

/-- Every operation on a NaN gives a NaN (log entry 11). -/
theorem isNaN_of_isNaN {a b : F32} (h : isNaN a = true ∨ isNaN b = true) :
    isNaN (fadd a b) = true ∧ isNaN (fsub a b) = true ∧ isNaN (fmul a b) = true ∧ isNaN (fdiv a b) = true := by
  have hor : (isNaN a || isNaN b) = true := by simpa using h
  simp [fsub, fadd, fmul, fdiv, hor]

section OneInfinity
variable {a : F32} (ha : finite a = true) (m : Bool)
include ha

theorem fadd_inf_finite : fadd (inf m) a = inf m := by
  simp [fadd, not_isNaN_of_finite ha, not_isInf_of_finite ha]

theorem fadd_finite_inf : fadd a (inf m) = inf m := by
  simp [fadd, not_isNaN_of_finite ha, not_isInf_of_finite ha]

theorem fsub_inf_finite : fsub (inf m) a = inf m := fadd_inf_finite ((finite_fneg a).trans ha) m

theorem fsub_finite_inf : fsub a (inf m) = inf (!m) := by
  rw [fsub, fneg_inf, fadd_finite_inf ha]

theorem fmul_inf_finite (h : exact a ≠ 0) : fmul (inf m) a = inf (m ^^ signBit a) ∧ fmul a (inf m) = inf (m ^^ signBit a) := by
  have hzero := (isZero_eq_false_iff a).mpr h
  constructor
  · simp [fmul, not_isNaN_of_finite ha, hzero]
  · simp [fmul, not_isNaN_of_finite ha, hzero, Bool.xor_comm]

theorem isNaN_fmul_inf_zero (h : exact a = 0) : isNaN (fmul (inf m) a) = true ∧ isNaN (fmul a (inf m)) = true := by
  have hzero := (isZero_iff a).mpr h
  constructor <;> simp [fmul, not_isNaN_of_finite ha, hzero]

theorem fdiv_inf_finite : fdiv (inf m) a = inf (m ^^ signBit a) := by
  simp [fdiv, not_isNaN_of_finite ha, not_isInf_of_finite ha]

theorem fdiv_finite_inf : fdiv a (inf m) = withSign (m ^^ signBit a) 0 := by
  simp [fdiv, not_isNaN_of_finite ha, not_isInf_of_finite ha, Bool.xor_comm]

end OneInfinity

section TwoInfinities
variable (m n : Bool)

theorem fadd_inf_inf : if m = n then fadd (inf m) (inf n) = inf m else isNaN (fadd (inf m) (inf n)) = true := by
  cases m <;> cases n <;> decide

theorem fsub_inf_inf : if m = n then isNaN (fsub (inf m) (inf n)) = true else fsub (inf m) (inf n) = inf m := by
  cases m <;> cases n <;> decide

theorem fmul_inf_inf : fmul (inf m) (inf n) = inf (m ^^ n) := by
  simp [fmul]

theorem isNaN_fdiv_inf_inf : isNaN (fdiv (inf m) (inf n)) = true := by
  simp [fdiv]

end TwoInfinities

/-- Settles O57: one rule per operation and kind of operand, with the statement's words for sign, zero and infinity. -/
theorem binary32OperationsRoundTheExactResultOnce : Obligations.Binary32OperationsRoundTheExactResultOnce := by
  unfold Obligations.Binary32OperationsRoundTheExactResultOnce
  intro sign zero infinity
  have hsign : signBit = sign := funext signBit_eq_getLsbD
  have hzero : (fun neg => withSign neg 0) = zero := funext withSign_zero
  have hinf : inf = infinity := funext inf_eq
  rw [← hsign, ← hzero, ← hinf]
  refine ⟨fun a b ha hb => ?finite, fun a b => isNaN_of_isNaN, fun a m n ha => ?infinities⟩
  case finite =>
    exact ⟨fadd_finite ha hb, fsub_of_finite ha hb, fmul_of_finite ha hb, fdiv_of_ne_zero ha hb, fdiv_zero ha hb,
      isNaN_fdiv_zero_zero ha hb⟩
  case infinities =>
    exact ⟨fadd_inf_finite ha m, fadd_finite_inf ha m, fsub_inf_finite ha m, fsub_finite_inf ha m, fmul_inf_finite ha m,
      isNaN_fmul_inf_zero ha m, fdiv_inf_finite ha m, fdiv_finite_inf ha m, fadd_inf_inf m n, fsub_inf_inf m n,
      fmul_inf_inf m n, isNaN_fdiv_inf_inf m n⟩

end Sys2Proof.Machine
end

section
/-! PROOF. Admission (00_scope.md R9): each group of constraints in the exact values of its parameters. -/

namespace Sys2Proof.Machine

@[simp] theorem exact_zero : exact 0#32 = 0 := by decide +kernel

theorem exact_five : exact five = 5 := by decide +kernel

theorem finite_and_fgt_zero_iff (x : F32) : (finite x = true ∧ fgt x 0#32 = true) ↔ (finite x = true ∧ 0 < exact x) :=
  and_congr_right fun hx => by rw [fgt_iff_exact hx finite_zero, exact_zero]

theorem finite_and_fge_zero_iff (x : F32) : (finite x = true ∧ fge x 0#32 = true) ↔ (finite x = true ∧ 0 ≤ exact x) :=
  and_congr_right fun hx => by rw [fge_iff_exact hx finite_zero, exact_zero]

theorem gainsAdmitted_iff (c : Config) : gainsAdmitted c = true ↔
    finite c.kp = true ∧ finite c.kd = true ∧ (finite c.ki = true ∧ exact c.ki ≠ 0) ∧ (finite c.dt = true ∧ 0 < exact c.dt) ∧
      (finite c.integThresh = true ∧ 0 ≤ exact c.integThresh) ∧ (finite c.integMaxDev = true ∧ 0 ≤ exact c.integMaxDev) := by
  rw [← finite_and_fgt_zero_iff, ← finite_and_fge_zero_iff, ← finite_and_fge_zero_iff, ← isZero_eq_false_iff]
  simp only [gainsAdmitted, Bool.and_eq_true, Bool.not_eq_true']
  tauto

/-- Consecutive entries of a table are ordered as R9 asks. -/
theorem tableOrdered_iff_isChain (t : List BootEntry) : tableOrdered t = true ↔
    t.IsChain fun a b => fgt b.diff a.diff = true ∧ fle a.contrib b.contrib = true := by
  induction t with
  | nil => simp [tableOrdered]
  | cons a rest ih =>
    cases rest with
    | nil => simp [tableOrdered]
    | cons b rest => simp [tableOrdered, List.isChain_cons_cons, ih]

/-- The order of R9 on two entries, in their exact values. -/
def EntryBelow (a b : BootEntry) : Prop := exact a.diff < exact b.diff ∧ exact a.contrib ≤ exact b.contrib

/-- A table of finite entries is ordered when every earlier entry stands below every later one: the order of the values is transitive. -/
theorem tableOrdered_iff_pairwise {t : List BootEntry} (hfin : ∀ e ∈ t, finite e.diff = true ∧ finite e.contrib = true) :
    tableOrdered t = true ↔ t.Pairwise EntryBelow := by
  have htrans : IsTrans BootEntry EntryBelow := ⟨fun _ _ _ hab hbc => ⟨hab.1.trans hbc.1, hab.2.trans hbc.2⟩⟩
  rw [tableOrdered_iff_isChain, ← List.isChain_iff_pairwise]
  refine List.IsChain.iff_of_mem_imp fun a b ha hb => ?_
  obtain ⟨hadiff, hacontrib⟩ := hfin a ha
  obtain ⟨hbdiff, hbcontrib⟩ := hfin b hb
  rw [fgt_iff_exact hbdiff hadiff, fle_iff_exact hacontrib hbcontrib, EntryBelow]

theorem tableAdmitted_iff (t : List BootEntry) : tableAdmitted t = true ↔
    (∀ e ∈ t, finite e.diff = true ∧ finite e.contrib = true) ∧ t.Pairwise EntryBelow ∧ sourceEntry ∈ t := by
  simp only [tableAdmitted, Bool.and_eq_true, decide_eq_true_eq, List.all_eq_true, List.contains_iff_mem]
  constructor
  · rintro ⟨⟨⟨-, hfin⟩, hordered⟩, hsource⟩
    exact ⟨hfin, (tableOrdered_iff_pairwise hfin).mp hordered, hsource⟩
  · rintro ⟨hfin, hordered, hsource⟩
    exact ⟨⟨⟨List.length_pos_of_mem hsource, hfin⟩, (tableOrdered_iff_pairwise hfin).mpr hordered⟩, hsource⟩

theorem codesAdmitted_iff (c : Config) : codesAdmitted c = true ↔
    -2147483648 ≤ c.codeMin ∧ c.codeMin < c.codeMax ∧ c.codeMax ≤ 2147483647 ∧ c.codeMax - c.codeMin ≤ 21642608 := by
  have hmax : maxCodeSpan = 21642608 := rfl
  simp only [codesAdmitted, Bool.and_eq_true, decide_eq_true_eq]
  omega

theorem loadTolAdmitted_iff (x : F32) : (finite x = true ∧ fge x 0#32 = true ∧ fgt five x = true) ↔
    (finite x = true ∧ 0 ≤ exact x ∧ exact x < 5) :=
  and_congr_right fun hx => by
    rw [fge_iff_exact hx finite_zero, fgt_iff_exact (by decide) hx, exact_zero, exact_five]

theorem frameAdmitted_iff (c : Config) : frameAdmitted c = true ↔
    [c.cmdStatus, c.cmdWrite, c.cmdRead].Nodup ∧
      [c.regCommand, c.regStatus, c.regIlimDac, c.regVdac, c.regAmux].Nodup ∧
      (1 ≤ c.wCommand ∧ 1 ≤ c.wStatus ∧ 1 ≤ c.wIlimDac ∧ 1 ≤ c.wVdac ∧ 1 ≤ c.wAmux) ∧ c.wVdac ≤ 4 ∧
      -2 ^ (8 * c.wVdac - 1) ≤ c.codeMin ∧ c.codeMax < 2 ^ (8 * c.wVdac - 1) := by
  simp only [frameAdmitted, Bool.and_eq_true, decide_eq_true_eq, List.all_cons, List.all_nil, and_true, and_assoc]

/-- Settles O15: one equivalence per group of parameters. -/
theorem admittedConfigurationMeetsEveryConstraint : Obligations.AdmittedConfigurationMeetsEveryConstraint := by
  unfold Obligations.AdmittedConfigurationMeetsEveryConstraint
  intro c
  rw [← gainsAdmitted_iff, ← codesAdmitted_iff, ← loadTolAdmitted_iff, ← frameAdmitted_iff]
  have htable := tableAdmitted_iff c.bootTable
  unfold EntryBelow sourceEntry at htable
  rw [← htable]
  simp only [admitted, selectorsAdmitted, Bool.and_eq_true, decide_eq_true_eq, and_assoc]

end Sys2Proof.Machine
end

section
/-! PROOF. What the live operations of the Checksum Unit answer (40_checksum.md R90 to R92; 30_encoding.md R76, R77), and the checksum as a
bit-serial register. -/

namespace Sys2Proof.Machine

/-- A live operation has its effect. -/
theorem exec_live (i : Instr) {s : State} (hs : Live s) : exec i s = .next (effectOf i s) := by
  obtain ⟨hadm, hfatal⟩ := hs
  rw [exec_eq_serve, serve_live _ hadm hfatal]

/-- A live operation whose operand check passes has the effect behind the check. -/
theorem exec_of_checkOperands_true {i : Instr} {s : State} {good : Bool} {f : State → State} (hs : Live s)
    (hi : effectOf i = checkOperands good f) (hgood : good = true) : exec i s = .next (f s) := by
  rw [exec_live i hs, hi, hgood, checkOperands_true]

/-- A response with `SAT` or `BOOL` set or clear, in the words of R68. -/
theorem statusWord_ok_sat (p : Prop) [Decidable p] :
    statusWord .ok (decide p) false = if p then 0x00000100#32 else 0x00000000#32 := by
  by_cases h : p
  · simp only [h, decide_true, if_true]
    rfl
  · simp only [h, decide_false, if_false]
    rfl

theorem statusWord_ok_bool (p : Prop) [Decidable p] :
    statusWord .ok false (decide p) = if p then 0x00000200#32 else 0x00000000#32 := by
  by_cases h : p
  · simp only [h, decide_true, if_true]
    rfl
  · simp only [h, decide_false, if_false]
    rfl

/-- Settles O21: the operand check passes and the effect is the response. -/
theorem crc8AnswersTheChecksum : Obligations.Crc8AnswersTheChecksum := by
  unfold Obligations.Crc8AnswersTheChecksum
  intro s d hs hd
  exact exec_of_checkOperands_true (i := .crc8 d) hs rfl (decide_eq_true hd)

/-- What a live `CRC8_CHECK` of a stream with its last byte named answers (R92). -/
theorem exec_crc8Check_append {s : State} {d : List Byte} (hs : Live s) (hd : 1 ≤ d.length) (last : Byte) :
    exec (.crc8Check (d ++ [last])) s
      = .next (respond (response .ok (q1 := zext32 (crc8 s.cfg d)) (bool := decide (crc8 s.cfg d = last))) s) := by
  have hlength : crc8CheckMinLen ≤ (d ++ [last]).length := by
    rw [List.length_append]
    exact Nat.succ_le_succ hd
  have hexec := exec_of_checkOperands_true (i := .crc8Check (d ++ [last])) hs rfl (decide_eq_true hlength)
  have hbool : (some last == some (crc8 s.cfg d)) = decide (crc8 s.cfg d = last) := by
    rw [Bool.eq_iff_iff, beq_iff_eq, Option.some.injEq, decide_eq_true_eq, eq_comm]
  simpa only [List.dropLast_concat, List.getLast?_concat, hbool] using hexec

/-- Settles O24: the last byte of the stream split off. -/
theorem crc8CheckComparesTheLastByte : Obligations.Crc8CheckComparesTheLastByte := by
  unfold Obligations.Crc8CheckComparesTheLastByte
  intro s d last hs hd
  rw [exec_crc8Check_append hs hd, response, statusWord_ok_bool]
  rfl

/-- The checksum of R91 needs a polynomial with bit 0 set, which an admitted configuration has (00_scope.md R9). -/
theorem admitted_crcPoly {cfg : Config} (h : admitted cfg = true) : cfg.crcPoly.getLsbD 0 = true := by
  simp only [admitted, Bool.and_eq_true] at h
  exact h.1.2

/-- Settles O25. A frame ends with its checksum, and a flipped bit changes the checksum of the bytes before it. -/
theorem commandFramesPassTheCheckAndCorruptedOnesFail : Obligations.CommandFramesPassTheCheckAndCorruptedOnesFail := by
  unfold Obligations.CommandFramesPassTheCheckAndCorruptedOnesFail
  intro s cmd addr payload hs covered
  have hframe : frame s.cfg cmd addr payload = covered ++ [crc8 s.cfg covered] := rfl
  refine ⟨hframe, ?valid, fun k j hk hj => ?corrupted⟩
  case valid =>
    rw [hframe]
    exact ⟨_, _, exec_crc8Check_append hs (by simp [covered]) _, rfl, response_st .., by simp⟩
  case corrupted =>
    have hne := singleBitFlipChangesTheChecksum s.cfg (admitted_crcPoly hs.1) covered k j hk hj
    exact ⟨_, _, exec_crc8Check_append hs (by simp [covered]) _, rfl, response_st .., by simp [hne]⟩

/-- One step of the bit-serial register: the bit `b` enters (R91). -/
def crcEnter (poly c : Byte) (b : Bool) : Byte := if c.getLsbD 7 ^^ b then (c <<< 1) ^^^ poly else c <<< 1

/-- A shift of the checksum with the rest of a byte folded in is a step of the register on the byte's top bit. -/
theorem crcShift_xor (poly c x : Byte) : crcShift poly (c ^^^ x) = crcEnter poly c (x.getLsbD 7) ^^^ (x <<< 1) := by
  have hshift : (c ^^^ x) <<< 1 = (c <<< 1) ^^^ (x <<< 1) := by
    refine BitVec.eq_of_getLsbD_eq fun i hi => ?_
    simp only [BitVec.getLsbD_shiftLeft, BitVec.getLsbD_xor]
    cases decide (i < 8) <;> cases decide (i < 1) <;> simp
  unfold crcShift crcEnter
  rw [BitVec.getLsbD_xor, hshift]
  split
  · rw [BitVec.xor_assoc, BitVec.xor_comm (x <<< 1), ← BitVec.xor_assoc]
  · rfl

/-- `n` shifts of the checksum with a byte folded in are `n` steps of the register on the byte's top bits, first the highest. -/
theorem crcShifts_xor (poly : Byte) (n : Nat) (c x : Byte) : crcShifts poly n (c ^^^ x)
    = ((List.range n).map fun k => (x <<< k).getLsbD 7).foldl (crcEnter poly) c ^^^ (x <<< n) := by
  induction n generalizing c x with
  | zero => simp
  | succ n ih =>
    have hshift (k : Nat) : (x <<< 1) <<< k = x <<< (k + 1) := by rw [← BitVec.shiftLeft_add, Nat.add_comm]
    simp only [crcShifts_succ, crcShift_xor, ih, hshift, List.range_succ_eq_map, List.map_cons, List.map_map, List.foldl_cons,
      BitVec.shiftLeft_zero]
    rfl

/-- The bits of a byte in the order in which they enter the register (R91). -/
def crcBits (cfg : Config) (b : Byte) : List Bool :=
  (List.range 8).map fun k => if cfg.crcRefIn then b.getLsbD k else b.getLsbD (7 - k)

/-- Folding in a byte is eight steps of the register on the byte's bits. -/
theorem crcByte_eq_foldl (cfg : Config) (c b : Byte) : crcByte cfg c b = (crcBits cfg b).foldl (crcEnter cfg.crcPoly) c := by
  have hbits : ((List.range 8).map fun k => ((if cfg.crcRefIn then reflect8 b else b) <<< k).getLsbD 7) = crcBits cfg b := by
    refine List.map_congr_left fun k hk => ?_
    have hk8 : k < 8 := List.mem_range.mp hk
    have hplace (x : Byte) : (x <<< k).getLsbD 7 = x.getLsbD (7 - k) := by
      rw [BitVec.getLsbD_shiftLeft, decide_eq_true (by decide), decide_eq_false (by omega), Bool.not_false, Bool.true_and,
        Bool.true_and]
    rw [hplace]
    cases cfg.crcRefIn
    · rfl
    · change b.reverse.getLsbD (7 - k) = b.getLsbD k
      rw [BitVec.getLsbD_reverse, BitVec.getMsbD, decide_eq_true (by omega), Bool.true_and]
      congr 1
      omega
  have hgone (x : Byte) : x <<< 8 = 0#8 := BitVec.shiftLeft_eq_zero (Nat.le_refl 8)
  rw [crcByte, crcShifts_xor, hbits, hgone, BitVec.xor_zero]

/-- Settles O22: `crcByte` is eight serial steps, and the fold over bytes is the fold over their bits. -/
theorem checksumIsTheBitSerialRegister : Obligations.ChecksumIsTheBitSerialRegister := by
  unfold Obligations.ChecksumIsTheBitSerialRegister
  intro cfg d enter bits c
  have hbyte : crcByte cfg = fun c b => (bits b).foldl enter c := funext fun c => funext fun b => crcByte_eq_foldl cfg c b
  have hc : d.foldl (crcByte cfg) cfg.crcInit = c := by
    rw [hbyte, ← List.foldl_flatMap]
  rw [crc8, hc]
  rfl

end Sys2Proof.Machine
end

section
/-! PROOF. The codec (41_dac_codec.md R100 to R104; 30_encoding.md R78): the rounded affine map is monotone and meets the code bounds at its ends, the
inverse map stays finite, and the payload of a code gives the code back. -/

namespace Sys2Proof.Machine

theorem rha_eq (q : Rat) : rha q = if q < 0 then -⌊-q + 1 / 2⌋ else ⌊q + 1 / 2⌋ := rfl

theorem rha_mono {q r : Rat} (h : q ≤ r) : rha q ≤ rha r := by
  rw [rha_eq, rha_eq]
  split
  · next hq =>
    split
    · exact neg_le_neg (Int.floor_le_floor (by linarith))
    · next hr =>
      have hlow : 0 ≤ ⌊-q + 1 / 2⌋ := Int.floor_nonneg.mpr (by linarith)
      have hhigh : 0 ≤ ⌊r + 1 / 2⌋ := Int.floor_nonneg.mpr (by linarith)
      exact (neg_nonpos.mpr hlow).trans hhigh
  · next hq =>
    rw [if_neg (by linarith)]
    exact Int.floor_le_floor (by linarith)

@[simp] theorem rha_intCast (c : Int) : rha c = c := rha_eq_of_abs_sub_lt (by simp)

theorem clamp_mono {x y lo hi : Rat} (h : x ≤ y) : clamp x lo hi ≤ clamp y lo hi := min_le_min_right hi (max_le_max_right lo h)

section Codes
variable {cfg : Config}

theorem codeOfVolts_mono (hlt : cfg.codeMin < cfg.codeMax) {a b : Rat} (h : a ≤ b) : codeOfVolts cfg a ≤ codeOfVolts cfg b := by
  have hslope : 0 < ((cfg.codeMax : Rat) - cfg.codeMin) / (vMax - vMin) :=
    div_pos (codeSpan_pos hlt) (by norm_num [vMin, vMax])
  have hdiff := codeOfVolts_sub cfg b a
  have := mul_nonneg (sub_nonneg.mpr h) hslope.le
  linarith

@[simp] theorem codeOfVolts_vMin (cfg : Config) : codeOfVolts cfg vMin = cfg.codeMin := by simp [codeOfVolts]

@[simp] theorem codeOfVolts_vMax (cfg : Config) : codeOfVolts cfg vMax = cfg.codeMax := by
  have hvolts : vMax - vMin ≠ 0 := by norm_num [vMin, vMax]
  rw [codeOfVolts, mul_div_cancel_left₀ _ hvolts]
  ring

theorem v2dacCode_mono (hlt : cfg.codeMin < cfg.codeMax) {v w : F32} (h : exact v ≤ exact w) :
    v2dacCode cfg v ≤ v2dacCode cfg w :=
  rha_mono (codeOfVolts_mono hlt (clamp_mono h))

/-- Settles O28. Clamping, the affine map and the rounding each keep the order. -/
theorem v2dacIsMonotone : Obligations.V2dacIsMonotone := by
  unfold Obligations.V2dacIsMonotone
  intro cfg v w hadm h
  exact v2dacCode_mono (admitted_codes hadm).1 h

theorem clamp_mem (x : Rat) : vMin ≤ clamp x vMin vMax ∧ clamp x vMin vMax ≤ vMax := by
  have hvolts : vMin ≤ vMax := by norm_num [vMin, vMax]
  exact ⟨le_min (le_max_right x vMin) hvolts, min_le_right _ _⟩

theorem v2dacCode_mem (hlt : cfg.codeMin < cfg.codeMax) (v : F32) :
    cfg.codeMin ≤ v2dacCode cfg v ∧ v2dacCode cfg v ≤ cfg.codeMax := by
  obtain ⟨hlo, hhi⟩ := clamp_mem (exact v)
  have hmin := rha_mono (codeOfVolts_mono hlt hlo)
  have hmax := rha_mono (codeOfVolts_mono hlt hhi)
  rw [codeOfVolts_vMin, rha_intCast] at hmin
  rw [codeOfVolts_vMax, rha_intCast] at hmax
  exact ⟨hmin, hmax⟩

theorem v2dacCode_of_le_vMin {v : F32} (h : exact v ≤ vMin) : v2dacCode cfg v = cfg.codeMin := by
  have hvolts : vMin ≤ vMax := by norm_num [vMin, vMax]
  rw [v2dacCode, clamp, max_eq_right h, min_eq_left hvolts, codeOfVolts_vMin, rha_intCast]

theorem v2dacCode_of_vMax_le {v : F32} (h : vMax ≤ exact v) : v2dacCode cfg v = cfg.codeMax := by
  rw [v2dacCode, clamp, min_eq_right (h.trans (le_max_left _ _)), codeOfVolts_vMax, rha_intCast]

/-- An admitted code is an int32 value, so its word gives it back (30_encoding.md R62). -/
theorem i32_ofI32 (hadm : admitted cfg = true) {c : Int} (hlo : cfg.codeMin ≤ c) (hhi : c ≤ cfg.codeMax) : i32 (ofI32 c) = c := by
  have hcodes : codesAdmitted cfg = true := by
    simp only [admitted, Bool.and_eq_true] at hadm
    tauto
  obtain ⟨hmin, -, hmax, -⟩ := (codesAdmitted_iff cfg).mp hcodes
  exact BitVec.toInt_ofInt_eq_self (by decide) (by omega) (by omega)

/-- Settles O27: the clamped voltage bounds the code, and the admitted bounds fit an i32. -/
theorem v2dacCodeStaysWithinTheBounds : Obligations.V2dacCodeStaysWithinTheBounds := by
  unfold Obligations.V2dacCodeStaysWithinTheBounds
  intro cfg v hadm _
  obtain ⟨hlo, hhi⟩ := v2dacCode_mem (admitted_codes hadm).1 v
  exact ⟨hlo, hhi, v2dacCode_of_vMax_le, v2dacCode_of_le_vMin, i32_ofI32 hadm hlo hhi⟩

end Codes

/-- `SAT` in the bounds of R101. -/
theorem v2dacSat_eq (v : F32) : v2dacSat v = decide (exact v < -21 / 2 ∨ 507 / 50 < exact v) := by
  rw [Bool.decide_or]
  rfl

/-- The code of R101, with the bounds written out. -/
theorem v2dacCode_eq (cfg : Config) (v : F32) : v2dacCode cfg v = rha ((cfg.codeMin : Rat)
    + (min (max (exact v) (-21 / 2)) (507 / 50) + 21 / 2) * ((cfg.codeMax : Rat) - cfg.codeMin) / (516 / 25)) := by
  have hlow (x : Rat) : x - -21 / 2 = x + 21 / 2 := by ring
  have hspan : (507 / 50 - -21 / 2 : Rat) = 516 / 25 := by norm_num
  rw [v2dacCode, codeOfVolts, clamp, vMin, vMax, hlow, hspan]

/-- Settles O26: the operand check passes, and code and `SAT` are the written-out ones. -/
theorem v2dacAnswersTheRoundedAffineCode : Obligations.V2dacAnswersTheRoundedAffineCode := by
  unfold Obligations.V2dacAnswersTheRoundedAffineCode
  intro s v hs hv q qc x code
  have hcode : v2dacCode s.cfg v = code := v2dacCode_eq s.cfg v
  rw [exec_of_checkOperands_true (i := .v2dac v) hs rfl (by simpa using hv), hcode, v2dacSat_eq, response, statusWord_ok_sat]
  rfl

/-- The voltage of R102, with the bounds written out. -/
theorem voltsOfCode_eq (cfg : Config) (c : Int) : voltsOfCode cfg c
    = -21 / 2 + ((c : Rat) - cfg.codeMin) * (516 / 25) / ((cfg.codeMax : Rat) - cfg.codeMin) := by
  have hspan : (507 / 50 - -21 / 2 : Rat) = 516 / 25 := by norm_num
  rw [voltsOfCode, vMin, vMax, hspan]

/-- Every int32 code has a voltage of less than 2^40 V: the code span is at least 1. -/
theorem abs_voltsOfCode_lt {cfg : Config} (hadm : admitted cfg = true) (w : Word) : |voltsOfCode cfg w.toInt| < 2 ^ 40 := by
  have hcodes : codesAdmitted cfg = true := by
    simp only [admitted, Bool.and_eq_true] at hadm
    tauto
  obtain ⟨hmin, hlt, hmax, -⟩ := (codesAdmitted_iff cfg).mp hcodes
  have hlo := BitVec.le_toInt w
  have hhi := BitVec.toInt_lt (x := w)
  have hnum : |w.toInt - cfg.codeMin| ≤ 2 ^ 32 := by
    rw [abs_le]
    constructor <;> omega
  have hnum' : |(w.toInt : Rat) - cfg.codeMin| ≤ 2 ^ 32 := by exact_mod_cast hnum
  have hspan : (1 : Rat) ≤ (cfg.codeMax : Rat) - cfg.codeMin := by exact_mod_cast (show 1 ≤ cfg.codeMax - cfg.codeMin by omega)
  have hquot : |((w.toInt : Rat) - cfg.codeMin) * (516 / 25) / ((cfg.codeMax : Rat) - cfg.codeMin)| ≤ 2 ^ 32 * (516 / 25) := by
    rw [abs_div, abs_mul, abs_of_pos (a := (516 / 25 : Rat)) (by norm_num),
      abs_of_pos (a := (cfg.codeMax : Rat) - cfg.codeMin) (by linarith)]
    exact div_le_of_le_mul₀ (by linarith) (by norm_num) (by nlinarith)
  rw [voltsOfCode_eq]
  calc |-21 / 2 + ((w.toInt : Rat) - cfg.codeMin) * (516 / 25) / ((cfg.codeMax : Rat) - cfg.codeMin)|
      ≤ |(-21 / 2 : Rat)| + |((w.toInt : Rat) - cfg.codeMin) * (516 / 25) / ((cfg.codeMax : Rat) - cfg.codeMin)| := abs_add_le _ _
    _ ≤ 21 / 2 + 2 ^ 32 * (516 / 25) := by
      rw [show |(-21 / 2 : Rat)| = 21 / 2 by norm_num [abs_of_neg]]
      linarith
    _ < 2 ^ 40 := by norm_num

/-- Settles O29: an admitted configuration keeps the voltage of any i32 code far below the overflow threshold. -/
theorem dac2vAnswersTheInverseMapForEveryCode : Obligations.Dac2vAnswersTheInverseMapForEveryCode := by
  unfold Obligations.Dac2vAnswersTheInverseMapForEveryCode
  intro s w hs x
  have hx : voltsOfCode s.cfg w.toInt = x := voltsOfCode_eq s.cfg w.toInt
  refine ⟨(finite_rne32_iff x).mpr ?finite, ?answer⟩
  case finite =>
    rw [← hx]
    exact (abs_voltsOfCode_lt hs.1 w).trans (by norm_num)
  case answer =>
    rw [exec_live _ hs, ← hx]
    rfl

/-- The selector code of a channel names that channel when the four codes differ (00_scope.md R9). -/
theorem channelOf_get {cfg : Config} (hadm : admitted cfg = true) (ch : Channel) : channelOf cfg (cfg.amuxSel.get ch) = some ch := by
  have hnodup : [cfg.amuxSel.vout, cfg.amuxSel.v1p25, cfg.amuxSel.iout, cfg.amuxSel.v1p65].Nodup := by
    simp only [admitted, selectorsAdmitted, Bool.and_eq_true, decide_eq_true_eq] at hadm
    tauto
  simp only [List.nodup_cons, List.mem_cons, List.not_mem_nil, or_false, not_or] at hnodup
  obtain ⟨⟨h1, h2, h3⟩, ⟨h4, h5⟩, h6, -⟩ := hnodup
  cases ch with
  | vout => simp [channelOf, PerChannel.get]
  | v1p25 => simp [channelOf, PerChannel.get, Ne.symm h1]
  | iout => simp [channelOf, PerChannel.get, Ne.symm h2, Ne.symm h4]
  | v1p65 => simp [channelOf, PerChannel.get, Ne.symm h3, Ne.symm h5, Ne.symm h6]

/-- A live `AMUX2V` of a channel's selector is that channel's conversion (R103). -/
theorem exec_amux2v_get {s : State} (hs : Live s) (ch : Channel) (raw : Word) :
    exec (.amux2v (s.cfg.amuxSel.get ch) raw) s = .next (amux2vChannel ch raw s) := by
  rw [exec_live _ hs, effectOf, amux2vEffect, channelOf_get hs.1]

/-- Settles O31: the selector code names its channel, whose value is finite. -/
theorem amux2vScalesARecognisedChannel : Obligations.Amux2vScalesARecognisedChannel := by
  unfold Obligations.Amux2vScalesARecognisedChannel
  intro s ch raw hs v hv
  have hvolts : amuxVolts s.cfg ch raw = v := rfl
  rw [exec_amux2v_get hs, amux2vChannel, hvolts, if_pos hv]
  rfl

/-- The header of a driver's status with `SAT`, as a number (30_encoding.md R68, R70). -/
theorem statusWord_driverStatus (a : DriverStatus) (p : Prop) [Decidable p] :
    statusWord (driverStatus a) (decide p) false
      = BitVec.ofNat 32 ((match a with | .ok => 0 | .transport => 1 | .checksum => 2 | .ack => 3) + if p then 256 else 0) := by
  by_cases h : p
  · simp only [h, decide_true, if_true]
    cases a <;> rfl
  · simp only [h, decide_false, if_false]
    cases a <;> rfl

/-- Settles O32: the one write is `setvWrite`, whose status, with `SAT`, makes the header. -/
theorem setvWritesTheClampedCodeOnce : Obligations.SetvWritesTheClampedCodeOnce := by
  unfold Obligations.SetvWritesTheClampedCodeOnce
  intro s v hs hv code answer st sat
  have hheader : statusWord (driverStatus (setvWrite v s).1) (v2dacSat v) false = BitVec.ofNat 32 (st + sat) := by
    rw [v2dacSat_eq, statusWord_driverStatus]
    rfl
  rw [exec_of_checkOperands_true (i := .setv v) hs rfl (by simpa using hv), response, hheader]
  rfl

end Sys2Proof.Machine
end

section
/-! PROOF. The payload of a code (30_encoding.md R78): read most significant byte first it is the code's two's complement. -/

namespace Sys2Proof.Machine

/-- The `n` low bytes of a word, most significant first. -/
def bytesMsbFirst (n : Nat) (w : Word) : List Byte := (List.range n).map fun j => byteOf w (n - 1 - j)

theorem bytesMsbFirst_succ (n : Nat) (w : Word) : bytesMsbFirst (n + 1) w = byteOf w n :: bytesMsbFirst n w := by
  simp only [bytesMsbFirst, List.range_succ_eq_map, List.map_cons, List.map_map]
  refine congrArg₂ List.cons rfl (List.map_congr_left fun j _ => ?_)
  simp only [Function.comp_apply]
  congr 1
  omega

theorem byteOf_toNat (w : Word) (k : Nat) : (byteOf w k).toNat = w.toNat / 256 ^ k % 256 := by
  rw [byteOf, BitVec.extractLsb'_toNat, Nat.shiftRight_eq_div_pow, show 256 = 2 ^ 8 from rfl, ← pow_mul]

/-- Reading bytes, most significant first, after a number already read. -/
theorem foldl_bytesMsbFirst (n : Nat) (w : Word) (a : Nat) :
    (bytesMsbFirst n w).foldl (fun a b => 256 * a + b.toNat) a = a * 256 ^ n + w.toNat % 256 ^ n := by
  induction n generalizing a with
  | zero => simp [bytesMsbFirst, Nat.mod_one]
  | succ n ih =>
    rw [bytesMsbFirst_succ, List.foldl_cons, ih, byteOf_toNat, Nat.mod_pow_succ]
    ring

/-- In either order the payload, put most significant byte first, is the low bytes of the code. -/
theorem payloadVdac_msbFirst {cfg : Config} (code : Word) (h : cfg.payloadOrder = .msbFirst) :
    payloadVdac cfg code = bytesMsbFirst cfg.wVdac code := by
  simp only [payloadVdac, h, bytesMsbFirst]

theorem payloadVdac_lsbFirst {cfg : Config} (code : Word) (h : cfg.payloadOrder = .lsbFirst) :
    (payloadVdac cfg code).reverse = bytesMsbFirst cfg.wVdac code := by
  refine List.ext_getElem (by simp [bytesMsbFirst]) fun j hj _ => ?_
  simp [payloadVdac, h, bytesMsbFirst]

/-- A value within the range of `n` bytes, read back from the residue it leaves there. -/
theorem int_of_residue {c : Int} {m : Nat} (hlo : -(m : Int) ≤ c) (hhi : c < m) :
    c = if (c % (2 * m : Nat)).toNat < m then ((c % (2 * m : Nat)).toNat : Int) else (c % (2 * m : Nat)).toNat - (2 * m : Nat) := by
  obtain hneg | hpos := lt_or_ge c 0
  · have hres : c % (2 * m : Nat) = c + (2 * m : Nat) := by
      rw [← Int.add_emod_right, Int.emod_eq_of_lt (by omega) (by omega)]
    rw [hres]
    split <;> omega
  · have hres : c % (2 * m : Nat) = c := Int.emod_eq_of_lt hpos (by omega)
    rw [hres]
    split <;> omega

/-- The low bytes of an integer's word are its residue. -/
theorem ofI32_toNat_mod (c : Int) {n : Nat} (hn : n ≤ 4) : (ofI32 c).toNat % 256 ^ n = (c % (256 ^ n : Nat)).toNat := by
  have hdvd : ((256 ^ n : Nat) : Int) ∣ ((2 ^ 32 : Nat) : Int) := by
    rw [Int.natCast_dvd_natCast, show 2 ^ 32 = 256 ^ 4 from rfl]
    exact pow_dvd_pow 256 hn
  have hnonneg : 0 ≤ c % ((2 ^ 32 : Nat) : Int) := Int.emod_nonneg _ (by decide)
  zify
  rw [ofI32, BitVec.toNat_ofInt, Int.toNat_of_nonneg hnonneg, Int.toNat_of_nonneg (Int.emod_nonneg _ (by positivity))]
  exact_mod_cast Int.emod_emod_of_dvd c hdvd

/-- Settles O34: both orders give the bytes most significant first, which add up to the code modulo the width. -/
theorem payloadDeterminesTheCode : Obligations.PayloadDeterminesTheCode := by
  unfold Obligations.PayloadDeterminesTheCode
  intro cfg c hadm hlo hhi p msbFirst n
  obtain ⟨-, -, ⟨-, -, -, hwidth, -⟩, hwidth4, hmin, hmax⟩ := (frameAdmitted_iff cfg).mp (by
    simp only [admitted, Bool.and_eq_true] at hadm
    exact hadm.2)
  have hbytes : msbFirst = bytesMsbFirst cfg.wVdac (ofI32 c) := by
    cases horder : cfg.payloadOrder with
    | msbFirst => simp only [msbFirst, horder, p, payloadVdac_msbFirst _ horder]
    | lsbFirst => simp only [msbFirst, horder, p, payloadVdac_lsbFirst _ horder]
  have hdouble : 2 ^ (8 * cfg.wVdac) = 2 * 2 ^ (8 * cfg.wVdac - 1) := by
    rw [← pow_succ', Nat.sub_add_cancel (by omega)]
  have hn : n = (c % (2 * 2 ^ (8 * cfg.wVdac - 1) : Nat)).toNat := by
    simp only [n, hbytes, foldl_bytesMsbFirst, Nat.zero_mul, Nat.zero_add, ofI32_toNat_mod c hwidth4]
    rw [show 256 = 2 ^ 8 from rfl, ← pow_mul, hdouble]
  have hresidue := int_of_residue (c := c) (m := 2 ^ (8 * cfg.wVdac - 1)) (by push_cast; omega) (by push_cast; omega)
  rw [← hn, ← hdouble] at hresidue
  exact_mod_cast hresidue

end Sys2Proof.Machine
end

section
/-! PROOF. The load monitor (42_load_monitor.md R120, R121), the table lookup (43_pid.md R144), and the range faults of every operation that has
one (60_exceptions.md R163). -/

namespace Sys2Proof.Machine

theorem rneMag_neg (q : Rat) : rneMag (-q).num.natAbs (-q).den = rneMag q.num.natAbs q.den := by
  rw [Rat.neg_num, Int.natAbs_neg, Rat.neg_den]

/-- `fabs` leaves the 31 lower bits and clears the sign. -/
theorem fabs_withSign (neg : Bool) (m : Nat) : fabs (withSign neg m) = withSign false m := by
  refine BitVec.eq_of_getLsbD_eq fun i hi => ?_
  simp only [fabs, withSign, BitVec.getLsbD_and, BitVec.getLsbD_append]
  obtain h | rfl : i < 31 ∨ i = 31 := by omega
  · have hmask : (0x7FFFFFFF#32).getLsbD i = true := by interval_cases i <;> decide
    simp [h, hmask]
  · simp

theorem fabs_rne32_neg (q : Rat) : fabs (rne32 (-q)) = fabs (rne32 q) := by
  rw [rne32, rne32, fabs_withSign, fabs_withSign, rneMag_neg]

/-- The absolute difference of finite values does not depend on their order. -/
theorem loadDiff_comm {a b : F32} (ha : finite a = true) (hb : finite b = true) : loadDiff a b = loadDiff b a := by
  have hneg : exact b - exact a = -(exact a - exact b) := (neg_sub _ _).symm
  rw [loadDiff, loadDiff, fsub_of_finite ha hb, fsub_of_finite hb ha, hneg]
  simp only [neg_eq_zero]
  split
  · rw [fabs_withSign, fabs_withSign]
  · exact (fabs_rne32_neg _).symm

theorem loadCmpEffect_comm (a b : F32) (s : State) : loadCmpEffect a b s = loadCmpEffect b a s := by
  have hcomm : allFinite [a, b] = allFinite [b, a] := by simp [Bool.and_comm]
  unfold loadCmpEffect
  rw [← hcomm]
  cases hfin : allFinite [a, b] with
  | false => rw [checkOperands_false, checkOperands_false]
  | true =>
    obtain ⟨ha, hb⟩ : finite a = true ∧ finite b = true := by simpa using hfin
    rw [loadDiff_comm ha hb]

/-- Settles O36. When an operand is not finite both orders fault alike, and otherwise the differences agree. -/
theorem loadCmpIsSymmetric : Obligations.LoadCmpIsSymmetric := by
  unfold Obligations.LoadCmpIsSymmetric
  intro s a b
  have heffect : effectOf (.loadCmp a b) = effectOf (.loadCmp b a) := funext (loadCmpEffect_comm a b)
  rw [exec_eq_serve, exec_eq_serve, heffect]

/-- The header of a comparison whose verdict is that the tolerance is not exceeded. -/
theorem statusWord_ok_not (b : Bool) : statusWord .ok false (!b) = if b = true then 0x00000000#32 else 0x00000200#32 := by
  cases b <;> rfl

/-- Settles O35: the operand check passes and the finite difference goes to the response. -/
theorem loadCmpAnswersTheDifferenceAndVerdict : Obligations.LoadCmpAnswersTheDifferenceAndVerdict := by
  unfold Obligations.LoadCmpAnswersTheDifferenceAndVerdict
  intro s a b hs ha hb d hd
  have hdiff : loadDiff a b = d := rfl
  rw [exec_of_checkOperands_true (i := .loadCmp a b) hs rfl (by simp [ha, hb]), hdiff, if_pos hd, response, connected,
    statusWord_ok_not]
  rfl

/-- A live `LOAD_CHECK` whose read succeeds goes on to convert the raw value (R121). -/
theorem exec_loadCheck_ok {s : State} {raw : Word} (hs : Live s) (hread : (voutRead s).1 = (.ok, raw)) :
    exec .loadCheck s = .next (loadCheckRead raw (voutRead s).2) := by
  rw [exec_live _ hs, effectOf, loadCheckEffect, hread, if_pos rfl]

/-- A live `LOAD_CHECK` whose read succeeds with a finite voltage compares it with a sample (R121). -/
theorem exec_loadCheck_finite {s : State} {raw : Word} (hs : Live s) (hread : (voutRead s).1 = (.ok, raw))
    (h : finite (amuxVolts s.cfg .vout raw) = true) :
    exec .loadCheck s = .next (loadCheckCompare (amuxVolts s.cfg .vout raw) (adcSample s.cfg.loadAdcCh (voutRead s).2).1
      (adcSample s.cfg.loadAdcCh (voutRead s).2).2) := by
  have hcfg : (voutRead s).2.cfg = s.cfg := rfl
  rw [exec_loadCheck_ok hs hread, loadCheckRead, hcfg, if_pos h]

/-- Settles O37: the read, the sample and the comparison, each finite, in turn. -/
theorem loadCheckComparesVoutWithTheSample : Obligations.LoadCheckComparesVoutWithTheSample := by
  unfold Obligations.LoadCheckComparesVoutWithTheSample
  intro s raw hs hread a b d ha hb hd
  have hvolts : amuxVolts s.cfg .vout raw = a := rfl
  have hsample : (adcSample s.cfg.loadAdcCh (voutRead s).2).1 = b := rfl
  have hdiff : loadDiff a b = d := rfl
  rw [exec_loadCheck_finite hs hread ha, hvolts, hsample, loadCheckCompare, hdiff, hb, hd, Bool.and_true, if_pos rfl, response,
    connected, statusWord_ok_not]
  simp [respond, adcSample, voutRead, drvReadAmux]

/-- The header of a driver's status alone, as a number (30_encoding.md R68, R70). -/
theorem statusWord_driverStatus_alone (a : DriverStatus) : statusWord (driverStatus a) false false
    = BitVec.ofNat 32 (match a with | .ok => 0 | .transport => 1 | .checksum => 2 | .ack => 3) := by
  cases a <;> rfl

/-- Settles O38: a failing read ends `loadCheckEffect` before the sample. -/
theorem loadCheckPassesTheDriverErrorThrough : Obligations.LoadCheckPassesTheDriverErrorThrough := by
  unfold Obligations.LoadCheckPassesTheDriverErrorThrough
  intro s st raw hs hread hne
  have hanswer : (voutRead s).1 = (st, raw) := hread
  rw [exec_live _ hs, effectOf, loadCheckEffect, hanswer, if_neg hne, response, statusWord_driverStatus_alone]
  rfl

/-- Settles O42: every value of the lookup is finite, and the index is split into none and some. -/
theorem bootLookupAnswersSeedAndIndex : Obligations.BootLookupAnswersSeedAndIndex := by
  unfold Obligations.BootLookupAnswersSeedAndIndex
  intro s set out hs hset hout hvals
  rw [exec_of_checkOperands_true (i := .bootLookup set out) hs rfl (by simp [hset, hout]), if_pos ((allFinite_boot_iff _ _ _).mpr hvals)]
  cases (boot s.cfg set out).idx <;> rfl

/-- A range fault in the words of R68. -/
theorem raise_range_eq (s : State) : raise .range s = { s with resp := some ⟨0x00000012#32, 0#32, 0#32, 0#32, 0#32⟩ } :=
  raise_eq .range s

/-- Settles O18. The values of each operation are those its own test of finiteness looks at. -/
theorem nonFiniteValuesAnswerRangeFault : Obligations.NonFiniteValuesAnswerRangeFault := by
  unfold Obligations.NonFiniteValuesAnswerRangeFault
  intro s hs range
  refine ⟨?pidTick, ?bootLookup, ?amux2v, ?loadCmp, ?volts, ?sample⟩
  case pidTick =>
    intro cur set out hcur hset hout hvals
    rw [exec_of_checkOperands_true (i := .pidTick cur set out) hs rfl (by simp [hcur, hset, hout]),
      if_neg fun h => hvals ((allFinite_tickVals_iff _ _ _ _ _).mp h), raise_range_eq]
  case bootLookup =>
    intro set out hset hout hvals
    rw [exec_of_checkOperands_true (i := .bootLookup set out) hs rfl (by simp [hset, hout]),
      if_neg fun h => hvals ((allFinite_boot_iff _ _ _).mp h), raise_range_eq]
  case amux2v =>
    rintro ch sel raw rfl hvolts
    rw [exec_amux2v_get hs, amux2vChannel, hvolts, if_neg Bool.false_ne_true, raise_range_eq]
  case loadCmp =>
    intro a b ha hb hd
    have hdiff : finite (loadDiff a b) = false := hd
    rw [exec_of_checkOperands_true (i := .loadCmp a b) hs rfl (by simp [ha, hb]), hdiff, if_neg Bool.false_ne_true, raise_range_eq]
  case volts =>
    intro raw hread hvolts
    have hcfg : (voutRead s).2.cfg = s.cfg := rfl
    rw [exec_loadCheck_ok hs hread, loadCheckRead, hcfg, hvolts, if_neg Bool.false_ne_true, raise_range_eq]
    rfl
  case sample =>
    intro raw hread hvolts sample hbad
    rw [exec_loadCheck_finite hs hread hvolts]
    obtain ⟨hb, hd, -⟩ | ⟨-, h⟩ := loadCheckCompare_cases (amuxVolts s.cfg .vout raw) sample.1 sample.2
    · have hd' : finite (fabs (fsub (amuxVolts s.cfg .vout raw) sample.1)) = true := hd
      simp [hb, hd'] at hbad
    · exact congrArg Host.Outcome.next (h.trans (raise_range_eq _))

end Sys2Proof.Machine
end

section
/-! PROOF. Completed ticks (43_pid.md R130 to R141): what a tick that answers `OK` has committed and computed, when it enables the integral, and
when its derivative is +0.0. -/

namespace Sys2Proof.Machine

/-- A tick that answers `OK` ran on a live core, and its operands and every value it computed are finite (R140). -/
theorem pidTick_ok {cur set out : F32} {s t : State} {r : Response} (ht : exec (.pidTick cur set out) s = .next t)
    (hr : t.resp = some r) (hst : r.st = 0x00#8) :
    Live s ∧ allFinite (tickVals s.cfg cur set out s.ctl) = true ∧
      t = respond (tickResponse (tickOutput s.cfg cur set out s.ctl)) (commit (tickNext s.cfg cur set out s.ctl) s) := by
  obtain ⟨hadm, ⟨-, rfl⟩ | ⟨hfatal, heffect⟩⟩ := exec_next ht
  · obtain rfl := Option.some.inj hr
    exact absurd hst (by decide)
  · have hlive : Live s := ⟨hadm, hfatal⟩
    refine ⟨hlive, ?_, pidTick_completed hlive ht hr hst⟩
    obtain ⟨-, hvals, -⟩ | ⟨-, -, h⟩ | ⟨-, h⟩ := pidTickEffect_cases cur set out s
    · exact hvals
    · rw [heffect, effectOf, h, raise_resp] at hr
      obtain rfl := Option.some.inj hr
      exact absurd hst (by decide)
    · rw [heffect, effectOf, h, raise_resp] at hr
      obtain rfl := Option.some.inj hr
      exact absurd hst (by decide)

/-- A tick ends with the record as it was, or commits the tick's record and answers `OK` (R140). -/
theorem pidTick_ctl {cur set out : F32} {s t : State} (ht : exec (.pidTick cur set out) s = .next t) :
    (t.ctl = s.ctl ∧ ∀ r, t.resp = some r → r.st ≠ 0x00#8) ∨ t.ctl = tickNext s.cfg cur set out s.ctl := by
  obtain ⟨-, ⟨-, rfl⟩ | ⟨-, rfl⟩⟩ := exec_next ht
  · exact .inl ⟨rfl, fun r hr => Option.some.inj hr ▸ by decide⟩
  · obtain ⟨-, -, h⟩ | ⟨-, -, h⟩ | ⟨-, h⟩ := pidTickEffect_cases cur set out s <;> rw [effectOf, h]
    · exact .inr rfl
    · exact .inl ⟨rfl, fun r hr => Option.some.inj hr ▸ by decide⟩
    · exact .inl ⟨rfl, fun r hr => Option.some.inj hr ▸ by decide⟩

section Enable
variable {cfg : Config} {cur set out e : F32} {c : Control}

/-- A set point of +0.0 or -0.0 keeps the gate shut (R135). -/
theorem gateOpens_zero (h : feq set 0#32 = true) : gateOpens cfg e set c = false := by
  simp [gateOpens, gateEvaluated, h]

/-- Step 1 never enables the integral (R132). -/
theorem tickReset_ien_of_off (h : c.ien = false) : (tickReset set c).ien = false := by
  cases hsp : feq set c.prevSp with
  | true => rwa [tickReset_same set c hsp]
  | false => rw [tickReset_new set c hsp]

/-- A tick enables the integral only through its gate (R134). -/
theorem gate_of_enabled (hoff : c.ien = false) (hon : (tickNext cfg cur set out c).ien = true) :
    feq set 0#32 = false ∧ fle (fabs (fdiv (fsub set cur) set)) cfg.integThresh = true := by
  rw [tickNext_ien, tickReset_ien_of_off hoff, Bool.false_or, gateOpens, gateEvaluated, Bool.and_eq_true, Bool.and_eq_true,
    Bool.not_eq_true', Bool.not_eq_true'] at hon
  exact ⟨hon.1.2, hon.2⟩

/-- A tick disables the integral only by changing the set point (R132). -/
theorem new_of_disabled (hon : c.ien = true) (hoff : (tickNext cfg cur set out c).ien = false) : feq set c.prevSp = false := by
  by_contra hsame
  rw [Bool.not_eq_false] at hsame
  rw [tickNext_ien, tickReset_same set c hsame, hon, Bool.true_or] at hoff
  exact Bool.noConfusion hoff

end Enable

/-- Settles O47. The gate stays shut, and a tick that changes the set point starts from the integral off. -/
theorem zeroSetPointNeverEnablesTheIntegral : Obligations.ZeroSetPointNeverEnablesTheIntegral := by
  unfold Obligations.ZeroSetPointNeverEnablesTheIntegral
  intro s t cur set out hzero ht hcases _
  obtain ⟨hsame, hfault⟩ | hnext := pidTick_ctl ht
  · obtain hoff | ⟨-, r, hr, hst⟩ := hcases
    · rw [hsame, hoff]
    · exact absurd hst (hfault r hr)
  · rw [hnext, tickNext_ien, gateOpens_zero hzero, Bool.or_false]
    obtain hoff | ⟨hnew, -⟩ := hcases
    · exact tickReset_ien_of_off hoff
    · rw [tickReset_new set s.ctl hnew]

/-- Of the requests only a tick changes whether the integral is enabled. -/
theorem runRequest_ien_changed {r : Request} {s t : State} (ht : runRequest r s = .next t) (hne : t.ctl.ien ≠ s.ctl.ien) :
    ∃ cur set out, decode r = .ok (.pidTick cur set out) ∧ t.ctl = tickNext s.cfg cur set out s.ctl := by
  unfold runRequest at ht
  cases hd : decode r with
  | error e =>
    rw [hd] at ht
    obtain ⟨-, ⟨-, rfl⟩ | ⟨-, rfl⟩⟩ := serve_next ((rejectHeader_eq_serve e s).symm.trans ht)
    · exact absurd rfl hne
    · exact absurd rfl hne
  | ok i =>
    rw [hd] at ht
    obtain rfl | ⟨-, hend⟩ := exec_ending ht
    · exact absurd rfl hne
    · cases hend with
      | fault _ _ hm => exact absurd (congrArg Control.ien hm.ctl) hne
      | fatal => exact absurd rfl hne
      | tick cur set out hi => exact ⟨cur, set, out, congrArg _ hi, rfl⟩
      | answer _ _ _ _ _ _ _ _ hm => exact absurd (congrArg Control.ien hm.ctl) hne

/-- Settles O48: only a tick can change the enable bit, by the move pending and the operation of a request. -/
theorem integralEnableFollowsItsRules : Obligations.IntegralEnableFollowsItsRules := by
  unfold Obligations.IntegralEnableFollowsItsRules
  intro s t hstep
  match hin : s.inbox with
  | [] =>
    obtain rfl : t = s := idle_next ((step_of_no_move hin).symm.trans hstep)
    exact ⟨fun hoff hon => by simp [hoff] at hon, fun hon hoff => by simp [hon] at hoff⟩
  | .request r :: rest =>
    rw [step_of_request hin] at hstep
    constructor
    · intro hoff hon
      obtain ⟨cur, set, out, hd, hctl⟩ := runRequest_ien_changed hstep (by simp [hoff, hon])
      rw [hctl] at hon
      obtain ⟨hset, hgate⟩ := gate_of_enabled hoff hon
      exact ⟨r, rest, cur, set, out, rfl, hd, hset, hgate⟩
    · intro hon hoff
      obtain ⟨cur, set, out, hd, hctl⟩ := runRequest_ien_changed hstep (by simp [hoff, hon])
      rw [hctl] at hoff
      exact .inr ⟨r, rest, cur, set, out, rfl, hd, new_of_disabled hon hoff⟩
  | .reset c :: rest =>
    obtain ⟨-, rfl⟩ := takeReset_next ((step_of_reset hin).symm.trans hstep)
    exact ⟨fun _ hon => absurd hon Bool.false_ne_true, fun _ _ => .inl ⟨_, _, rfl, rfl⟩⟩
  | .abandon r n c :: rest =>
    obtain ⟨-, -, -, rfl⟩ := takeResetDuring_next ((step_of_abandon hin).symm.trans hstep)
    exact ⟨fun _ hon => absurd hon Bool.false_ne_true, fun _ _ => .inl ⟨_, _, rfl, rfl⟩⟩

/-- The difference of a finite value from itself is +0.0. -/
theorem fsub_self {x : F32} (h : finite x = true) : fsub x x = 0#32 := by
  rw [fsub_of_finite h h, sub_self, if_pos rfl, Bool.and_not_self]
  decide

/-- +0.0 divided by a positive-signed value is +0.0 unless the quotient is a NaN. -/
theorem fdiv_zero_left {x : F32} (hx : finite x = true) (hsign : signBit x = false) (hquot : finite (fdiv 0#32 x) = true) :
    fdiv 0#32 x = 0#32 := by
  have hne : exact x ≠ 0 := by
    intro h
    have hnan := isNaN_fdiv_zero_zero finite_zero hx h exact_zero
    rw [not_isNaN_of_finite hquot] at hnan
    exact Bool.noConfusion hnan
  rw [fdiv_of_ne_zero finite_zero hx hne, if_pos exact_zero, hsign]
  decide

theorem admitted_gains {cfg : Config} (h : admitted cfg = true) : gainsAdmitted cfg = true := by
  simp only [admitted, Bool.and_eq_true] at h
  tauto

/-- The window's length in time is positive (R9, R137). -/
theorem signBit_windowSpan {cfg : Config} (hadm : admitted cfg = true) : signBit (windowSpan cfg) = false := by
  obtain ⟨-, -, -, ⟨hdt, hpos⟩, -⟩ := (gainsAdmitted_iff cfg).mp (admitted_gains hadm)
  have hwindow : exact windowSize = 50 := by decide +kernel
  have hne : ¬(exact windowSize = 0 ∨ exact cfg.dt = 0) := by
    rw [hwindow]
    exact not_or.mpr ⟨by norm_num, hpos.ne'⟩
  have hprod : ¬ exact windowSize * exact cfg.dt < 0 := by
    rw [hwindow]
    exact not_lt.mpr (by positivity)
  rw [windowSpan, fmul_of_finite (by decide) hdt, if_neg hne, signBit_eq_getLsbD, rne32_getLsbD_sign, decide_eq_false hprod]

/-- When the earliest valid sample is the newest one's equal the derivative is +0.0 (R137). -/
theorem derivative_eq_zero {cfg : Config} {c : Control} (hadm : admitted cfg = true) (hspan : finite (windowSpan cfg) = true)
    (hderiv : finite (derivative cfg c) = true) (hnewest : finite c.hist[49] = true)
    (hsame : earliestValid c.hist c.ticks = c.hist[49]) : derivative cfg c = 0#32 := by
  have hdiff : windowDiff c = 0#32 := by rw [windowDiff, hsame, fsub_self hnewest]
  rw [derivative, hdiff] at hderiv ⊢
  exact fdiv_zero_left hspan (signBit_windowSpan hadm) hderiv

section Push
variable (cfg : Config) (cur set out : F32) (c : Control)

@[simp] theorem tickToPush_hist : (tickToPush cfg cur set out c).hist = push (tickError cur set) (tickReset set c).hist := by
  simp [tickToPush, tickPush]

@[simp] theorem tickToPush_ticks : (tickToPush cfg cur set out c).ticks = (tickReset set c).ticks := by
  simp [tickToPush, tickPush]

end Push

/-- A completed tick whose earliest valid sample is its own error answers the derivative +0.0 (R137, R138). -/
theorem kd_of_earliestValid {cfg : Config} {cur set out : F32} {c : Control} (hadm : admitted cfg = true)
    (hvals : allFinite (tickVals cfg cur set out c) = true)
    (hsame : earliestValid (push (tickError cur set) (tickReset set c).hist) (tickReset set c).ticks = tickError cur set) :
    (tickOutput cfg cur set out c).kd = fmul cfg.kd 0#32 := by
  simp only [tickVals, outputVals, allFinite_cons, allFinite_append, Bool.and_eq_true] at hvals
  obtain ⟨herror, -, -, hspan, hderiv, -⟩ := hvals
  have hnewest : (tickToPush cfg cur set out c).hist[49] = tickError cur set := by simp
  have hzero := derivative_eq_zero hadm hspan hderiv (hnewest ▸ herror) (by simpa using hsame)
  rw [tickOutput, pidOutput, hzero]

/-- Settles O46. The history was just filled with +0.0 and the tick count is 0, so the earliest valid sample is the error itself. -/
theorem newSetPointGivesZeroDerivative : Obligations.NewSetPointGivesZeroDerivative := by
  unfold Obligations.NewSetPointGivesZeroDerivative
  intro s t cur set out r _ ht hr hst hnew
  obtain ⟨⟨hadm, -⟩, hvals, rfl⟩ := pidTick_ok ht hr hst
  obtain rfl := Option.some.inj hr
  refine kd_of_earliestValid hadm hvals ?_
  rw [tickReset_new set s.ctl hnew]
  exact push_newest _ _

/-! ## A tick count beyond the window (R26) -/

theorem earliestValid_of_le {n : Nat} (h : Vector F32 histN) (hn : 49 ≤ n) : earliestValid h n = h[0] := by
  simp [earliestValid, Nat.min_eq_right hn]

section Ticks
variable {cfg : Config} {cur set out e : F32} {c : Control} {n : Nat}

theorem tickGate_ticks_irrelevant : tickGate cfg e set out { c with ticks := n } = { tickGate cfg e set out c with ticks := n } := by
  have hopens : gateOpens cfg e set { c with ticks := n } = gateOpens cfg e set c := rfl
  unfold tickGate
  rw [hopens]
  split <;> rfl

theorem tickAccumulate_ticks_irrelevant :
    tickAccumulate cfg e { c with ticks := n } = { tickAccumulate cfg e c with ticks := n } := by
  have hdev : deviation cfg e { c with ticks := n } = deviation cfg e c := rfl
  unfold tickAccumulate
  rw [hdev]
  split <;> rfl

theorem tickToPush_ticks_irrelevant (hsame : feq set c.prevSp = true) :
    tickToPush cfg cur set out { c with ticks := n } = { tickToPush cfg cur set out c with ticks := n } := by
  have hsame' : feq set ({ c with ticks := n } : Control).prevSp = true := hsame
  simp only [tickToPush, tickReset_same _ _ hsame, tickReset_same _ _ hsame', tickGate_ticks_irrelevant,
    tickAccumulate_ticks_irrelevant]
  rfl

/-- Beyond the window the earliest valid sample is the oldest entry, whatever the count. -/
theorem windowDiff_ticks_irrelevant (hc : 49 ≤ c.ticks) (hn : 49 ≤ n) : windowDiff { c with ticks := n } = windowDiff c := by
  rw [windowDiff, windowDiff, earliestValid_of_le _ hc, earliestValid_of_le _ hn]

theorem derivative_ticks_irrelevant (hc : 49 ≤ c.ticks) (hn : 49 ≤ n) : derivative cfg { c with ticks := n } = derivative cfg c := by
  rw [derivative, derivative, windowDiff_ticks_irrelevant hc hn]

theorem pidOutput_ticks_irrelevant (hc : 49 ≤ c.ticks) (hn : 49 ≤ n) :
    pidOutput cfg e { c with ticks := n } = pidOutput cfg e c := by
  simp only [pidOutput, derivative_ticks_irrelevant hc hn]

theorem outputVals_ticks_irrelevant (hc : 49 ≤ c.ticks) (hn : 49 ≤ n) :
    outputVals cfg e { c with ticks := n } = outputVals cfg e c := by
  simp only [outputVals, windowDiff_ticks_irrelevant hc hn, derivative_ticks_irrelevant hc hn, pidOutput_ticks_irrelevant hc hn]

/-- A new set point resets the count, whatever it was (R132). -/
theorem tickReset_ticks_irrelevant (hnew : feq set c.prevSp = false) : tickReset set { c with ticks := n } = tickReset set c := by
  have hnew' : feq set ({ c with ticks := n } : Control).prevSp = false := hnew
  rw [tickReset_new _ _ hnew, tickReset_new _ _ hnew']

end Ticks

/-- Settles O50. A new set point resets the count; with the same one the count only picks the earliest valid sample, which beyond the
window is the oldest entry. -/
theorem ticksBeyondTheWindowAreUnobservable : Obligations.TicksBeyondTheWindowAreUnobservable := by
  unfold Obligations.TicksBeyondTheWindowAreUnobservable
  intro cfg cur set out c n hc hn
  cases hsp : feq set c.prevSp with
  | false =>
    have hreset := tickReset_ticks_irrelevant (n := n) hsp
    simp only [tickOutput, tickVals, tickToPush, hreset, and_self]
  | true =>
    have hsp' : feq set ({ c with ticks := n } : Control).prevSp = true := hsp
    have hpush := tickToPush_ticks_irrelevant (cfg := cfg) (cur := cur) (out := out) (n := n) hsp
    have hticks : 49 ≤ (tickToPush cfg cur set out c).ticks := by rwa [tickToPush_ticks, tickReset_same _ _ hsp]
    constructor
    · rw [tickOutput, hpush, pidOutput_ticks_irrelevant hticks hn, tickOutput]
    · simp only [tickVals, hpush, outputVals_ticks_irrelevant hticks hn, tickReset_same _ _ hsp, tickReset_same _ _ hsp',
        tickGate_ticks_irrelevant]
      rfl

end Sys2Proof.Machine
end

section
/-! PROOF. The six steps of a tick written out (43_pid.md R130 to R139), and runs of ticks with a constant error (R141). -/

namespace Sys2Proof.Machine

/-- Settles O43. Each written-out value is what its step of the model computes, and the pushed error is the newest entry. -/
theorem pidTickCommitsTheSixSteps : Obligations.PidTickCommitsTheSixSteps := by
  unfold Obligations.PidTickCommitsTheSixSteps
  intro s cur set out hs hcur hset hout cfg c1 e evaluated rel opens b c3 step4 cand p q dev iacc hist diff span deriv kp ki kd total
    hvals
  have hc1 : tickReset set s.ctl = c1 := by unfold tickReset zeroFill; rfl
  have hc3 : tickGate cfg e set out c1 = c3 := rfl
  have hacc : tickAccumulate cfg e c3 = { c3 with iacc := iacc } := by
    have hiacc : iacc = if (c3.ien && fle (deviation cfg e c3) cfg.integMaxDev) = true then candidate cfg e c3 else c3.iacc := rfl
    rw [hiacc]
    unfold tickAccumulate
    split <;> rfl
  have hpush : tickToPush cfg cur set out s.ctl = { c3 with iacc := iacc, hist := hist } := by
    change tickPush e (tickAccumulate cfg e (tickGate cfg e set out (tickReset set s.ctl))) = _
    rw [hc1, hc3, hacc]
    rfl
  have hprev : c3.prevSp = c1.prevSp := hc3 ▸ tickGate_prevSp ..
  have hticks : c3.ticks = c1.ticks := hc3 ▸ tickGate_ticks ..
  have hfatal : c3.fatal = s.ctl.fatal := by rw [← hc3, tickGate_fatal, ← hc1, tickReset_fatal]
  have hnext : tickNext cfg cur set out s.ctl = { prevSp := c1.prevSp, iacc := iacc, ien := c3.ien, iest := c3.iest, hist := hist,
                                                   ticks := min (c1.ticks + 1) 50, fatal := s.ctl.fatal } := by
    rw [tickNext, hpush, tickCount, hprev, hticks, hfatal]
  have hdiff : windowDiff { c3 with iacc := iacc, hist := hist } = diff := by
    have hnewest : hist[49] = e := push_newest e c3.hist
    rw [windowDiff, hnewest]
    rfl
  have hout' : tickOutput cfg cur set out s.ctl = { total := total, kp := kp, ki := ki, kd := kd } := by
    have hderiv : derivative cfg { c3 with iacc := iacc, hist := hist } = deriv := by rw [derivative, hdiff]; rfl
    rw [tickOutput, hpush, pidOutput, hderiv]
    rfl
  rw [exec_of_checkOperands_true (i := .pidTick cur set out) hs rfl (by simp [hcur, hset, hout]),
    if_pos ((allFinite_tickVals_iff _ _ _ _ _).mpr hvals), hnext, hout']
  rfl

/-- The newest `k` entries of the history are `e`. -/
def NewestAre (e : F32) (k : Nat) (h : Vector F32 histN) : Prop := ∀ (i : Nat) (hi : i < histN), 50 ≤ i + k → h[i] = e

theorem newestAre_zero (e : F32) (h : Vector F32 histN) : NewestAre e 0 h := fun i hi hk => by unfold histN at hi; omega

/-- Pushing the same value once more makes one more of the newest entries equal to it (20_memory.md R41). -/
theorem NewestAre.push {e : F32} {k : Nat} {h : Vector F32 histN} (hk : NewestAre e k h) : NewestAre e (k + 1) (push e h) := by
  intro i hi hik
  obtain hlast | hold : i = 49 ∨ i + 1 < histN := by unfold histN at *; omega
  · simp only [hlast, push_newest]
  · rw [push_older e h hold]
    exact hk (i + 1) hold (by omega)

theorem NewestAre.eq_replicate {e : F32} {k : Nat} {h : Vector F32 histN} (hk : NewestAre e k h) (h50 : 50 ≤ k) :
    h = Vector.replicate 50 e :=
  Vector.ext fun i hi => by rw [hk i hi (by omega), Vector.getElem_replicate]

/-- With `k` newest entries equal, the earliest valid sample is one of them when no more than `k` samples have been counted, or when
they fill the window. -/
theorem NewestAre.earliestValid {e : F32} {k : Nat} {h : Vector F32 histN} {n : Nat} (hk : NewestAre e (k + 1) h)
    (hn : n ≤ k ∨ 49 ≤ k) : earliestValid h n = e :=
  hk _ _ (by omega)

section ErrorTicks
variable {e : F32} {s t : State}

/-- What a completed tick of error `e` leaves: the error pushed onto the history after step 1, one more sample counted, the
configuration, and the derivative +0.0 in its answer when the earliest valid sample is the error. -/
theorem errorTick_ctl {fresh : Bool} (h : ErrorTick e fresh s t) : ∃ set, feq set s.ctl.prevSp = !fresh ∧
    t.ctl.hist = push e (tickReset set s.ctl).hist ∧ t.ctl.ticks = min ((tickReset set s.ctl).ticks + 1) 50 ∧ t.cfg = s.cfg ∧
    (earliestValid (push e (tickReset set s.ctl).hist) (tickReset set s.ctl).ticks = e →
      ∃ r, t.resp = some r ∧ r.q4 = fmul t.cfg.kd 0#32) := by
  obtain ⟨cur, set, out, r, hsp, rfl, ht, hr, hst⟩ := h
  obtain ⟨⟨hadm, -⟩, hvals, rfl⟩ := pidTick_ok ht hr hst
  refine ⟨set, hsp, ?_, ?_, rfl, fun hsame => ⟨_, rfl, kd_of_earliestValid hadm hvals hsame⟩⟩
  · exact tickNext_hist ..
  · exact tickNext_ticks ..

/-- A tick of the same error with the set point unchanged. -/
theorem errorTick_same {k : Nat} (h : ErrorTick e false s t) (hk : NewestAre e k s.ctl.hist) :
    NewestAre e (k + 1) t.ctl.hist ∧ t.ctl.ticks ≤ s.ctl.ticks + 1 ∧
      (s.ctl.ticks ≤ k ∨ 49 ≤ k → ∃ r, t.resp = some r ∧ r.q4 = fmul t.cfg.kd 0#32) := by
  obtain ⟨set, hsp, hhist, hticks, -, hkd⟩ := errorTick_ctl h
  rw [tickReset_same set s.ctl hsp] at hhist hticks hkd
  rw [hhist, hticks]
  exact ⟨hk.push, Nat.min_le_left _ _, fun hn => hkd (hk.push.earliestValid hn)⟩

/-- A tick that changes the set point. -/
theorem errorTick_fresh (h : ErrorTick e true s t) :
    NewestAre e 1 t.ctl.hist ∧ t.ctl.ticks ≤ 1 ∧ ∃ r, t.resp = some r ∧ r.q4 = fmul t.cfg.kd 0#32 := by
  obtain ⟨set, hsp, hhist, hticks, -, hkd⟩ := errorTick_ctl h
  rw [tickReset_new set s.ctl hsp] at hhist hticks hkd
  rw [hhist, hticks]
  have hfirst := (newestAre_zero e zeroFill).push
  exact ⟨hfirst, Nat.min_le_left _ _, hkd (hfirst.earliestValid (.inl (Nat.zero_le 0)))⟩

/-- After `n` ticks of the same error `n` more of the newest entries are the error, and at most `n` more samples are counted; when the
samples counted do not outnumber those entries, or the entries fill the window before the last tick, the last answer has the derivative
+0.0. -/
theorem constantErrorTicks_spec {k n : Nat} (h : ConstantErrorTicks e n s t) (hk : NewestAre e k s.ctl.hist) :
    NewestAre e (k + n) t.ctl.hist ∧
      (1 ≤ n → s.ctl.ticks ≤ k ∨ 50 ≤ k + n → ∃ r, t.resp = some r ∧ r.q4 = fmul t.cfg.kd 0#32) := by
  induction n generalizing k s with
  | zero =>
    obtain rfl : s = t := h
    exact ⟨hk, fun hn => absurd hn (by decide)⟩
  | succ n ih =>
    obtain ⟨s', m, hctl, -, htick, hrest⟩ := h
    obtain ⟨hm, hticks, hkd⟩ := errorTick_same htick (k := k) (hctl ▸ hk)
    rw [hctl] at hticks hkd
    obtain ⟨ht, hlast⟩ := ih hrest hm
    refine ⟨by rwa [Nat.add_right_comm, Nat.add_assoc] at ht, fun _ hn => ?_⟩
    cases n with
    | zero =>
      obtain rfl : m = t := hrest
      exact hkd (by omega)
    | succ n => exact hlast (by omega) (by omega)

end ErrorTicks

/-- Settles O49: by `constantErrorTicks_spec`, the count of newest equal entries grows by one a tick. -/
theorem constantErrorFillsTheWindow : Obligations.ConstantErrorFillsTheWindow := by
  unfold Obligations.ConstantErrorFillsTheWindow
  intro e n
  refine ⟨fun s t h => ?anyStart, fun s m t hfirst h => ?newSetPoint⟩
  case anyStart =>
    obtain ⟨hhist, hkd⟩ := constantErrorTicks_spec h (newestAre_zero e s.ctl.hist)
    exact ⟨fun hn => hhist.eq_replicate (by omega), fun hn => hkd (by omega) (by omega)⟩
  case newSetPoint =>
    obtain ⟨hm, hticks, hr⟩ := errorTick_fresh hfirst
    obtain ⟨hhist, hkd⟩ := constantErrorTicks_spec h hm
    refine ⟨fun hn => hhist.eq_replicate (by omega), ?_⟩
    cases n with
    | zero =>
      obtain rfl : m = t := h
      exact hr
    | succ n => exact hkd (by omega) (.inl hticks)

end Sys2Proof.Machine
end

section
/-! PROOF. The closest entry (43_pid.md R141): along a table with increasing differences the exact distance from a point falls and then rises, so
where the scan stops no entry is closer. -/

namespace Sys2Proof.Machine

theorem signBit_fabs (x : F32) : signBit (fabs x) = false := by
  have hmask : (0x7FFFFFFF#32).getLsbD 31 = false := by decide
  rw [signBit_eq_getLsbD, fabs, BitVec.getLsbD_and, hmask, Bool.and_false]

theorem exact_fabs (x : F32) : exact (fabs x) = |exact x| := by
  have hmag : magBits (fabs x) = magBits x := by
    have h := fabs_withSign (signBit x) (magBits x)
    rw [withSign_magBits] at h
    rw [h, magBits_withSign _ (magBits_lt x)]
  rw [abs_exact, exact_eq_units, hmag, signBit_fabs, if_neg Bool.false_ne_true, Int.cast_natCast]

/-- A place that is no further from `d` than the next one, and closer than the one before it, is closest among increasing points; the
places before it are further. -/
theorem closest_of_local {n : Nat} {x : Nat → Rat} (hx : ∀ i j, i < j → j < n → x i < x j) (d : Rat) {k : Nat} (hk : k < n)
    (hnext : k + 1 < n → |x k - d| ≤ |x (k + 1) - d|) (hprev : ∀ j, j + 1 = k → |x k - d| < |x j - d|) {j : Nat} (hj : j < n) :
    |x k - d| ≤ |x j - d| ∧ (j < k → |x k - d| < |x j - d|) := by
  obtain hlt | rfl | hgt := lt_trichotomy j k
  · obtain ⟨i, rfl⟩ : ∃ i, i + 1 = k := ⟨k - 1, by omega⟩
    have hcloser := hprev i rfl
    have hstep := hx i (i + 1) (by omega) hk
    have hbelow : x i < d := by
      by_contra hge
      rw [abs_of_nonneg (by linarith), abs_of_nonneg (by linarith)] at hcloser
      linarith
    have hle : x j ≤ x i := by
      obtain rfl | h := eq_or_lt_of_le (Nat.le_of_lt_succ hlt)
      · exact le_rfl
      · exact (hx j i h (by omega)).le
    have hfar : |x i - d| ≤ |x j - d| := by
      rw [abs_of_neg (by linarith), abs_of_neg (by linarith)]
      linarith
    exact ⟨(hcloser.trans_le hfar).le, fun _ => hcloser.trans_le hfar⟩
  · exact ⟨le_rfl, fun h => absurd h (lt_irrefl _)⟩
  · have hcloser := hnext (by omega)
    have hstep := hx k (k + 1) (by omega) (by omega)
    have habove : d ≤ x (k + 1) := by
      by_contra hlt
      rw [abs_of_neg (by linarith), abs_of_neg (by linarith)] at hcloser
      linarith
    have hle : x (k + 1) ≤ x j := by
      obtain rfl | h := eq_or_lt_of_le (Nat.succ_le_of_lt hgt)
      · exact le_rfl
      · exact (hx (k + 1) j h hj).le
    have hfar : |x (k + 1) - d| ≤ |x j - d| := by
      rw [abs_of_nonneg (by linarith), abs_of_nonneg (by linarith)]
      linarith
    exact ⟨hcloser.trans hfar, fun h => absurd h (by omega)⟩

/-- Entry `k` of the table. -/
def tableEntry (cfg : Config) (k : Nat) : BootEntry := cfg.bootTable.getD k ⟨0#32, 0#32⟩

theorem tableEntry_eq {cfg : Config} {k : Nat} (hk : k < cfg.bootTable.length) : tableEntry cfg k = cfg.bootTable[k] :=
  List.getD_eq_getElem _ _ hk

/-- Under `CLAMP_LAST` the entry `boot` uses is the first one after which closeness stops improving, or the last one (R142, R143). -/
theorem boot_clampLast {cfg : Config} {set out : F32} (hne : cfg.bootTable ≠ []) (hclamp : cfg.bootBeyond = .clampLast) :
    ∃ k < cfg.bootTable.length, (boot cfg set out).idx = some k ∧
      (boot cfg set out).seed = fdiv (tableEntry cfg k).contrib cfg.ki ∧
      (k + 1 < cfg.bootTable.length →
        fge (bootDist (fsub set out) (tableEntry cfg (k + 1))) (bootDist (fsub set out) (tableEntry cfg k)) = true) ∧
      (∀ j, j + 1 = k →
        fge (bootDist (fsub set out) (tableEntry cfg (j + 1))) (bootDist (fsub set out) (tableEntry cfg j)) = false) := by
  have hpos : 0 < cfg.bootTable.length := List.length_pos_iff.mpr hne
  obtain ⟨hstops, hbeyond⟩ := bootTakesTheEntryWhereClosenessStops cfg set out hne
  by_cases hexists : ∃ k, k + 1 < cfg.bootTable.length ∧
      fge (bootDist (fsub set out) (tableEntry cfg (k + 1))) (bootDist (fsub set out) (tableEntry cfg k)) = true
  · classical
    obtain ⟨hk, hstop⟩ := Nat.find_spec hexists
    have hgo (j : Nat) (hj : j < Nat.find hexists) :
        fge (bootDist (fsub set out) (tableEntry cfg (j + 1))) (bootDist (fsub set out) (tableEntry cfg j)) = false := by
      have hmin := Nat.find_min hexists hj
      rw [← Bool.not_eq_true]
      exact fun h => hmin ⟨by omega, h⟩
    obtain ⟨hseed, hidx⟩ := hstops _ hk hstop hgo
    exact ⟨_, by omega, hidx, hseed, fun _ => hstop, fun j hj => hgo j (by omega)⟩
  · have hgo (k : Nat) (hk : k + 1 < cfg.bootTable.length) :
        fge (bootDist (fsub set out) (tableEntry cfg (k + 1))) (bootDist (fsub set out) (tableEntry cfg k)) = false := by
      rw [← Bool.not_eq_true]
      exact fun h => hexists ⟨k, hk, h⟩
    obtain ⟨hseed, hidx⟩ := (hbeyond hgo).2 hclamp
    exact ⟨_, by omega, hidx, hseed, fun h => absurd h (by omega), fun j hj => hgo j (by omega)⟩

/-- With exact distances the comparisons of the scan are those of the exact distances (R142). -/
theorem fge_bootDist_iff {d : F32} {a b : BootEntry}
    (ha : finite (fsub a.diff d) = true ∧ exact (fsub a.diff d) = exact a.diff - exact d)
    (hb : finite (fsub b.diff d) = true ∧ exact (fsub b.diff d) = exact b.diff - exact d) :
    fge (bootDist d a) (bootDist d b) = true ↔ |exact b.diff - exact d| ≤ |exact a.diff - exact d| := by
  rw [bootDist, bootDist, fge_iff_exact ((finite_fabs _).trans ha.1) ((finite_fabs _).trans hb.1), exact_fabs, exact_fabs, ha.2, hb.2]

/-- Settles O41. The scan's comparisons are those of the exact distances, so it stops at a place that is closest. -/
theorem bootSeedComesFromTheClosestEntry : Obligations.BootSeedComesFromTheClosestEntry := by
  unfold Obligations.BootSeedComesFromTheClosestEntry
  intro cfg set out hadm hclamp d _ hexact
  obtain ⟨-, hordered, hsource⟩ := (tableAdmitted_iff cfg.bootTable).mp (by
    simp only [admitted, Bool.and_eq_true] at hadm
    tauto)
  obtain ⟨k, hk, hidx, hseed, hnext, hprev⟩ := boot_clampLast (set := set) (out := out) (List.ne_nil_of_mem hsource) hclamp
  have hvalue (j : Nat) (hj : j < cfg.bootTable.length) : finite (fsub (tableEntry cfg j).diff d) = true ∧
      exact (fsub (tableEntry cfg j).diff d) = exact (tableEntry cfg j).diff - exact d := by
    rw [tableEntry_eq hj]
    exact hexact _ (List.getElem_mem hj)
  have hincreasing (i j : Nat) (hij : i < j) (hj : j < cfg.bootTable.length) :
      exact (tableEntry cfg i).diff < exact (tableEntry cfg j).diff := by
    rw [tableEntry_eq (hij.trans hj), tableEntry_eq hj]
    exact (List.pairwise_iff_getElem.mp hordered i j _ hj hij).1
  have hcloser (j : Nat) (hj : j + 1 = k) :
      |exact (tableEntry cfg k).diff - exact d| < |exact (tableEntry cfg j).diff - exact d| := by
    subst hj
    have hnot := hprev j rfl
    rwa [← Bool.not_eq_true, fge_bootDist_iff (hvalue (j + 1) hk) (hvalue j (by omega)), not_le] at hnot
  refine ⟨k, hk, hidx, by rw [hseed, tableEntry_eq hk], fun j hj => ?_⟩
  have hclosest := closest_of_local hincreasing (exact d) hk
    (fun h => (fge_bootDist_iff (hvalue (k + 1) h) (hvalue k hk)).mp (hnext h)) hcloser hj
  rwa [tableEntry_eq hk, tableEntry_eq hj] at hclosest

end Sys2Proof.Machine
end

section
/-! PROOF. Operand literals (30_encoding.md R73; log entry 14): what the digits of a text are worth, that a decimal text is no other form of
literal, and that a ratio is rounded alike in any terms. -/

namespace Sys2Proof.Machine

/-- The text of decimal digits. -/
def decText (l : List (Fin 10)) : List Char := l.map fun k => Nat.digitChar k.val

/-- The text of hexadecimal digits, each in the case named. -/
def hexText (l : List (Fin 16 × Bool)) : List Char :=
  l.map fun k => if k.2 = true then (Nat.digitChar k.1.val).toUpper else Nat.digitChar k.1.val

/-- The number of decimal digits. -/
def decValue (l : List (Fin 10)) : Nat := l.foldl (fun n k => 10 * n + k.val) 0

/-- The number of hexadecimal digits. -/
def hexValue (l : List (Fin 16 × Bool)) : Nat := l.foldl (fun n k => 16 * n + k.1.val) 0

theorem decDigit_digitChar : ∀ k : Fin 10, decDigit (Nat.digitChar k.val) = some k.val := by decide

theorem hexDigit_digitChar : ∀ k : Fin 16 × Bool,
    hexDigit (if k.2 = true then (Nat.digitChar k.1.val).toUpper else Nat.digitChar k.1.val) = some k.1.val := by decide

/-- Digits are worth their place values, after a number already read. -/
theorem digitsFrom_map {α : Type} (base : Nat) {digit : Char → Option Nat} {text : α → Char} {value : α → Nat}
    (h : ∀ a, digit (text a) = some (value a)) (l : List α) (acc : Nat) :
    digitsFrom base digit acc (l.map text) = some (l.foldl (fun n a => base * n + value a) acc) := by
  induction l generalizing acc with
  | nil => rfl
  | cons a l ih => rw [List.map_cons, digitsFrom, h, List.foldl_cons, ← ih, Nat.mul_comm]

theorem digits_decText {l : List (Fin 10)} (hl : l ≠ []) : digits 10 decDigit (decText l) = some (decValue l) := by
  rw [digits, if_neg (by simpa [decText] using hl)]
  exact digitsFrom_map 10 decDigit_digitChar l 0

theorem digits_hexText {l : List (Fin 16 × Bool)} (hl : l ≠ []) : digits 16 hexDigit (hexText l) = some (hexValue l) := by
  rw [digits, if_neg (by simpa [hexText] using hl)]
  exact digitsFrom_map 16 hexDigit_digitChar l 0

/-- A decimal text has no characters but the ten digits. -/
theorem not_mem_decText {c : Char} (hc : ∀ k : Fin 10, Nat.digitChar k.val ≠ c) (l : List (Fin 10)) : c ∉ decText l := by
  intro h
  obtain ⟨k, -, hk⟩ := List.mem_map.mp h
  exact hc k hk

/-- A text that starts otherwise than a decimal text, or goes on otherwise, is none. -/
theorem natLiteral_decText {l : List (Fin 10)} (hl : l ≠ []) : natLiteral (decText l) = some (decValue l) := by
  rw [← digits_decText hl]
  unfold natLiteral
  split
  · next rest h => exact absurd (show 'x' ∈ decText l by simp [h]) (not_mem_decText (by decide) l)
  · rfl

theorem natLiteral_hexText {l : List (Fin 16 × Bool)} (hl : l ≠ []) : natLiteral ('0' :: 'x' :: hexText l) = some (hexValue l) :=
  digits_hexText hl

section Bounded
variable {text : List Char} {n : Nat} (h : natLiteral text = some n)
include h

theorem u32Literal_of_natLiteral : u32Literal text = if n < 2 ^ 32 then some (BitVec.ofNat 32 n) else none := by
  simp only [u32Literal, boundedLiteral, h, show n ≤ 0xFFFFFFFF ↔ n < 2 ^ 32 by omega]
  split <;> rfl

theorem byteLiteral_of_natLiteral : byteLiteral text = if n < 256 then some (BitVec.ofNat 8 n) else none := by
  simp only [byteLiteral, boundedLiteral, h, show n ≤ 255 ↔ n < 256 by omega]
  split <;> rfl

end Bounded

theorem i32Literal_decText {l : List (Fin 10)} (hl : l ≠ []) :
    i32Literal (decText l) = if decValue l < 2 ^ 31 then some (BitVec.ofNat 32 (decValue l)) else none := by
  unfold i32Literal
  split
  · next h => exact absurd (show 'x' ∈ decText l by simp [h]) (not_mem_decText (by decide) l)
  · next h => exact absurd (show '-' ∈ decText l by simp [h]) (not_mem_decText (by decide) l)
  · rw [digits_decText hl]

theorem i32Literal_neg_decText {l : List (Fin 10)} (hl : l ≠ []) :
    i32Literal ('-' :: decText l) = if decValue l ≤ 2 ^ 31 then some (BitVec.ofInt 32 (-(decValue l : Int))) else none := by
  simp only [i32Literal, digits_decText hl]

theorem f32Literal_bits {l : List (Fin 16 × Bool)} (hl : l ≠ []) (h8 : l.length = 8) :
    f32Literal ('f' :: ':' :: '0' :: 'x' :: hexText l) = some (BitVec.ofNat 32 (hexValue l)) := by
  have hlength : (hexText l).length = 8 := by simpa [hexText] using h8
  simp only [f32Literal, hlength, if_true, digits_hexText hl, Option.map_some]

/-! ## Rounding a ratio -/

theorem rneNat_mul_mul_left {k : Nat} (hk : 0 < k) (n d : Nat) : rneNat (k * n) (k * d) = rneNat n d := by
  have hlt (a b : Nat) : k * a < k * b ↔ a < b := Nat.mul_lt_mul_left hk
  simp only [rneNat, Nat.mul_mod_mul_left, Nat.mul_div_mul_left _ _ hk, ← Nat.mul_left_comm k 2, hlt]

theorem rneMag_mul_left {k : Nat} (hk : 0 < k) (n d : Nat) : rneMag (k * n) (k * d) = rneMag n d := by
  have hquot : k * n * 2 ^ 149 / (k * d) = n * 2 ^ 149 / d := by rw [Nat.mul_assoc k n, Nat.mul_div_mul_left _ _ hk]
  rw [rneMag, rneMag, hquot, Nat.mul_assoc k n, Nat.mul_assoc k d, rneNat_mul_mul_left hk]

/-- A ratio is rounded alike in any terms. -/
theorem rneMag_ratio (n : Nat) {d : Nat} (hd : 0 < d) :
    rneMag ((n : Rat) / d).num.natAbs ((n : Rat) / d).den = rneMag n d := by
  obtain ⟨c, hn, hden⟩ := Rat.exists_eq_mul_div_num_and_eq_mul_div_den (n : Int) (d := (d : Int)) (by omega)
  push_cast at hn hden
  have hc : 0 < c.natAbs := by
    have : c ≠ 0 := by rintro rfl; omega
    omega
  have hn' : n = c.natAbs * ((n : Rat) / d).num.natAbs := by rw [← Int.natAbs_mul, ← hn, Int.natAbs_natCast]
  have hden' : d = c.natAbs * ((n : Rat) / d).den := by
    have h := congrArg Int.natAbs hden
    rwa [Int.natAbs_mul, Int.natAbs_natCast, Int.natAbs_natCast] at h
  have hscale := rneMag_mul_left hc ((n : Rat) / d).num.natAbs ((n : Rat) / d).den
  rw [← hn', ← hden'] at hscale
  exact hscale.symm

theorem rne32_ratio (n : Nat) {d : Nat} (hd : 0 < d) : rne32 ((n : Rat) / d) = withSign false (rneMag n d) := by
  have hnonneg : ¬ (n : Rat) / d < 0 := not_lt.mpr (by positivity)
  rw [rne32, rneMag_ratio n hd, decide_eq_false hnonneg]

theorem rne32_neg_ratio {n d : Nat} (hn : 0 < n) (hd : 0 < d) : rne32 (-((n : Rat) / d)) = withSign true (rneMag n d) := by
  have hneg : -((n : Rat) / d) < 0 := neg_neg_iff_pos.mpr (by positivity)
  rw [rne32, rneMag_neg, rneMag_ratio n hd, decide_eq_true hneg]

theorem rneMag_zero (d : Nat) : rneMag 0 d = 0 := by
  simp [rneMag, rneNat]

/-! ## Decimal literals -/

theorem decText_append (w p : List (Fin 10)) : decText w ++ decText p = decText (w ++ p) := List.map_append.symm

theorem decText_ne_point {l : List (Fin 10)} : ∀ c ∈ decText l, (c != '.') = true := by
  intro c hc
  rw [bne_iff_ne]
  rintro rfl
  exact not_mem_decText (by decide) l hc

theorem decimalLiteral_whole {w : List (Fin 10)} (hw : w ≠ []) : decimalLiteral (decText w) = some (decValue w, 1) := by
  have htake : (decText w).takeWhile (fun c => c != '.') = decText w := List.takeWhile_eq_self_iff.mpr decText_ne_point
  have hdrop : (decText w).dropWhile (fun c => c != '.') = [] := List.dropWhile_eq_nil_iff.mpr decText_ne_point
  simp only [decimalLiteral, htake, hdrop, digits_decText hw, Option.map_some]

theorem decimalLiteral_point {w p : List (Fin 10)} (hw : w ≠ []) (hp : p ≠ []) :
    decimalLiteral (decText w ++ '.' :: decText p) = some (decValue (w ++ p), 10 ^ p.length) := by
  have htake : (decText w ++ '.' :: decText p).takeWhile (fun c => c != '.') = decText w := by
    rw [List.takeWhile_append_of_pos decText_ne_point]
    simp
  have hdrop : (decText w ++ '.' :: decText p).dropWhile (fun c => c != '.') = '.' :: decText p := by
    rw [List.dropWhile_append_of_pos decText_ne_point]
    simp
  have hlength : (decText p).length = p.length := List.length_map _
  have hsome : (decText w).isEmpty = false := by simpa [decText] using hw
  simp only [decimalLiteral, htake, hdrop, hsome, digits_decText hp, decText_append, digits_decText (List.append_ne_nil_of_left_ne_nil hw p),
    hlength, Option.map_some, Option.bind_some, Bool.false_eq_true, if_false]

/-- The text of a decimal with the digits `w` before and `p` after the point. -/
def pointText (w p : List (Fin 10)) : List Char := if p = [] then decText w else decText w ++ '.' :: decText p

theorem decimalLiteral_pointText {w : List (Fin 10)} (hw : w ≠ []) (p : List (Fin 10)) :
    decimalLiteral (pointText w p) = some (decValue (w ++ p), 10 ^ p.length) := by
  unfold pointText
  split
  · next hp => rw [hp, List.append_nil, decimalLiteral_whole hw, List.length_nil, pow_zero]
  · next hp => exact decimalLiteral_point hw hp

/-- A decimal text starts with a digit. -/
theorem pointText_eq_cons {w : List (Fin 10)} (hw : w ≠ []) (p : List (Fin 10)) :
    ∃ (k : Fin 10) (rest : List Char), pointText w p = Nat.digitChar k.val :: rest := by
  obtain ⟨k, w, rfl⟩ := List.exists_cons_of_ne_nil hw
  unfold pointText
  split
  · exact ⟨k, _, rfl⟩
  · exact ⟨k, _, rfl⟩

/-- An unsigned decimal is neither raw bits nor signed. -/
theorem f32Literal_pointText {w : List (Fin 10)} (hw : w ≠ []) (p : List (Fin 10)) :
    f32Literal (pointText w p) = (decimalLiteral (pointText w p)).bind (roundedLiteral false) := by
  have hdigit : ∀ k : Fin 10, Nat.digitChar k.val ≠ 'f' ∧ Nat.digitChar k.val ≠ '-' := by decide
  obtain ⟨k, rest, htext⟩ := pointText_eq_cons hw p
  rw [htext]
  unfold f32Literal
  split
  · next h => exact absurd (List.cons.inj h).1 (hdigit k).1
  · next h => exact absurd (List.cons.inj h).1 (hdigit k).2
  · rfl

/-- A value that an f32 literal may have: finite ones (log entry 14). -/
def finiteOnly (x : F32) : Option F32 := if finite x = true then some x else none

theorem f32Literal_decimal {w : List (Fin 10)} (hw : w ≠ []) (p : List (Fin 10)) :
    f32Literal (pointText w p) = finiteOnly (rne32 ((decValue (w ++ p) : Rat) / 10 ^ p.length)) := by
  have hratio := rne32_ratio (decValue (w ++ p)) (d := 10 ^ p.length) (by positivity)
  push_cast at hratio
  rw [f32Literal_pointText hw, decimalLiteral_pointText hw, Option.bind_some, hratio, roundedLiteral, finiteOnly]

theorem f32Literal_neg_decimal {w : List (Fin 10)} (hw : w ≠ []) (p : List (Fin 10)) :
    f32Literal ('-' :: pointText w p) = if (decValue (w ++ p) : Rat) / 10 ^ p.length = 0 then some 0x80000000#32
      else finiteOnly (rne32 (-((decValue (w ++ p) : Rat) / 10 ^ p.length))) := by
  have hliteral : f32Literal ('-' :: pointText w p) = (decimalLiteral (pointText w p)).bind (roundedLiteral true) := rfl
  rw [hliteral, decimalLiteral_pointText hw, Option.bind_some, roundedLiteral]
  obtain hzero | hpos := Nat.eq_zero_or_pos (decValue (w ++ p))
  · rw [hzero, rneMag_zero, Nat.cast_zero, zero_div, if_pos rfl]
    decide
  · have hratio := rne32_neg_ratio hpos (d := 10 ^ p.length) (by positivity)
    push_cast at hratio
    have hne : (decValue (w ++ p) : Rat) / 10 ^ p.length ≠ 0 := by positivity
    rw [if_neg hne, hratio, finiteOnly]

/-- A text that does not start with the first letter of a channel's name is no name, hence a byte or nothing. -/
theorem selectorLiteral_of_head {l : List Char} (hV : l.head? ≠ some 'V') (hI : l.head? ≠ some 'I') (cfg : Config) :
    selectorLiteral cfg l = byteLiteral l := by
  have hname (name : String) (h : name.toList.head? = some 'V' ∨ name.toList.head? = some 'I') : (l == name.toList) = false := by
    rw [beq_eq_false_iff_ne]
    rintro rfl
    exact h.elim hV hI
  simp only [selectorLiteral, hname _ (.inl rfl : "VOUT".toList.head? = some 'V' ∨ _), hname "V1P25" (.inl rfl),
    hname "IOUT" (.inr rfl), hname "V1P65" (.inl rfl), Bool.false_eq_true, if_false]

/-- Settles O7: for texts of decimal digits, of hexadecimal digits, of bits, and for names. -/
theorem literalsMeanTheirValues : Obligations.LiteralsMeanTheirValues := by
  unfold Obligations.LiteralsMeanTheirValues
  intro dec hex num num16
  refine ⟨fun l hl => ?decimal, fun l hl => ?hexadecimal, fun w p hw => ?float, fun cfg => ?selector⟩
  case decimal =>
    have hnat := natLiteral_decText hl
    exact ⟨u32Literal_of_natLiteral hnat, byteLiteral_of_natLiteral hnat, i32Literal_decText hl, i32Literal_neg_decText hl⟩
  case hexadecimal =>
    have hnat := natLiteral_hexText hl
    exact ⟨u32Literal_of_natLiteral hnat, byteLiteral_of_natLiteral hnat, u32Literal_of_natLiteral hnat, f32Literal_bits hl⟩
  case float => exact ⟨f32Literal_decimal hw p, f32Literal_neg_decimal hw p⟩
  case selector =>
    refine ⟨rfl, rfl, rfl, rfl, fun l => ?_, fun l => ?_⟩
    · have hhead (c : Char) (hc : ∀ k : Fin 10, Nat.digitChar k.val ≠ c) : (dec l).head? ≠ some c := fun h =>
        not_mem_decText hc l (List.mem_of_head? h)
      exact selectorLiteral_of_head (hhead 'V' (by decide)) (hhead 'I' (by decide)) cfg
    · exact selectorLiteral_of_head (by simp) (by simp) cfg

end Sys2Proof.Machine
end

section
/-! PROOF. Lines of text (30_encoding.md R72; log entry 14): what blanks and commas do to a text, how a line falls into its first word and its
operands, and what each mnemonic makes of them. -/

namespace Sys2Proof.Machine

/-! ## Blanks -/

/-- A text of blanks. -/
def Blank (l : List Char) : Prop := ∀ c ∈ l, isBlank c = true

/-- A text without blanks. -/
def Solid (l : List Char) : Prop := ∀ c ∈ l, isBlank c = false

theorem isBlank_iff (c : Char) : isBlank c = true ↔ c = ' ' ∨ c = '\t' := by simp [isBlank]

/-- Text without the blanks at its end. -/
def trimRight (l : List Char) : List Char := (l.reverse.dropWhile isBlank).reverse

theorem trimBlanks_eq (l : List Char) : trimBlanks l = trimRight (l.dropWhile isBlank) := rfl

theorem trimRight_append_of_blank (l : List Char) {post : List Char} (h : Blank post) : trimRight (l ++ post) = trimRight l := by
  rw [trimRight, List.reverse_append, List.dropWhile_append_of_pos fun c hc => h c (List.mem_reverse.mp hc), trimRight]

/-- A text is its trimmed part and blanks after it. -/
theorem trimRight_split (l : List Char) : ∃ post, l = trimRight l ++ post ∧ Blank post := by
  refine ⟨(l.reverse.takeWhile isBlank).reverse, ?_, fun c hc => List.mem_takeWhile_imp (List.mem_reverse.mp hc)⟩
  rw [trimRight, ← List.reverse_append, List.takeWhile_append_dropWhile, List.reverse_reverse]

/-- A text that does not end in a blank keeps what comes before it. -/
theorem trimRight_append_of_solid {l : List Char} (hl : Solid l) (hne : l ≠ []) (rest : List Char) :
    trimRight (l ++ rest) = l ++ trimRight rest := by
  have hkeep : l.reverse.dropWhile isBlank = l.reverse := by
    obtain ⟨c, hc⟩ : ∃ c, l.reverse.head? = some c := by
      rw [← Option.isSome_iff_exists, List.isSome_head?]
      simpa using hne
    obtain ⟨tail, htail⟩ := List.head?_eq_some_iff.mp hc
    have hsolid : isBlank c = false := hl c (List.mem_reverse.mp (List.mem_of_head? hc))
    rw [htail, List.dropWhile_cons_of_neg (by simp [hsolid])]
  rw [trimRight, List.reverse_append, List.dropWhile_append, hkeep]
  split
  · next hempty =>
    have hnil : trimRight rest = [] := by rw [trimRight, List.isEmpty_iff.mp hempty, List.reverse_nil]
    rw [hnil, List.reverse_reverse, List.append_nil]
  · rw [List.reverse_append, List.reverse_reverse, trimRight]

@[simp] theorem trimBlanks_nil : trimBlanks [] = [] := rfl

theorem trimBlanks_append_left {pre : List Char} (h : Blank pre) (l : List Char) : trimBlanks (pre ++ l) = trimBlanks l := by
  rw [trimBlanks_eq, List.dropWhile_append_of_pos h, trimBlanks_eq]

theorem trimBlanks_cons_blank {c : Char} (h : isBlank c = true) (l : List Char) : trimBlanks (c :: l) = trimBlanks l :=
  trimBlanks_append_left (pre := [c]) (by simpa [Blank] using h) l

theorem trimBlanks_append_right (l : List Char) {post : List Char} (h : Blank post) : trimBlanks (l ++ post) = trimBlanks l := by
  rw [trimBlanks_eq, trimBlanks_eq, List.dropWhile_append]
  split
  · next hempty =>
    rw [List.isEmpty_iff.mp hempty, List.dropWhile_eq_nil_iff.mpr h]
  · exact trimRight_append_of_blank _ h

/-- A text is its trimmed part with blanks around it. -/
theorem trimBlanks_split (l : List Char) : ∃ pre post, l = pre ++ trimBlanks l ++ post ∧ Blank pre ∧ Blank post := by
  obtain ⟨post, hpost, hblank⟩ := trimRight_split (l.dropWhile isBlank)
  refine ⟨l.takeWhile isBlank, post, ?_, fun c hc => List.mem_takeWhile_imp hc, hblank⟩
  rw [List.append_assoc, trimBlanks_eq, ← hpost, List.takeWhile_append_dropWhile]

/-- A text that starts with a word: only the blanks at its end go. -/
theorem trimBlanks_of_word {word : List Char} (hword : Solid word) (hne : word ≠ []) (rest : List Char) :
    trimBlanks (word ++ rest) = word ++ trimRight rest := by
  obtain ⟨c, tail, rfl⟩ := List.exists_cons_of_ne_nil hne
  have hsolid : isBlank c = false := hword c List.mem_cons_self
  rw [trimBlanks_eq, List.cons_append, List.dropWhile_cons_of_neg (by simp [hsolid]), ← List.cons_append,
    trimRight_append_of_solid hword hne]

theorem trimBlanks_of_solid {l : List Char} (h : Solid l) : trimBlanks l = l := by
  obtain rfl | hne := eq_or_ne l []
  · rfl
  · simpa [trimRight] using trimBlanks_of_word h hne []

/-! ## Commas -/

theorem splitCommas_ne_nil (l : List Char) : splitCommas l ≠ [] := by
  cases l with
  | nil => simp [splitCommas]
  | cons c l =>
    unfold splitCommas
    split
    · simp
    · split <;> simp

/-- A character that is no comma joins the first piece. -/
theorem splitCommas_cons {c : Char} (hc : c ≠ ',') {l p : List Char} {ps : List (List Char)} (h : splitCommas l = p :: ps) :
    splitCommas (c :: l) = (c :: p) :: ps := by
  have hbeq : (c == ',') = false := by simpa using hc
  simp [splitCommas, hbeq, h]

/-- A text without a comma joins the first piece. -/
theorem splitCommas_append {a : List Char} (ha : ∀ c ∈ a, c ≠ ',') {l p : List Char} {ps : List (List Char)}
    (h : splitCommas l = p :: ps) : splitCommas (a ++ l) = (a ++ p) :: ps := by
  induction a with
  | nil => exact h
  | cons c a ih =>
    exact splitCommas_cons (ha c List.mem_cons_self) (ih fun c hc => ha c (List.mem_cons_of_mem _ hc))

/-- A text without a comma is one piece. -/
theorem splitCommas_of_no_comma {a : List Char} (ha : ∀ c ∈ a, c ≠ ',') : splitCommas a = [a] := by
  simpa using splitCommas_append ha (rfl : splitCommas [] = [[]])

theorem splitCommas_append_comma {a : List Char} (ha : ∀ c ∈ a, c ≠ ',') (l : List Char) :
    splitCommas (a ++ ',' :: l) = a :: splitCommas l := by
  simpa using splitCommas_append ha (rfl : splitCommas (',' :: l) = [] :: splitCommas l)

theorem ne_comma_of_blank {l : List Char} (h : Blank l) : ∀ c ∈ l, c ≠ ',' := by
  rintro c hc rfl
  exact absurd (h _ hc) (by decide)

/-- The pieces of a text without the blanks at their ends. -/
def pieces (l : List Char) : List (List Char) := (splitCommas l).map trimBlanks

theorem pieces_append_left {pre : List Char} (h : Blank pre) (l : List Char) : pieces (pre ++ l) = pieces l := by
  obtain ⟨p, ps, hp⟩ := List.exists_cons_of_ne_nil (splitCommas_ne_nil l)
  rw [pieces, pieces, splitCommas_append (ne_comma_of_blank h) hp, hp, List.map_cons, List.map_cons, trimBlanks_append_left h]

/-- A text without a comma joins the last piece. -/
theorem splitCommas_append_right {post : List Char} (hpost : ∀ c ∈ post, c ≠ ',') (l : List Char) :
    ∃ init last, splitCommas l = init ++ [last] ∧ splitCommas (l ++ post) = init ++ [last ++ post] := by
  induction l with
  | nil => exact ⟨[], [], rfl, splitCommas_of_no_comma hpost⟩
  | cons c l ih =>
    obtain ⟨init, last, hl, hlpost⟩ := ih
    by_cases hc : c = ','
    · subst hc
      have hcomma (m : List Char) : splitCommas (',' :: m) = [] :: splitCommas m := rfl
      exact ⟨[] :: init, last, by rw [hcomma, hl]; rfl, by rw [List.cons_append, hcomma, hlpost]; rfl⟩
    · cases init with
      | nil => exact ⟨[], c :: last, splitCommas_cons hc hl, splitCommas_cons hc hlpost⟩
      | cons p ps => exact ⟨(c :: p) :: ps, last, splitCommas_cons hc hl, splitCommas_cons hc hlpost⟩

theorem pieces_append_right (l : List Char) {post : List Char} (h : Blank post) : pieces (l ++ post) = pieces l := by
  obtain ⟨init, last, hl, hlpost⟩ := splitCommas_append_right (ne_comma_of_blank h) l
  rw [pieces, pieces, hl, hlpost, List.map_append, List.map_append, List.map_singleton, List.map_singleton,
    trimBlanks_append_right last h]

/-- Blanks at the ends of a text are blanks at the ends of its pieces. -/
theorem pieces_trimBlanks (l : List Char) : pieces (trimBlanks l) = pieces l := by
  obtain ⟨pre, post, hl, hpre, hpost⟩ := trimBlanks_split l
  conv_rhs => rw [hl]
  rw [pieces_append_right _ hpost, pieces_append_left hpre]

/-- An operand written plainly: no comma, no semicolon, no blank. -/
def Plain (a : List Char) : Prop := ∀ c ∈ a, c ∉ [',', ';', ' ', '\t']

theorem Plain.solid {a : List Char} (h : Plain a) : Solid a := by
  intro c hc
  have hnot := h c hc
  simp only [List.mem_cons, List.not_mem_nil, or_false, not_or] at hnot
  rw [← Bool.not_eq_true, isBlank_iff]
  tauto

theorem Plain.ne_comma {a : List Char} (h : Plain a) : ∀ c ∈ a, c ≠ ',' := by
  rintro c hc rfl
  exact h _ hc (by simp)

theorem Plain.ne_semicolon {a : List Char} (h : Plain a) : ∀ c ∈ a, c ≠ ';' := by
  rintro c hc rfl
  exact h _ hc (by simp)

/-- Operands in the canonical spacing: a comma and a space between them. -/
def operandText (operands : List (List Char)) : List Char := List.intercalate [',', ' '] operands

theorem operandText_cons_cons (a b : List Char) (rest : List (List Char)) :
    operandText (a :: b :: rest) = a ++ ',' :: ' ' :: operandText (b :: rest) := by
  simp [operandText, List.intercalate, List.intersperse]

@[simp] theorem operandText_singleton (a : List Char) : operandText [a] = a := by
  simp [operandText, List.intercalate]

/-- Plain operands in the canonical spacing are read back. -/
theorem pieces_operandText {operands : List (List Char)} (hne : operands ≠ []) (h : ∀ a ∈ operands, Plain a) :
    pieces (operandText operands) = operands := by
  induction operands with
  | nil => exact absurd rfl hne
  | cons a rest ih =>
    have ha := h a List.mem_cons_self
    cases rest with
    | nil =>
      rw [operandText_singleton, pieces, splitCommas_of_no_comma ha.ne_comma, List.map_singleton, trimBlanks_of_solid ha.solid]
    | cons b rest =>
      have hrest := ih (List.cons_ne_nil _ _) fun x hx => h x (List.mem_cons_of_mem _ hx)
      have hspace : pieces (' ' :: operandText (b :: rest)) = pieces (operandText (b :: rest)) :=
        pieces_append_left (pre := [' ']) (by simp [Blank, isBlank]) _
      rw [pieces, operandText_cons_cons, splitCommas_append_comma ha.ne_comma, List.map_cons, trimBlanks_of_solid ha.solid]
      exact congrArg (a :: ·) (hspace.trans hrest)

theorem operandText_ne_semicolon {operands : List (List Char)} (h : ∀ a ∈ operands, ∀ c ∈ a, c ≠ ';') :
    ∀ c ∈ operandText operands, c ≠ ';' := by
  induction operands with
  | nil => simp [operandText, List.intercalate]
  | cons a rest ih =>
    cases rest with
    | nil => simpa using h
    | cons b rest =>
      have hrest := ih fun x hx => h x (List.mem_cons_of_mem _ hx)
      intro c hc
      rw [operandText_cons_cons] at hc
      obtain hc | rfl | rfl | hc : c ∈ a ∨ c = ',' ∨ c = ' ' ∨ c ∈ operandText (b :: rest) := by simpa using hc
      · exact h a List.mem_cons_self c hc
      · decide
      · decide
      · exact hrest c hc

/-! ## Lines -/

theorem find_mnemonic (o : Op) : (Op.all.find? fun p => (mnemonic p).toList == (mnemonic o).toList) = some o := by
  cases o <;> decide

theorem mnemonic_solid (o : Op) : Solid (mnemonic o).toList := by
  cases o <;> simp [Solid, mnemonic, isBlank]

theorem mnemonic_ne_nil (o : Op) : (mnemonic o).toList ≠ [] := by cases o <;> decide

theorem mnemonic_ne_semicolon (o : Op) : ∀ c ∈ (mnemonic o).toList, c ≠ ';' := by
  cases o <;> simp [mnemonic]

/-- A well-formed instruction or none. -/
def wellFormedOnly (i : Option Instr) : Option Instr := i.bind fun i => if i.wf then some i else none

/-- A line before its comment, without the blanks at its ends. -/
def lineBody (line : List Char) : List Char := trimBlanks (line.takeWhile fun c => c != ';')

/-- The first word of a line. -/
def firstWord (line : List Char) : List Char := (lineBody line).takeWhile fun c => !isBlank c

/-- What follows the first word of a line. -/
def lineOperands (line : List Char) : List Char := trimBlanks ((lineBody line).dropWhile fun c => !isBlank c)

/-- A line gives what the operation its first word names makes of its operands. -/
theorem assembleInstr_eq (cfg : Config) (line : List Char) : assembleInstr cfg line
    = (Op.all.find? fun o => (mnemonic o).toList == firstWord line).bind fun o =>
        wellFormedOnly (parseOperands cfg o (lineOperands line)) := by
  unfold assembleInstr firstWord lineOperands lineBody
  dsimp only
  cases Op.all.find? fun o => (mnemonic o).toList == (trimBlanks (line.takeWhile fun c => c != ';')).takeWhile fun c => !isBlank c with
  | none => rfl
  | some o =>
    dsimp only [Option.bind_some]
    cases parseOperands cfg o (trimBlanks ((trimBlanks (line.takeWhile fun c => c != ';')).dropWhile fun c => !isBlank c)) <;> rfl

/-- A solid word followed by nothing or by a blank is the first word. -/
theorem takeWhile_word {word rest : List Char} (hword : Solid word) (hrest : ∀ c, rest.head? = some c → isBlank c = true) :
    (word ++ rest).takeWhile (fun c => !isBlank c) = word ∧ (word ++ rest).dropWhile (fun c => !isBlank c) = rest := by
  have hsolid : ∀ c ∈ word, (!isBlank c) = true := fun c hc => by simp [hword c hc]
  rw [List.takeWhile_append_of_pos hsolid, List.dropWhile_append_of_pos hsolid]
  cases rest with
  | nil => simp
  | cons c rest => simp [hrest c rfl]

/-- The body of a line that starts with a word and a blank falls into that word and the trimmed rest. -/
theorem line_words {line word rest : List Char} (hline : (line.takeWhile fun c => c != ';') = word ++ ' ' :: rest) (hword : Solid word)
    (hne : word ≠ []) : firstWord line = word ∧ lineOperands line = trimBlanks rest := by
  obtain ⟨post, hpost, hblank⟩ := trimRight_split (' ' :: rest)
  have hbody : lineBody line = word ++ trimRight (' ' :: rest) := by rw [lineBody, hline, trimBlanks_of_word hword hne]
  have hhead : ∀ c, (trimRight (' ' :: rest)).head? = some c → isBlank c = true := by
    intro c hc
    obtain ⟨tail, htail⟩ := List.head?_eq_some_iff.mp hc
    rw [htail, List.cons_append] at hpost
    exact (isBlank_iff c).mpr (.inl (List.cons.inj hpost).1.symm)
  obtain ⟨htake, hdrop⟩ := takeWhile_word hword hhead
  refine ⟨by rw [firstWord, hbody, htake], ?_⟩
  rw [lineOperands, hbody, hdrop, ← trimBlanks_append_right _ hblank, ← hpost, trimBlanks_cons_blank rfl]

/-- A line that starts with a mnemonic and a space: what is left before a comment, without the blanks at its ends, is the operands. -/
theorem assembleInstr_line (cfg : Config) (o : Op) {text : List Char} (htext : ∀ c ∈ text, c ≠ ';') (comment : Option (List Char)) :
    assembleInstr cfg ((mnemonic o).toList ++ ' ' :: (text ++ comment.elim [] (fun c => ' ' :: ';' :: c)))
      = wellFormedOnly (parseOperands cfg o (trimBlanks text)) := by
  have htake : ((mnemonic o).toList ++ ' ' :: (text ++ comment.elim [] (fun c => ' ' :: ';' :: c))).takeWhile (fun c => c != ';')
      = (mnemonic o).toList ++ ' ' :: (text ++ comment.elim [] fun _ => [' ']) := by
    have hname : ∀ c ∈ (mnemonic o).toList, (c != ';') = true := fun c hc => bne_iff_ne.mpr (mnemonic_ne_semicolon o c hc)
    have hplain : ∀ c ∈ text, (c != ';') = true := fun c hc => bne_iff_ne.mpr (htext c hc)
    rw [List.takeWhile_append_of_pos hname, List.takeWhile_cons_of_pos (by decide), List.takeWhile_append_of_pos hplain]
    cases comment with
    | none => rfl
    | some c => rfl
  have hblank : Blank (comment.elim [] fun _ => [' ']) := by cases comment <;> simp [Blank, isBlank]
  obtain ⟨hword, hoperands⟩ := line_words htake (mnemonic_solid o) (mnemonic_ne_nil o)
  rw [assembleInstr_eq, hword, hoperands, find_mnemonic, Option.bind_some, trimBlanks_append_right _ hblank]

/-- The operands make an instruction of the operation they are read for. -/
theorem parseOperands_op {cfg : Config} {o : Op} {text : List Char} {i : Instr} (h : parseOperands cfg o text = some i) : i.op = o := by
  unfold parseOperands at h
  dsimp only at h
  split at h
  · split at h
    · cases h; rfl
    · cases h
  · split at h
    · cases h; rfl
    · cases h
  · obtain ⟨_, -, rfl⟩ := Option.map_eq_some_iff.mp h; rfl
  · obtain ⟨_, -, rfl⟩ := Option.map_eq_some_iff.mp h; rfl
  · obtain ⟨_, -, rfl⟩ := Option.map_eq_some_iff.mp h; rfl
  · obtain ⟨_, -, rfl⟩ := Option.map_eq_some_iff.mp h; rfl
  · split at h
    · cases h; rfl
    · cases h
  · obtain ⟨_, -, rfl⟩ := Option.map_eq_some_iff.mp h; rfl
  · split at h
    · cases h; rfl
    · cases h
  · cases h; rfl
  · cases h

/-- What a line that assembles is made of: its first word is the mnemonic of a well-formed instruction's operation. -/
theorem assembleInstr_eq_some {cfg : Config} {line : List Char} {i : Instr} (h : assembleInstr cfg line = some i) :
    firstWord line = (mnemonic i.op).toList ∧ i.wf = true := by
  rw [assembleInstr_eq] at h
  obtain ⟨o, ho, hparse⟩ := Option.bind_eq_some_iff.mp h
  obtain ⟨j, hj, hwf⟩ := Option.bind_eq_some_iff.mp hparse
  split at hwf
  · next hjwf =>
    cases hwf
    rw [parseOperands_op hj]
    have hname := List.find?_some ho
    exact ⟨(beq_iff_eq.mp hname).symm, hjwf⟩
  · cases hwf

/-- The head of a concatenation has a property that the heads of both parts have. -/
theorem head_append {P : Char → Prop} {a b : List Char} (ha : ∀ c, a.head? = some c → P c) (hb : ∀ c, b.head? = some c → P c) :
    ∀ c, (a ++ b).head? = some c → P c := by
  cases a with
  | nil => exact hb
  | cons x a => exact ha

theorem head_blank {l : List Char} (h : Blank l) : ∀ c, l.head? = some c → c = ' ' ∨ c = '\t' ∨ c = ';' := fun c hc =>
  ((isBlank_iff c).mp (h c (List.mem_of_head? hc))).imp_right .inl

/-- The character after the part taken fails the test. -/
theorem head_dropWhile {p : Char → Bool} {l : List Char} {c : Char} (h : (l.dropWhile p).head? = some c) : p c = false := by
  have hnot := List.head?_dropWhile_not p l
  rw [h] at hnot
  exact hnot

/-- A line is blanks, its first word, and then nothing, a blank or a comment. -/
theorem line_split (line : List Char) : ∃ pre post, line = pre ++ firstWord line ++ post ∧ Blank pre ∧
    ∀ c, post.head? = some c → c = ' ' ∨ c = '\t' ∨ c = ';' := by
  obtain ⟨pre, post, hsplit, hpre, hpost⟩ := trimBlanks_split (line.takeWhile fun c => c != ';')
  refine ⟨pre, (lineBody line).dropWhile (fun c => !isBlank c) ++ (post ++ line.dropWhile fun c => c != ';'), ?_, hpre,
    head_append ?_ (head_append (head_blank hpost) ?_)⟩
  · have hline : (line.takeWhile fun c => c != ';') ++ line.dropWhile (fun c => c != ';') = line := List.takeWhile_append_dropWhile
    have hbody : firstWord line ++ (lineBody line).dropWhile (fun c => !isBlank c) = lineBody line := List.takeWhile_append_dropWhile
    calc line = pre ++ lineBody line ++ post ++ line.dropWhile (fun c => c != ';') := by rw [lineBody, ← hsplit, hline]
      _ = pre ++ (firstWord line ++ (lineBody line).dropWhile fun c => !isBlank c) ++ post ++ line.dropWhile (fun c => c != ';') := by
        rw [hbody]
      _ = _ := by simp only [List.append_assoc]
  · intro c hc
    have hblank := head_dropWhile hc
    rw [Bool.not_eq_false', isBlank_iff] at hblank
    exact hblank.imp_right .inl
  · intro c hc
    have hsemicolon := head_dropWhile hc
    rw [bne_eq_false_iff_eq] at hsemicolon
    exact .inr (.inr hsemicolon)

/-! ## Each mnemonic -/

section Parse
variable {cfg : Config} {text : List Char}

theorem parse_pidTick {a b c : List Char} (h : pieces text = [a, b, c]) : parseOperands cfg .pidTick text
    = (f32Literal a).bind fun x => (f32Literal b).bind fun y => (f32Literal c).map fun z => .pidTick x y z := by
  simp only [parseOperands, show (splitCommas text).map trimBlanks = [a, b, c] from h]
  cases f32Literal a <;> cases f32Literal b <;> cases f32Literal c <;> rfl

theorem parse_bootLookup {a b : List Char} (h : pieces text = [a, b]) : parseOperands cfg .bootLookup text
    = (f32Literal a).bind fun x => (f32Literal b).map fun y => .bootLookup x y := by
  simp only [parseOperands, show (splitCommas text).map trimBlanks = [a, b] from h]
  cases f32Literal a <;> cases f32Literal b <;> rfl

theorem parse_loadCmp {a b : List Char} (h : pieces text = [a, b]) : parseOperands cfg .loadCmp text
    = (f32Literal a).bind fun x => (f32Literal b).map fun y => .loadCmp x y := by
  simp only [parseOperands, show (splitCommas text).map trimBlanks = [a, b] from h]
  cases f32Literal a <;> cases f32Literal b <;> rfl

theorem parse_amux2v {a b : List Char} (h : pieces text = [a, b]) : parseOperands cfg .amux2v text
    = (selectorLiteral cfg a).bind fun x => (u32Literal b).map fun y => .amux2v x y := by
  simp only [parseOperands, show (splitCommas text).map trimBlanks = [a, b] from h]
  cases selectorLiteral cfg a <;> cases u32Literal b <;> rfl

theorem parse_v2dac {a : List Char} (h : pieces text = [a]) : parseOperands cfg .v2dac text = (f32Literal a).map .v2dac := by
  simp only [parseOperands, show (splitCommas text).map trimBlanks = [a] from h]

theorem parse_setv {a : List Char} (h : pieces text = [a]) : parseOperands cfg .setv text = (f32Literal a).map .setv := by
  simp only [parseOperands, show (splitCommas text).map trimBlanks = [a] from h]

theorem parse_dac2v {a : List Char} (h : pieces text = [a]) : parseOperands cfg .dac2v text = (i32Literal a).map .dac2v := by
  simp only [parseOperands, show (splitCommas text).map trimBlanks = [a] from h]

theorem parse_loadCheck (h : pieces text = [[]]) : parseOperands cfg .loadCheck text = some .loadCheck := by
  simp only [parseOperands, show (splitCommas text).map trimBlanks = [[]] from h]

theorem parse_crc8 : parseOperands cfg .crc8 text = (streamLiteral text).map .crc8 := by simp only [parseOperands]

theorem parse_crc8Check : parseOperands cfg .crc8Check text = (streamLiteral text).map .crc8Check := by simp only [parseOperands]

end Parse

/-- A line in the canonical spacing with an optional comment. -/
def canonicalLine (comment : Option (List Char)) (name : String) (operands : List (List Char)) : List Char :=
  name.toList ++ ' ' :: (List.intercalate [',', ' '] operands ++ comment.elim [] (fun c => ' ' :: ';' :: c))

/-- A line in the canonical spacing gives what its operation makes of its plain operands, when that is well-formed. -/
theorem assembleInstr_canonicalLine (cfg : Config) (comment : Option (List Char)) (o : Op) {operands : List (List Char)}
    (h : ∀ a ∈ operands, Plain a) : assembleInstr cfg (canonicalLine comment (mnemonic o) operands)
      = wellFormedOnly (parseOperands cfg o (trimBlanks (operandText operands))) :=
  assembleInstr_line cfg o (operandText_ne_semicolon fun a ha => (h a ha).ne_semicolon) comment

theorem pieces_of_plain {operands : List (List Char)} (hne : operands ≠ []) (h : ∀ a ∈ operands, Plain a) :
    pieces (trimBlanks (operandText operands)) = operands := by
  rw [pieces_trimBlanks, pieces_operandText hne h]

/-! ## Streams -/

theorem mapOption_map {α β γ : Type} (f : β → Option γ) (g : α → β) (l : List α) :
    mapOption (fun a => f (g a)) l = mapOption f (l.map g) := by
  induction l with
  | nil => rfl
  | cons a l ih => simp only [mapOption, List.map_cons, ih]

theorem mapOption_of_map_eq {α β : Type} {f : α → Option β} {l : List α} {bs : List β} (h : l.map f = bs.map some) :
    mapOption f l = some bs := by
  induction l generalizing bs with
  | nil =>
    obtain rfl : bs = [] := by simpa using h.symm
    rfl
  | cons a l ih =>
    cases bs with
    | nil => cases h
    | cons b bs =>
      obtain ⟨hb, hbs⟩ := List.cons.inj h
      simp only [mapOption, hb, ih hbs]

theorem mapOption_of_none_mem {α β : Type} {f : α → Option β} {l : List α} (h : none ∈ l.map f) : mapOption f l = none := by
  induction l with
  | nil => cases h
  | cons a l ih =>
    rw [List.map_cons, List.mem_cons] at h
    unfold mapOption
    obtain hnone | hrest := h
    · rw [← hnone]
    · rw [ih hrest]
      cases f a <;> rfl

/-- A bracketed stream of nonempty plain texts is read byte by byte. -/
theorem streamLiteral_brackets {texts : List (List Char)} (h : ∀ a ∈ texts, Plain a ∧ a ≠ []) :
    streamLiteral ('[' :: (operandText texts ++ [']'])) = mapOption byteLiteral texts := by
  have hplain : ∀ a ∈ texts, Plain a := fun a ha => (h a ha).1
  have hlast : (operandText texts ++ [']']).getLast? = some ']' := List.getLast?_concat
  simp only [streamLiteral, hlast, if_true, List.dropLast_concat]
  obtain rfl | hne := eq_or_ne texts []
  · rfl
  · have hpieces := pieces_of_plain hne hplain
    have hinside : (trimBlanks (operandText texts)).isEmpty = false := by
      rw [← Bool.not_eq_true, List.isEmpty_iff]
      intro hempty
      rw [hempty] at hpieces
      exact (h [] (hpieces ▸ by simp [pieces, splitCommas])).2 rfl
    rw [hinside, if_neg Bool.false_ne_true, mapOption_map]
    exact congrArg _ hpieces

/-- A bracketed text does not begin or end in a blank. -/
theorem trimBlanks_brackets (text : List Char) : trimBlanks ('[' :: (text ++ [']'])) = '[' :: (text ++ [']']) := by
  have hopen : Solid ['['] := by simp [Solid, isBlank]
  have hclose : trimRight (text ++ [']']) = text ++ [']'] := by
    simp [trimRight, isBlank]
  have hword := trimBlanks_of_word hopen (List.cons_ne_nil _ _) (text ++ [']'])
  rwa [hclose] at hword

/-- A line of a checksum operation with a bracketed stream of nonempty plain texts. -/
theorem assembleInstr_stream (cfg : Config) (comment : Option (List Char)) {o : Op} {op : List Byte → Instr}
    (hparse : ∀ text, parseOperands cfg o text = (streamLiteral text).map op) {texts : List (List Char)}
    (h : ∀ a ∈ texts, Plain a ∧ a ≠ []) :
    assembleInstr cfg (canonicalLine comment (mnemonic o) ['[' :: (operandText texts ++ [']'])])
      = wellFormedOnly ((mapOption byteLiteral texts).map op) := by
  have hbracket : ∀ c ∈ '[' :: (operandText texts ++ [']']), c ≠ ';' := by
    have hinside := operandText_ne_semicolon fun a ha => (h a ha).1.ne_semicolon
    simp only [List.mem_cons, List.mem_append, List.not_mem_nil, or_false]
    rintro c (rfl | hc | rfl)
    · decide
    · exact hinside c hc
    · decide
  have hline := assembleInstr_line cfg o hbracket comment
  rw [trimBlanks_brackets, hparse, streamLiteral_brackets h] at hline
  rw [canonicalLine, ← operandText, operandText_singleton]
  exact hline

/-- The first clause of O6: a line that assembles gives the request of a well-formed instruction, which decodes to it. -/
theorem assemble_eq_some {cfg : Config} {line : String} {r : Request} (h : assemble cfg line = some r) :
    ∃ i, assembleInstr cfg line.toList = some i ∧ i.wf = true ∧ r = encode i ∧ decode r = .ok i := by
  obtain ⟨i, hi, rfl⟩ := Option.map_eq_some_iff.mp h
  obtain ⟨-, hwf⟩ := assembleInstr_eq_some hi
  exact ⟨i, hi, hwf, rfl, decode_encode hwf⟩

/-- An instruction that carries no stream is well-formed. -/
theorem wf_of_op {i : Instr} (h : i.op.form.readsLen = false) : i.wf = true := by
  cases i with
  | crc8 data => exact Bool.noConfusion h
  | crc8Check data => exact Bool.noConfusion h
  | _ => rfl

/-- An operation that takes no bytes: its line gives what its operands give. -/
theorem assembleInstr_words (cfg : Config) (comment : Option (List Char)) {o : Op} (ho : o.form.readsLen = false)
    {operands : List (List Char)} (hne : operands ≠ []) (h : ∀ a ∈ operands, Plain a) {result : Option Instr}
    (hparse : ∀ text, pieces text = operands → parseOperands cfg o text = result) :
    assembleInstr cfg (canonicalLine comment (mnemonic o) operands) = result := by
  have hresult := hparse _ (pieces_of_plain hne h)
  rw [assembleInstr_canonicalLine cfg comment o h, hresult, wellFormedOnly]
  cases hi : result with
  | none => rfl
  | some i =>
    have hop := parseOperands_op (hresult.trans hi)
    rw [Option.bind_some, if_pos (wf_of_op (hop ▸ ho))]

/-- A line of a checksum operation gives its operation on the bytes of its texts, when they are bytes and no more than `LEN` can name. -/
theorem assembleInstr_bytes (cfg : Config) (comment : Option (List Char)) {o : Op} {op : List Byte → Instr}
    (hparse : ∀ text, parseOperands cfg o text = (streamLiteral text).map op)
    (hwf : ∀ d, (op d).wf = decide (d.length ≤ 65535)) {texts : List (List Char)} (h : ∀ a ∈ texts, Plain a ∧ a ≠ []) :
    (∀ d : List Byte, texts.map byteLiteral = d.map some →
      assembleInstr cfg (canonicalLine comment (mnemonic o) ['[' :: (operandText texts ++ [']'])])
        = if d.length ≤ 65535 then some (op d) else none) ∧
    (none ∈ texts.map byteLiteral →
      assembleInstr cfg (canonicalLine comment (mnemonic o) ['[' :: (operandText texts ++ [']'])]) = none) := by
  rw [assembleInstr_stream cfg comment hparse h]
  constructor
  · intro d hd
    rw [mapOption_of_map_eq hd, Option.map_some, wellFormedOnly, Option.bind_some, hwf]
    simp only [decide_eq_true_eq]
  · intro hnone
    rw [mapOption_of_none_mem hnone]
    rfl

/-- Settles O6. A line falls into its first word, which names the operation, and its operands, which are read piece by piece. -/
theorem assembledLinesDecodeToTheirInstruction : Obligations.AssembledLinesDecodeToTheirInstruction := by
  unfold Obligations.AssembledLinesDecodeToTheirInstruction
  refine ⟨fun cfg line r => assemble_eq_some, fun cfg text i hi => ?firstWord, ?canonical⟩
  case firstWord =>
    obtain ⟨hword, -⟩ := assembleInstr_eq_some hi
    obtain ⟨pre, post, htext, hpre, hpost⟩ := line_split text
    rw [hword] at htext
    refine ⟨pre, post, ?_, fun c hc => (isBlank_iff c).mp (hpre c hc), hpost⟩
    cases i <;> exact htext
  case canonical =>
    intro cfg comment line plain
    have one {a : List Char} (ha : plain a) : ∀ x ∈ [a], Plain x := List.forall_mem_singleton.mpr ha
    have two {a b : List Char} (ha : plain a) (hb : plain b) : ∀ x ∈ [a, b], Plain x := List.forall_mem_cons.mpr ⟨ha, one hb⟩
    refine ⟨fun a b c ha hb hc => ?_, fun a b ha hb => ?_, fun a b ha hb => ?_, fun a ha => ?_, fun a ha => ?_, fun a ha => ?_,
      fun a b ha hb => ?_, ?_, fun name op hname texts htexts => ?_⟩
    · exact assembleInstr_words cfg comment (o := .pidTick) rfl (by simp) (List.forall_mem_cons.mpr ⟨ha, two hb hc⟩)
        fun _ => parse_pidTick
    · exact assembleInstr_words cfg comment (o := .bootLookup) rfl (by simp) (two ha hb) fun _ => parse_bootLookup
    · exact assembleInstr_words cfg comment (o := .loadCmp) rfl (by simp) (two ha hb) fun _ => parse_loadCmp
    · exact assembleInstr_words cfg comment (o := .v2dac) rfl (by simp) (one ha) fun _ => parse_v2dac
    · exact assembleInstr_words cfg comment (o := .setv) rfl (by simp) (one ha) fun _ => parse_setv
    · exact assembleInstr_words cfg comment (o := .dac2v) rfl (by simp) (one ha) fun _ => parse_dac2v
    · exact assembleInstr_words cfg comment (o := .amux2v) rfl (by simp) (two ha hb) fun _ => parse_amux2v
    · have hline := assembleInstr_canonicalLine cfg comment .loadCheck (operands := []) (by simp)
      rwa [parse_loadCheck (text := trimBlanks (operandText [])) rfl] at hline
    · simp only [List.mem_cons, Prod.mk.injEq, List.not_mem_nil, or_false] at hname
      obtain ⟨rfl, rfl⟩ | ⟨rfl, rfl⟩ := hname
      · exact assembleInstr_bytes cfg comment (o := .crc8) (fun _ => parse_crc8) (fun _ => rfl) htexts
      · exact assembleInstr_bytes cfg comment (o := .crc8Check) (fun _ => parse_crc8Check) (fun _ => rfl) htexts

end Sys2Proof.Machine
end
